-- ==== Sys2Proof/Word.lean ====
section
/-! DEFINITION. The words of BOPE: a register is 32 bits (spec/10_state.md R31), a byte 8 bits
(spec/20_memory.md R71), a slot number 4 bits (spec/30_encoding.md R104). -/
namespace Sys2Proof

/-- A register of the window, a buffer-memory address, a pixel value: 32 bits (R7). -/
abbrev Word := BitVec 32

/-- One location of buffer memory (R71). -/
abbrev Byte := BitVec 8

/-- A slot number: all 16 values name a slot (R104). -/
abbrev SlotNo := BitVec 4

end Sys2Proof
end

