-- ==== Sys2Proof/Config.lean ====
section
/-! DEFINITION. What the spec leaves open. The opaque constants are the open parameter `REG_BASE` and the
free values of the model: they have no body, so no proof can see what they are (logs 3, 4 and 14). -/
namespace Sys2Proof.Config

/-- The number of bytes of buffer memory, `2^ADDR_BITS` with `ADDR_BITS` = 32 (R7, R70). -/
abbrev addrSpace : Nat := 4294967296

/-- `REG_BASE`, the host address of offset 0x00 of the register window: a platform parameter (R7, R31,
R281), open and fixed for the machine. Every register access is resolved against it: log 14. -/
opaque regBase : Nat

/-- A draw: a byte the spec calls "any value" or "unspecified" (R34, R84, R92, R292). The argument is
the number of draws taken from this constant before. DESIGN CHOICE, safe: log 3. -/
opaque freeByte : Nat → BitVec 8

/-- The allocator's answer where the environment has not fixed it: `none` or an address, "a draw of the
step" (R84). The argument is as in `freeByte`. DESIGN CHOICE, safe: log 4. -/
opaque freeAnswer : Nat → Option (BitVec 32)

end Sys2Proof.Config
end

