-- ==== Sys2Proof/Syntax.lean ====
section
/-! DEFINITION. The fourteen commands of BOPE-CMD v1 (spec/30_encoding.md R111), one constructor per
row of spec/opcode_table.json. A command carries its slot fields only: every other operand stands in
the ARG registers (R110). -/
namespace Sys2Proof

/-- A command of BOPE. `sa` and `sb` are the fields SA and SB of the command word (R102). -/
inductive Instr where
  /-- 0x00 NOP, R145. -/
  | nop
  /-- 0x01 VALIDATE, R159. -/
  | validate
  /-- 0x02 GEOM, R160. -/
  | geom
  /-- 0x03 CREATE, R171. -/
  | create (sa : SlotNo)
  /-- 0x04 ANNOTATE, R176. -/
  | annotate (sa : SlotNo)
  /-- 0x05 DESTROY, R177. -/
  | destroy (sa : SlotNo)
  /-- 0x06 SETMASK, R178. -/
  | setmask (sa : SlotNo)
  /-- 0x07 QUERY, R179. -/
  | query (sa : SlotNo)
  /-- 0x08 GETPIXEL, R195. -/
  | getpixel (sa : SlotNo)
  /-- 0x09 PUTPIXEL, R196. -/
  | putpixel (sa : SlotNo)
  /-- 0x0A PIXADDR, R197. -/
  | pixaddr (sa : SlotNo)
  /-- 0x0B PERMLOOKUP, R212. -/
  | permlookup
  /-- 0x0C BYTEXFORM, R213. -/
  | bytexform
  /-- 0x0D CONVERT, R225: `sa` is the destination slot, `sb` the source slot (R116). -/
  | convert (sa sb : SlotNo)
deriving DecidableEq, Repr

end Sys2Proof
end

