-- ==== Sys2Proof/Machine/State.lean ====
section
/-! DEFINITION. The state of BOPE as plain data (spec/10_state.md), the reasons a step can stop, and the
machine right after reset (spec/70_reset_and_hazards.md R290). -/
namespace Sys2Proof.Machine

/-- The two descriptor families (R12, R40). -/
inductive Family where
  | planar
  | packed
deriving DecidableEq, Repr

/-- A byte order or a bit order (R12). -/
inductive Order where
  | lsbFirst
  | msbFirst
deriving DecidableEq, Repr

/-- The ownership states of a valid slot (R42). -/
inductive Ownership where
  /-- "geometry-only descriptor, no storage yet". -/
  | unallocated
  /-- "caller-owned storage, never freed by the descriptor". -/
  | borrowedView
  /-- "descriptor allocated it, frees on destroy". -/
  | ownedAllocation
deriving DecidableEq, Repr

/-- The error kinds a command can end with (R261, R262). -/
inductive Err where
  | invalidFormat
  | allocationFailure
  | bufferTooSmall
  | incompatibleGeometry
  | unsupportedFormat
  /-- Reserved: no command raises it (R6). -/
  | noNativeFormat
  | contractViolation
  | illegalCommand
deriving DecidableEq, Repr

/-- The buffer-resolution case MODE[1:0] selects (R107). -/
inductive BufferMode where
  | defer
  | borrow
  | storage
  | alloc
deriving DecidableEq, Repr

/-- The unit classes that index the permutation tables (R200, R201). -/
inductive UnitClass where
  | c8
  | c16
  | c32
deriving DecidableEq, Repr

/-- A format tuple, as `DecodeFMT` returns it (R158) and a slot holds it (R40). -/
structure Format where
  family : Family
  depth : BitVec 6
  bpp : BitVec 6
  unit : BitVec 6
  pad : BitVec 6
  byteOrder : Order
  bitOrder : Order
deriving DecidableEq, Repr

/-- What `Annotate` computes (R155): exact naturals and the plane mask. -/
structure Annotation where
  stride : Nat
  size : Nat
  planeMask : Word
deriving DecidableEq, Repr

/-- A descriptor slot (R40). The fields of an invalid slot are read by no rule (R44). -/
structure Slot where
  valid : Bool
  width : BitVec 16
  height : BitVec 16
  fmt : Format
  planeMask : Word
  stride : Nat
  size : Nat
  own : Ownership
  data : Word
  base : Word
deriving DecidableEq, Repr

/-- A piece of a pixel (R185): bits `bit + width - 1 : bit` of the pixel are bits
`shift + width - 1 : shift` of the byte at `data + off`. -/
structure Piece where
  off : Nat
  shift : Nat
  width : Nat
  bit : Nat
deriving DecidableEq, Repr

/-- A conversion strategy with its bulk-copy parameters, as `Select` returns them (R230). -/
structure Strategy where
  number : Nat
  mask : Nat
  bitswap : Bool
  nibswap : Bool
deriving DecidableEq, Repr

/-- What CREATE is about to do once every check but the allocator's has passed (R171, R174). -/
inductive CreatePlan where
  /-- The descriptor is complete: DEFER, BORROW, STORAGE. -/
  | ready (d : Slot)
  /-- The descriptor still needs `size` bytes from the allocator: ALLOC. -/
  | allocate (d : Slot)
deriving DecidableEq, Repr

/-- The STATUS register by its fields (R38). Bits 31:16 read as 0 and are no state. -/
structure Status where
  busy : Bool
  done : Bool
  collision : Bool
  fault : Bool
  err : BitVec 4
  lastOp : BitVec 8
deriving DecidableEq, Repr

/-- Buffer memory: the listed bytes, addresses strictly rising, none equal to what an unlisted address
reads as (`unlistedByte`; log 6). -/
abbrev Memory := List Host.Cell

/-- The engine's byte-wide port on buffer memory (R77), with what its draws need. -/
structure Port where
  /-- The bytes of buffer memory (R70). -/
  mem : Memory
  /-- The in-flight bytes the host has written since the launch (R92), without repeats. -/
  raced : List Nat
  /-- MODEL'S OWN: draws the environment has fixed, the next one first (log 3). -/
  draws : List Byte
  /-- MODEL'S OWN: how many draws came from the free constants (log 3). -/
  drawn : Nat
deriving DecidableEq, Repr

/-- What passed over the allocator port (R84, R85; log 5). -/
inductive AllocEvent where
  /-- `Alloc(size)` was answered with `base`. -/
  | alloc (base : Word) (size : Nat)
  /-- `Free(base)` was requested. -/
  | free (base : Word)
deriving DecidableEq, Repr

/-- One turn of an agent (R30, R101): which moves next is data, because the spec fixes no delay (log 1). -/
inductive Turn where
  /-- The engine takes its enabled step, if it has one (R141). -/
  | engine
  /-- The host reads `bytes` bytes at host address `addr`, where a register may stand (R31, R75). -/
  | regRead (addr bytes : Nat)
  /-- The host writes `value` as `bytes` bytes at host address `addr`, where a register may stand (R31, R75). -/
  | regWrite (addr bytes : Nat) (value : Word)
  /-- The host reads a byte of buffer memory by means outside BOPE (R70). -/
  | memRead (addr : Word)
  /-- The host writes a byte of buffer memory by means outside BOPE (R70). -/
  | memWrite (addr : Word) (value : Byte)
  /-- The platform's reset input (R290). -/
  | hardReset
deriving DecidableEq, Repr

/-- A register of the window, by name (R31). -/
inductive Reg where
  | id
  | caps
  | ctrl
  | status
  | cmd
  | arg (i : Fin 6)
  | res (i : Fin 3)
  /-- Offsets 0x38 and 0x3C (R32). -/
  | reserved
deriving DecidableEq, Repr

/-- The whole machine. -/
structure State where
  /-- CTRL.IRQ_EN (R37). -/
  irqEn : Bool
  /-- STATUS (R38). -/
  status : Status
  /-- CMD: the last accepted command word (R39). -/
  cmd : Word
  /-- ARG0 to ARG5 (R33). -/
  args : Vector Word 6
  /-- RES0 to RES2 (R34). -/
  res : Vector Word 3
  /-- The descriptor slot file (R40). -/
  slots : Vector Slot 16
  /-- Buffer memory behind the engine's port (R70, R77). -/
  port : Port
  /-- MODEL'S OWN: the answers the allocator will give, the next one first (log 4). -/
  allocAnswers : List (Option Word)
  /-- MODEL'S OWN: allocations granted and `Free` requests made, oldest first (log 5). -/
  allocLog : List AllocEvent
  /-- MODEL'S OWN: the turns still to come, the next one first (log 1). -/
  agenda : List Turn
  /-- MODEL'S OWN: what the last host read returned (log 8). -/
  hostData : Word
deriving DecidableEq, Repr

/-- Why the machine stops with a fault. -/
inductive Fault where
  /-- Raised by GETPIXEL, PUTPIXEL and CONVERT before any effect, when a byte they are about to access lies
  at or above `2^ADDR_BITS`, an address that does not exist (R70, R81). No state that meets the slot
  invariant raises it. Safe: the machine stops where the spec gives no meaning (log 12). -/
  | outsideBufferMemory
deriving DecidableEq, Repr

/-- Why the model gives a step no meaning. -/
inductive Refusal where
  /-- Raised by an arm of `exec` whose instruction has no meaning yet; none has one now. Safe. -/
  | notModelled (mnemonic : String)
  /-- Raised by a host turn whose register access is not an aligned 32-bit word inside the window: "has no
  meaning in this spec and the model refuses it" (R32, R75). Safe (log 13). -/
  | nonWordAccess
deriving DecidableEq, Repr

/-- A slot after reset: invalid (R48); its other fields are unspecified (R44) and zero here.
DESIGN CHOICE, unsafe as a value: log 7. -/
def Slot.atReset : Slot where
  valid := false
  width := 0
  height := 0
  fmt := ⟨.planar, 0, 0, 0, 0, .lsbFirst, .lsbFirst⟩
  planeMask := 0
  stride := 0
  size := 0
  own := .unallocated
  data := 0
  base := 0

/-- STATUS after reset (R290). -/
def Status.atReset : Status := ⟨false, false, false, false, 0, 0⟩

/-- The machine right after power-on reset (R48, R290): every register at its reset value, every slot
invalid, no byte of memory listed (log 6), the model's own fields empty (logs 1, 3, 4, 5, 8). -/
def State.reset : State where
  irqEn := false
  status := .atReset
  cmd := 0
  args := Vector.replicate 6 0
  res := Vector.replicate 3 0
  slots := Vector.replicate 16 .atReset
  port := ⟨[], [], [], 0⟩
  allocAnswers := []
  allocLog := []
  agenda := []
  hostData := 0

end Sys2Proof.Machine
end

