-- ==== Sys2Proof/Machine/Flags.lean ====
section
/-! DEFINITION. The STATUS register (spec/10_state.md R38), the error codes and the completion update
(spec/60_exceptions.md R262, R265; spec/40_command_cycle.md R142). -/
namespace Sys2Proof.Machine

/-- The code STATUS.ERR holds for an error (R262). -/
def Err.code : Err → BitVec 4
  | .invalidFormat => 1
  | .allocationFailure => 2
  | .bufferTooSmall => 3
  | .incompatibleGeometry => 4
  | .unsupportedFormat => 5
  | .noNativeFormat => 6
  | .contractViolation => 7
  | .illegalCommand => 8

/-- "if e in {5, 7, 8}: STATUS.FAULT <- 1" (R142, R265). -/
def codeSetsFault (e : BitVec 4) : Bool := e == 5 || e == 7 || e == 8

/-- The completion update of STATUS for error code `e` and opcode `op` (R142). -/
def Status.complete (st : Status) (e : BitVec 4) (op : BitVec 8) : Status where
  busy := false
  done := true
  collision := st.collision
  fault := st.fault || codeSetsFault e
  err := e
  lastOp := op

/-- The launch update of STATUS: BUSY set, DONE cleared, nothing else (R140). -/
def Status.launch (st : Status) : Status := { st with busy := true, done := false }

/-- A CMD or ARG write was dropped because BUSY was 1 (R33, R38, R39). -/
def Status.collide (st : Status) : Status := { st with collision := true }

/-- A host write to STATUS: bit 1 clears DONE, bit 2 clears COLLISION, the rest is ignored (R38). -/
def Status.hostWrite (st : Status) (v : Word) : Status :=
  { st with
    done := st.done && !v.getLsbD 1
    collision := st.collision && !v.getLsbD 2 }

/-- STATUS as the host reads it (R38): bits 31:16 are 0. -/
def Status.word (st : Status) : Word :=
  (0 : BitVec 16) ++ st.lastOp ++ st.err ++ BitVec.ofBool st.fault ++ BitVec.ofBool st.collision
    ++ BitVec.ofBool st.done ++ BitVec.ofBool st.busy

/-- CTRL as the host reads it: IRQ_EN in bit 0, SOFT_RESET and the reserved bits read 0 (R37). -/
def ctrlWord (irqEn : Bool) : Word := (0 : BitVec 31) ++ BitVec.ofBool irqEn

/-- The IRQ output: "IRQ = CTRL.IRQ_EN AND STATUS.DONE" (R270). -/
def State.irq (s : State) : Bool := s.irqEn && s.status.done

end Sys2Proof.Machine
end

