-- ==== Sys2Proof/Machine/Ops.lean ====
section
/-! DEFINITION. The named operations over memory, registers, slots and the allocator port, and how a
command ends: `raise` and `finish` over the one completion update (spec/60_exceptions.md R263,
spec/40_command_cycle.md R142). BOPE has no trap entry and no return from one (R272, R273): an error is
reported by this update and by nothing else. -/
namespace Sys2Proof.Machine

/-! ### Buffer memory (R70 to R72) -/

/-- What a byte nothing has written reads as. DESIGN CHOICE, unsafe: log 6. -/
def unlistedByte : Byte := 0

/-- `MemRead(a, 1)` on a list of cells (R77). -/
def Memory.read : Memory → Nat → Byte
  | [], _ => unlistedByte
  | (b, v) :: m, a => if a = b then v else Memory.read m a

/-- Lists `v` at `a`, keeping the addresses rising. -/
def Memory.insert : Memory → Nat → Byte → Memory
  | [], a, v => [(a, v)]
  | (b, w) :: m, a, v =>
    if a < b then (a, v) :: (b, w) :: m
    else if a = b then (a, v) :: m
    else (b, w) :: Memory.insert m a v

/-- Takes `a` off the list. -/
def Memory.erase : Memory → Nat → Memory
  | [], _ => []
  | (b, w) :: m, a => if a = b then Memory.erase m a else (b, w) :: Memory.erase m a

/-- `MemWrite(a, 1, v)` (R77), in canonical form. An address that does not exist holds nothing; no command
gets as far as writing one (log 12). -/
def Memory.write (m : Memory) (a : Nat) (v : Byte) : Memory :=
  if a < Config.addrSpace then
    if v = unlistedByte then Memory.erase m a else Memory.insert m a v
  else m

/-- The canonical form: addresses strictly rising and inside the space, no entry equal to an unlisted byte. -/
def Memory.wf : Memory → Bool
  | [] => true
  | (a, v) :: m =>
    decide (a < Config.addrSpace) && v != unlistedByte && m.all (fun c => decide (a < c.1)) && Memory.wf m

/-! ### The engine's port and its draws (R77, R92) -/

/-- A draw: the next byte the environment has fixed, else a free byte (log 3). -/
def Port.draw (p : Port) : Byte × Port :=
  match p.draws with
  | v :: rest => (v, { p with draws := rest })
  | [] => (Config.freeByte p.drawn, { p with drawn := p.drawn + 1 })

/-- An engine read of one byte. A byte the host raced on reads as any value, at every read (R92). -/
def Port.read (a : Nat) (p : Port) : Byte × Port :=
  if p.raced.contains a then p.draw else (p.mem.read a, p)

/-- A write of one byte. -/
def Port.write (a : Nat) (v : Byte) (p : Port) : Port := { p with mem := p.mem.write a v }

/-- Every listed byte takes a drawn value. -/
def Port.scramble : List Nat → Port → Port
  | [], p => p
  | a :: rest, p => Port.scramble rest (p.draw.2.write a p.draw.1)

/-- The command is over: the bytes the host raced on hold any value (R92), and none is raced any more. -/
def Port.settle (p : Port) : Port := { p.scramble p.raced with raced := [] }

/-- The host writes a byte that is in flight (R92). -/
def Port.race (a : Nat) (p : Port) : Port :=
  { p with raced := if p.raced.contains a then p.raced else a :: p.raced }

/-- The addresses of `[a, a + n)`. -/
def rangeOf (a n : Nat) : List Nat := List.range' a n

/-- Two byte ranges are both nonempty and share a byte (R84, R229). -/
def rangesMeet (a n b m : Nat) : Bool :=
  decide (0 < n) && decide (0 < m) && decide (a < b + m) && decide (b < a + n)

/-! ### Registers and slots (R33, R34, R40) -/

/-- `ARG[i]` (R33). -/
def State.arg (s : State) (i : Fin 6) : Word := s.args[i.val]

/-- A host write of ARG[i] (R33). -/
def State.setArg (s : State) (i : Fin 6) (v : Word) : State := { s with args := s.args.set i.val v }

/-- `RES[i] <- v` (R34). -/
def State.setRes (s : State) (i : Fin 3) (v : Word) : State := { s with res := s.res.set i.val v }

/-- `SLOT[a]` (R40, R104). -/
def State.slot (s : State) (a : SlotNo) : Slot := s.slots[a.toNat]'a.isLt

/-- `SLOT[a] <- d` (R40). -/
def State.setSlot (s : State) (a : SlotNo) (d : Slot) : State := { s with slots := s.slots.set a.toNat d a.isLt }

/-- The slot a command names as an existing descriptor, or `ContractViolation` (R44, R268). -/
def State.validSlot (s : State) (a : SlotNo) : Except Err Slot :=
  if (s.slot a).valid then .ok (s.slot a) else .error .contractViolation

/-- The bytes `[a, a + n)` lie in buffer memory: `a + n <= 2^ADDR_BITS` (R81, R174). -/
def fitsMemory (a n : Nat) : Bool := decide (a + n ≤ Config.addrSpace)

/-! ### The allocator port (R84, R85) -/

/-- R84's law on an answer: the range lies in buffer memory and meets no owned buffer of a valid slot. -/
def State.answerLawful (s : State) (a : Word) (n : Nat) : Bool :=
  fitsMemory a.toNat n &&
    s.slots.toList.all (fun d =>
      !(d.valid && d.own == .ownedAllocation && rangesMeet a.toNat n d.data.toNat d.size))

/-- The allocator's next answer, before R84's law: the environment's, else a free one (log 4). -/
def State.nextAnswer (s : State) : Option Word × State :=
  match s.allocAnswers with
  | r :: rest => (r, { s with allocAnswers := rest })
  | [] => (Config.freeAnswer s.port.drawn, { s with port := { s.port with drawn := s.port.drawn + 1 } })

/-- `Alloc(n)` (R84). An answer outside R84's law is no answer of an allocator and counts as `none`
(log 4). A granted allocation is recorded (log 5). -/
def State.allocate (s : State) (n : Nat) : Option Word × State :=
  match s.nextAnswer.1 with
  | none => (none, s.nextAnswer.2)
  | some a =>
    if s.answerLawful a n then
      (some a, { s.nextAnswer.2 with allocLog := s.nextAnswer.2.allocLog ++ [.alloc a n] })
    else (none, s.nextAnswer.2)

/-- `Free(a)` (R85): no answer, no failure, the bytes keep their values. -/
def State.free (s : State) (a : Word) : State := { s with allocLog := s.allocLog ++ [.free a] }

/-- A fresh allocation's bytes hold unspecified values (R84, R299). -/
def State.fillFresh (s : State) (a : Word) (n : Nat) : State :=
  { s with port := s.port.scramble (rangeOf a.toNat n) }

/-! ### How a command ends (R142, R263) -/

/-- The completion update for error code `e` (R142). The opcode is `CMD[7:0]`. With it the bytes the host
raced on settle (R92). -/
def State.complete (s : State) (e : BitVec 4) : State :=
  { s with
    status := s.status.complete e (s.cmd.extractLsb' 0 8)
    port := s.port.settle }

/-- `raise E` (R263): the command ends with error `E` and changes nothing but by the completion update. -/
def State.raise (s : State) (e : Err) : State := s.complete e.code

/-- `finish` (R10): the command ends successfully. -/
def State.finish (s : State) : State := s.complete 0

/-- A command's end from what its checks and effects gave: an error leaves the state the command started
from (R144, R263). -/
def conclude (s : State) (r : Except Err State) : Host.Outcome State Fault Refusal :=
  match r with
  | .ok t => .next t.finish
  | .error e => .next (s.raise e)

end Sys2Proof.Machine
end

