-- ==== Sys2Proof/Machine/Control.lean ====
section
/-! DEFINITION. NOP (spec/40_command_cycle.md R145). -/
namespace Sys2Proof.Machine

/-- NOP: `finish` (R145). -/
def execNop (s : State) : Host.Outcome State Fault Refusal := conclude s (.ok s)

end Sys2Proof.Machine
end

