-- ==== Sys2Proof/Machine/Operands.lean ====
section
/-! DEFINITION. The operand words of the commands (spec/30_encoding.md R105 to R109) and the format word's
decoding (spec/41_validator.md R158), with the storage-unit default it applies (R153). -/
namespace Sys2Proof.Machine

/-- The code 0 or 1 of an order (R12). -/
def Order.ofBit (b : Bool) : Order := if b then .msbFirst else .lsbFirst

/-- The bit an order is written as (R12). -/
def Order.bit : Order → Bool
  | .lsbFirst => false
  | .msbFirst => true

/-- The 2-bit code of a family (R105). -/
def Family.code : Family → BitVec 2
  | .planar => 0
  | .packed => 1

/-- The storage unit used when the FMT word's UNIT is 0, in GEOM and CREATE (R153). -/
def defaultUnit (family : Family) (bpp : Nat) : Nat :=
  match family with
  | .planar => 32
  | .packed => if bpp = 1 then 32 else if bpp < 8 then 8 else bpp

/-- A nonzero reserved bit of an FMT word: bits 23:22 or 31:30 (R105, R112). -/
def fmtReserved (w : Word) : Bool := w.extractLsb' 22 2 != 0 || w.extractLsb' 30 2 != 0

/-- `DecodeFMT(w, applyDefault)` (R158). -/
def decodeFmt (w : Word) (applyDefault : Bool) : Except Err Format :=
  if fmtReserved w then .error .illegalCommand
  else if w.extractLsb' 14 2 ≥ 2 then .error .unsupportedFormat
  else
    let family : Family := if w.extractLsb' 14 2 = 0 then .planar else .packed
    let bpp := w.extractLsb' 8 6
    let unit := w.extractLsb' 16 6
    .ok { family := family
          depth := w.extractLsb' 0 6
          bpp := bpp
          unit := if applyDefault && unit == 0 then BitVec.ofNat 6 (defaultUnit family bpp.toNat) else unit
          pad := w.extractLsb' 24 6
          byteOrder := Order.ofBit (w.getLsbD 6)
          bitOrder := Order.ofBit (w.getLsbD 7) }

/-- `FMTof(d)`: the FMT word of a format, with its unit as stored (R105, R179). -/
def Format.word (f : Format) : Word :=
  (0 : BitVec 2) ++ f.pad ++ (0 : BitVec 2) ++ f.unit ++ f.family.code ++ f.bpp
    ++ BitVec.ofBool f.bitOrder.bit ++ BitVec.ofBool f.byteOrder.bit ++ f.depth

/-- WH[15:0], the width (R106). -/
def whWidth (w : Word) : BitVec 16 := w.extractLsb' 0 16

/-- WH[31:16], the height (R106). -/
def whHeight (w : Word) : BitVec 16 := w.extractLsb' 16 16

/-- MODE[1:0] (R107). -/
def modeCase (w : Word) : BufferMode :=
  match (w.extractLsb' 0 2).toNat with
  | 0 => .defer
  | 1 => .borrow
  | 2 => .storage
  | _ => .alloc

/-- MODE[2], OWN (R107). -/
def modeOwn (w : Word) : Bool := w.getLsbD 2

/-- The MODE word is legal: no reserved bit, OWN only with STORAGE (R107, R112). -/
def modeLegal (w : Word) : Bool :=
  w.extractLsb' 3 29 == 0 && (!modeOwn w || modeCase w == .storage)

/-- The unit class of a 2-bit class code; code 3 is illegal (R108). -/
def classOfCode (c : BitVec 2) : Option UnitClass :=
  match c.toNat with
  | 0 => some .c8
  | 1 => some .c16
  | 2 => some .c32
  | _ => none

/-- A nonzero reserved bit of a PERM word (R108). -/
def permReserved (w : Word) : Bool := w.extractLsb' 6 26 != 0

/-- A nonzero reserved bit of an XF word (R108). -/
def xfReserved (w : Word) : Bool := w.extractLsb' 10 22 != 0

/-- `OwnCode` (R179). -/
def Ownership.code : Ownership → Word
  | .unallocated => 0
  | .borrowedView => 1
  | .ownedAllocation => 2

/-- The low and the high word of an exact size, as GEOM and QUERY read it back (R156, R160, R179). -/
def sizeLow (n : Nat) : Word := BitVec.ofNat 32 n
/-- See `sizeLow`. -/
def sizeHigh (n : Nat) : Word := BitVec.ofNat 32 (n / 2 ^ 32)

end Sys2Proof.Machine
end

