-- ==== Sys2Proof/Machine/Permutation.lean ====
section
/-! DEFINITION. The permutation tables, the byte transforms, the bulk copy (spec/44_permutation.md), and the
commands PERMLOOKUP and BYTEXFORM. -/
namespace Sys2Proof.Machine

/-- `F(c) = c/8 - 1` (R201). -/
def UnitClass.flip : UnitClass → Nat
  | .c8 => 0
  | .c16 => 1
  | .c32 => 3

/-- The class of a storage unit. R201 applies it to units 8, 16 and 32 only; any other unit has no class
and is never asked for (log 16). -/
def classOfUnit (unit : Nat) : UnitClass :=
  if unit = 32 then .c32 else if unit = 16 then .c16 else .c8

/-- `EC(d) = (d.byteOrder == MSBFirst) ? d.unit : 8` (R201). -/
def Format.effectiveClass (f : Format) : UnitClass :=
  match f.byteOrder with
  | .msbFirst => classOfUnit f.unit.toNat
  | .lsbFirst => .c8

/-- The XOR mask `m(a, b) = F(a) XOR F(b)` of a table (R202). -/
def permMask (a b : UnitClass) : Nat := a.flip ^^^ b.flip

/-- `PERM[a][b](i)` (R202). -/
def perm (a b : UnitClass) (i : Nat) : Nat := i ^^^ permMask a b

/-- `bitrev8` (R205): bit `i` of the result is bit `7 - i` of the byte. -/
def bitrev8 (b : Byte) : Byte := b.reverse

/-- `nibswap(b) = {b[3:0], b[7:4]}` (R206). -/
def nibswap (b : Byte) : Byte := b.extractLsb' 0 4 ++ b.extractLsb' 4 4

/-- The byte transform of a bulk copy (R207). -/
def xf (b : Byte) (bs ns : Bool) : Byte :=
  let t := if bs then bitrev8 b else b
  if ns then nibswap t else t

/-- One byte of a bulk copy: source byte `i` of scanline `r` (R208). A dropped byte is not read. -/
def bulkByte (S D : Slot) (k : Strategy) (r i : Nat) (p : Port) : Port :=
  let d := i ^^^ k.mask
  if d < D.stride then
    let b := p.read (S.data.toNat + r * S.stride + i)
    b.2.write (D.data.toNat + r * D.stride + d) (xf b.1 k.bitswap k.nibswap)
  else p

/-- One scanline of a bulk copy (R208). -/
def bulkRow (S D : Slot) (k : Strategy) (r : Nat) (p : Port) : Port :=
  (List.range S.stride).foldl (fun p i => bulkByte S D k r i p) p

/-- `BulkCopy(S, D, R, m, bs, ns)` (R208). -/
def bulkCopy (S D : Slot) (rows : Nat) (k : Strategy) (p : Port) : Port :=
  (List.range rows).foldl (fun p r => bulkRow S D k r p) p

/-- PERMLOOKUP's checks and effect (R212). -/
def permlookupEffect (s : State) : Except Err State :=
  let w := s.arg 0
  if permReserved w then .error .illegalCommand
  else
    match classOfCode (w.extractLsb' 0 2), classOfCode (w.extractLsb' 2 2) with
    | some a, some b => .ok (s.setRes 0 (BitVec.ofNat 32 (perm a b (w.extractLsb' 4 2).toNat)))
    | _, _ => .error .illegalCommand

/-- PERMLOOKUP (R212). -/
def execPermlookup (s : State) : Host.Outcome State Fault Refusal := conclude s (permlookupEffect s)

/-- BYTEXFORM's check and effect (R213). -/
def bytexformEffect (s : State) : Except Err State :=
  let w := s.arg 0
  if xfReserved w then .error .illegalCommand
  else .ok (s.setRes 0 ((xf (w.extractLsb' 0 8) (w.getLsbD 8) (w.getLsbD 9)).setWidth 32))

/-- BYTEXFORM (R213). -/
def execBytexform (s : State) : Host.Outcome State Fault Refusal := conclude s (bytexformEffect s)

end Sys2Proof.Machine
end

