-- ==== Sys2Proof/Machine/Validator.lean ====
section
/-! DEFINITION. The format validator and the scanline-stride reindexer (spec/41_validator.md): `Validate`,
`Annotate`, and the commands VALIDATE and GEOM. -/
namespace Sys2Proof.Machine

/-- One of the three unit and pad sizes (R150). -/
def isUnitSize (n : Nat) : Bool := n == 8 || n == 16 || n == 32

/-- `Validate(depth, bpp, unit, family, pad)` (R150). -/
def validate (depth bpp unit : Nat) (family : Family) (pad : Nat) : Bool :=
  decide (depth ≤ bpp) && decide (bpp ≤ unit) && isUnitSize pad &&
    match family with
    | .planar => isUnitSize unit && decide (bpp ≤ pad)
    | .packed =>
      (bpp == 4 && unit == 8) || ((bpp == 8 || bpp == 16 || bpp == 24 || bpp == 32) && unit == bpp)

/-- `Validate` on a format tuple (R150). -/
def Format.valid (f : Format) : Bool :=
  validate f.depth.toNat f.bpp.toNat f.unit.toNat f.family f.pad.toNat

/-- `roundUp(v, p)` (R154). -/
def roundUp (v p : Nat) : Nat := (v + p - 1) / p * p

/-- `Annotate` from a format and a geometry (R155), exact. -/
def annotate (f : Format) (width height : Nat) : Annotation :=
  match f.family with
  | .planar =>
    let stride := roundUp width f.pad.toNat / 8
    { stride := stride
      size := height * stride * f.depth.toNat
      planeMask := BitVec.ofNat 32 (2 ^ f.depth.toNat - 1) }
  | .packed =>
    let stride := roundUp (width * f.bpp.toNat) f.pad.toNat / 8
    { stride := stride
      size := height * stride
      planeMask := 0 }

/-- `(d.stride, d.size, d.planeMask) = Annotate(d)` (R155, R172, R176). -/
def Slot.annotated (d : Slot) : Slot :=
  let n := annotate d.fmt d.width.toNat d.height.toNat
  { d with stride := n.stride, size := n.size, planeMask := n.planeMask }

/-- VALIDATE's checks and effect: no default, a rejected tuple is a success with RES0 = 0 (R159). -/
def validateEffect (s : State) : Except Err State :=
  match decodeFmt (s.arg 0) false with
  | .error e => .error e
  | .ok f => .ok (s.setRes 0 (if f.valid then 1 else 0))

/-- VALIDATE (R159). -/
def execValidate (s : State) : Host.Outcome State Fault Refusal := conclude s (validateEffect s)

/-- The format GEOM and CREATE work on: decoded with the unit default (R158). -/
def State.fmtArg (s : State) : Except Err Format := decodeFmt (s.arg 0) true

/-- GEOM's checks and effect (R160). -/
def geomEffect (s : State) : Except Err State :=
  match s.fmtArg with
  | .error e => .error e
  | .ok f =>
    if f.valid then
      let n := annotate f (whWidth (s.arg 1)).toNat (whHeight (s.arg 1)).toNat
      .ok (((s.setRes 0 (BitVec.ofNat 32 n.stride)).setRes 1 (sizeLow n.size)).setRes 2 (sizeHigh n.size))
    else .error .invalidFormat

/-- GEOM (R160). -/
def execGeom (s : State) : Host.Outcome State Fault Refusal := conclude s (geomEffect s)

end Sys2Proof.Machine
end

