-- ==== Sys2Proof/Machine/PixelAccessor.lean ====
section
/-! DEFINITION. The pixel accessor (spec/43_pixel_accessor.md): one addressing computation `locate`, the two
directions `extract` and `deposit` over it, and the commands GETPIXEL, PUTPIXEL and PIXADDR. -/
namespace Sys2Proof.Machine

/-! ### Addressing (R185 to R190, R193) -/

/-- `PlanarOffset(d, k, x, y)` (R187). -/
def planarOffset (d : Slot) (k x y : Nat) : Nat :=
  k * d.stride * d.height.toNat + y * d.stride + ((x >>> 3) ^^^ d.fmt.effectiveClass.flip)

/-- `BitPos(d, x)` (R188). -/
def bitPos (d : Slot) (x : Nat) : Nat :=
  match d.fmt.bitOrder with
  | .msbFirst => 7 - (x &&& 7)
  | .lsbFirst => x &&& 7

/-- `PlaneBit(d, k)` (R188). -/
def planeBit (d : Slot) (k : Nat) : Nat :=
  match d.fmt.bitOrder with
  | .msbFirst => d.fmt.depth.toNat - 1 - k
  | .lsbFirst => k

/-- `LocatePlanar(d, x, y)` (R190): one piece for each plane the mask keeps. -/
def locatePlanar (d : Slot) (x y : Nat) : List Piece :=
  ((List.range d.fmt.depth.toNat).filter (fun k => d.planeMask.getLsbD (planeBit d k))).map
    (fun k => ⟨planarOffset d k x y, bitPos d x, 1, planeBit d k⟩)

/-- The nibble of a 4-bit pixel is the high one: `((x AND 1) == 0) == (byteOrder == MSBFirst)` (R193). -/
def nibbleHigh (d : Slot) (x : Nat) : Bool := (x &&& 1 == 0) == (d.fmt.byteOrder == .msbFirst)

/-- `e(i)`: the pixel bit byte `i` of an `n`-byte pixel starts at (R193). -/
def packedBit (d : Slot) (n i : Nat) : Nat :=
  match d.fmt.byteOrder with
  | .lsbFirst => 8 * i
  | .msbFirst => 8 * (n - 1 - i)

/-- `LocatePacked(d, x, y)` (R193). -/
def locatePacked (d : Slot) (x y : Nat) : List Piece :=
  let r := y * d.stride
  if d.fmt.bpp = 4 then [⟨r + (x >>> 1), if nibbleHigh d x then 4 else 0, 4, 0⟩]
  else
    let n := d.fmt.bpp.toNat / 8
    (List.range n).map (fun i => ⟨r + n * x + i, 0, 8, packedBit d n i⟩)

/-- `Locate(d, x, y)` (R185). -/
def locate (d : Slot) (x y : Nat) : List Piece :=
  match d.fmt.family with
  | .planar => locatePlanar d x y
  | .packed => locatePacked d x y

/-- In bounds: `x < d.width and y < d.height` (R186). -/
def inBounds (d : Slot) (x y : Nat) : Bool := decide (x < d.width.toNat) && decide (y < d.height.toNat)

/-- Every piece of a pixel lies inside the slot's buffer (R189). -/
def piecesInside (d : Slot) (x y : Nat) : Bool := (locate d x y).all (fun q => decide (q.off < d.size))

/-! ### The two directions (R191, R192) -/

/-- The low `n` bits, `n <= 8`, as a byte. -/
def lowMask (n : Nat) : Byte := BitVec.ofNat 8 (2 ^ n - 1)

/-- `Extract` over the pieces of a pixel of a buffer at `data` (R191). -/
def extractPieces (data : Nat) : List Piece → Port → Word × Port
  | [], p => (0, p)
  | q :: rest, p =>
    let b := p.read (data + q.off)
    let v := extractPieces data rest b.2
    (((b.1 >>> q.shift) &&& lowMask q.width).setWidth 32 <<< q.bit ||| v.1, v.2)

/-- `Extract(d, x, y)` (R191). -/
def extract (d : Slot) (x y : Nat) (p : Port) : Word × Port := extractPieces d.data.toNat (locate d x y) p

/-- One piece of a deposit: a whole byte is written unread, a part of one is a read-modify-write (R192). -/
def depositPiece (data : Nat) (v : Word) (q : Piece) (p : Port) : Port :=
  let field := (v >>> q.bit).setWidth 8 &&& lowMask q.width
  if q.width = 8 then p.write (data + q.off) field
  else
    let old := p.read (data + q.off)
    let mask := lowMask q.width <<< q.shift
    old.2.write (data + q.off) ((old.1 &&& ~~~mask) ||| (field <<< q.shift))

/-- `Deposit(d, x, y, v)` (R192). -/
def deposit (d : Slot) (x y : Nat) (v : Word) (p : Port) : Port :=
  (locate d x y).foldl (fun p q => depositPiece d.data.toNat v q p) p

/-! ### GETPIXEL and PUTPIXEL (R195, R196) -/

/-- The checks GETPIXEL and PUTPIXEL share, in R266's order: slot valid, bounds, buffer allocated and every
piece inside it. The answer is the slot. -/
def pixelTarget (sa : SlotNo) (s : State) : Except Err Slot :=
  match s.validSlot sa with
  | .error e => .error e
  | .ok d =>
    if inBounds d (s.arg 0).toNat (s.arg 1).toNat then
      if d.own ≠ .unallocated ∧ piecesInside d (s.arg 0).toNat (s.arg 1).toNat = true then .ok d
      else .error .contractViolation
    else .error .contractViolation

/-- The buffer-memory addresses of a pixel's bytes (R189, R192). -/
def pixelBytes (d : Slot) (x y : Nat) : List Nat := (locate d x y).map (fun q => d.data.toNat + q.off)

/-- Every byte of the pixel exists (R70, R81): no state that meets the slot invariant fails it (log 12). -/
def pixelExists (d : Slot) (x y : Nat) : Bool := (pixelBytes d x y).all (fun a => decide (a < Config.addrSpace))

/-- GETPIXEL (R195). -/
def execGetpixel (sa : SlotNo) (s : State) : Host.Outcome State Fault Refusal :=
  match pixelTarget sa s with
  | .error e => .next (s.raise e)
  | .ok d =>
    let x := (s.arg 0).toNat
    let y := (s.arg 1).toNat
    if pixelExists d x y then
      let v := extract d x y s.port
      .next (({ s with port := v.2 } : State).setRes 0 v.1).finish
    else .fault .outsideBufferMemory

/-- PUTPIXEL (R196). -/
def execPutpixel (sa : SlotNo) (s : State) : Host.Outcome State Fault Refusal :=
  match pixelTarget sa s with
  | .error e => .next (s.raise e)
  | .ok d =>
    let x := (s.arg 0).toNat
    let y := (s.arg 1).toNat
    if pixelExists d x y then
      .next ({ s with port := deposit d x y (s.arg 2) s.port } : State).finish
    else .fault .outsideBufferMemory

/-! ### PIXADDR (R197) -/

/-- The piece of least offset (R197). A Packed pixel of a valid slot has one (log 16). -/
def leastPiece : List Piece → Piece
  | [] => ⟨0, 0, 0, 0⟩
  | [q] => q
  | q :: rest => if q.off ≤ (leastPiece rest).off then q else leastPiece rest

/-- `{count[15:8], shift[7:0]}` (R197). -/
def countShift (count shift : Nat) : Word := BitVec.ofNat 32 (count * 256 + shift)

/-- The three result words of PIXADDR, or `ContractViolation` for a plane the slot has not (R197). -/
def pixaddrWords (d : Slot) (x y k : Nat) : Except Err (Word × Word × Word) :=
  match d.fmt.family with
  | .planar =>
    if k < d.fmt.depth.toNat then
      .ok (BitVec.ofNat 32 (planarOffset d k x y), countShift 1 (bitPos d x), BitVec.ofNat 32 (planeBit d k))
    else .error .contractViolation
  | .packed =>
    let q := leastPiece (locatePacked d x y)
    .ok (BitVec.ofNat 32 q.off,
      countShift (if d.fmt.bpp = 4 then 1 else d.fmt.bpp.toNat / 8) q.shift, 0)

/-- PIXADDR's checks and effect (R197). -/
def pixaddrEffect (sa : SlotNo) (s : State) : Except Err State :=
  match s.validSlot sa with
  | .error e => .error e
  | .ok d =>
    if inBounds d (s.arg 0).toNat (s.arg 1).toNat then
      match pixaddrWords d (s.arg 0).toNat (s.arg 1).toNat (s.arg 2).toNat with
      | .error e => .error e
      | .ok (r0, r1, r2) => .ok (((s.setRes 0 r0).setRes 1 r1).setRes 2 r2)
    else .error .contractViolation

/-- PIXADDR (R197). -/
def execPixaddr (sa : SlotNo) (s : State) : Host.Outcome State Fault Refusal :=
  conclude s (pixaddrEffect sa s)

end Sys2Proof.Machine
end

