-- ==== Sys2Proof/Machine/Conversion.lean ====
section
/-! DEFINITION. Layout conversion (spec/45_conversion.md): strategy selection, the four strategies, and the
command CONVERT. -/
namespace Sys2Proof.Machine

/-! ### Layout predicates and strategy selection (R228 to R231) -/

/-- `SameLayout(S, D)` (R228): depth is not compared. -/
def sameLayout (S D : Slot) : Bool :=
  S.fmt.family == D.fmt.family && S.fmt.bpp == D.fmt.bpp && S.fmt.unit == D.fmt.unit &&
    S.fmt.pad == D.fmt.pad && S.fmt.byteOrder == D.fmt.byteOrder && S.fmt.bitOrder == D.fmt.bitOrder

/-- `Bitmap(S, D)` (R228). -/
def bothBitmaps (S D : Slot) : Bool :=
  S.fmt.family == .planar && D.fmt.family == .planar && S.fmt.depth == 1 && D.fmt.depth == 1

/-- `OrderOnly(S, D)` (R228). -/
def orderOnly (S D : Slot) : Bool :=
  S.fmt.family == D.fmt.family && S.fmt.bpp == D.fmt.bpp && S.fmt.unit == D.fmt.unit &&
    S.fmt.pad == D.fmt.pad &&
    !(S.fmt.family == .packed && S.fmt.bpp == 24 && S.fmt.byteOrder != D.fmt.byteOrder)

/-- `Rows(d)` (R228). -/
def rowsOf (d : Slot) : Nat :=
  match d.fmt.family with
  | .planar => d.height.toNat * d.fmt.depth.toNat
  | .packed => d.height.toNat

/-- The bulk-copy mask of a pair by effective classes (R230). -/
def pairMask (S D : Slot) : Nat := permMask S.fmt.effectiveClass D.fmt.effectiveClass

/-- `Select(S, D)` (R230): the first case that applies. -/
def select (S D : Slot) : Strategy :=
  if sameLayout S D then ⟨1, 0, false, false⟩
  else if bothBitmaps S D then ⟨2, pairMask S D, S.fmt.bitOrder != D.fmt.bitOrder, false⟩
  else if orderOnly S D then
    ⟨3, if S.fmt.family == .packed && S.fmt.bpp == 24 then 0 else pairMask S D,
      S.fmt.family == .planar && S.fmt.bitOrder != D.fmt.bitOrder,
      S.fmt.family == .packed && S.fmt.bpp == 4 && S.fmt.byteOrder != D.fmt.byteOrder⟩
  else ⟨4, 0, false, false⟩

/-- RES1 of CONVERT: `{NIBSWAP[9], BITSWAP[8], M[1:0]}` (R225, R231). -/
def Strategy.word (k : Strategy) : Word :=
  BitVec.ofNat 32 ((if k.nibswap then 512 else 0) + (if k.bitswap then 256 else 0) + k.mask)

/-! ### The strategies (R232 to R236) -/

/-- `MemWrite(dst, 1, MemRead(src, 1))` (R232). -/
def copyByte (src dst : Nat) (p : Port) : Port :=
  let b := p.read src
  b.2.write dst b.1

/-- `WholeCopy(S, D)` (R232). -/
def wholeCopy (S D : Slot) (p : Port) : Port :=
  (List.range S.size).foldl (fun p i => copyByte (S.data.toNat + i) (D.data.toNat + i) p) p

/-- One pixel of the fallback: `Deposit(D, x, y, Extract(S, x, y))` (R236). -/
def fallbackPixel (S D : Slot) (x y : Nat) (p : Port) : Port :=
  let v := extract S x y p
  deposit D x y v.1 v.2

/-- One scanline of the fallback (R236). -/
def fallbackRow (S D : Slot) (y : Nat) (p : Port) : Port :=
  (List.range S.width.toNat).foldl (fun p x => fallbackPixel S D x y p) p

/-- `Fallback(S, D)`: y outer, x inner (R236). -/
def fallback (S D : Slot) (p : Port) : Port :=
  (List.range S.height.toNat).foldl (fun p y => fallbackRow S D y p) p

/-- `FallbackCheck(S, D)`: every piece of every pixel lies inside both buffers (R236). -/
def fallbackInside (S D : Slot) : Bool :=
  (List.range S.height.toNat).all (fun y =>
    (List.range S.width.toNat).all (fun x => piecesInside S x y && piecesInside D x y))

/-- The strategy a `Select` number names, run on the port (R225). -/
def runStrategy (S D : Slot) (k : Strategy) (p : Port) : Port :=
  match k.number with
  | 1 => wholeCopy S D p
  | 2 => bulkCopy S D (rowsOf S) k p
  | 3 => bulkCopy S D (rowsOf S) k p
  | _ => fallback S D p

/-! ### The command (R225 to R227, R229) -/

/-- `CheckSlots` of one slot: valid and allocated (R226). -/
def State.allocatedSlot (s : State) (a : SlotNo) : Except Err Slot :=
  match s.validSlot a with
  | .error e => .error e
  | .ok d => if d.own = .unallocated then .error .contractViolation else .ok d

/-- "src.depth == dst.depth && src.width == dst.width && src.height == dst.height" (R227). -/
def sameGeometry (S D : Slot) : Bool :=
  S.fmt.depth == D.fmt.depth && S.width == D.width && S.height == D.height

/-- `Overlap(S, D)` (R229). -/
def buffersOverlap (S D : Slot) : Bool := rangesMeet S.data.toNat S.size D.data.toNat D.size

/-- Every check of CONVERT, in R266's order; the answer is the source, the destination and the strategy. -/
def convertPlan (sa sb : SlotNo) (s : State) : Except Err (Slot × Slot × Strategy) :=
  match s.allocatedSlot sb, s.allocatedSlot sa with
  | .error e, _ => .error e
  | .ok _, .error e => .error e
  | .ok S, .ok D =>
    if sameGeometry S D then
      if buffersOverlap S D then .error .contractViolation
      else if (select S D).number = 4 ∧ fallbackInside S D = false then .error .contractViolation
      else .ok (S, D, select S D)
    else .error .incompatibleGeometry

/-- How many bytes of a buffer the strategy spans: `R * stride` for a bulk copy, `size` else (R208, R232,
R236). For a slot that meets the invariant both are its `size` (R209). -/
def strategySpan (k : Strategy) (rows stride size : Nat) : Nat :=
  if k.number = 2 ∨ k.number = 3 then rows * stride else size

/-- Every byte the strategy may access exists (R70, R81): no state that meets the slot invariant fails it
(log 12). -/
def convertExists (S D : Slot) (k : Strategy) : Bool :=
  fitsMemory S.data.toNat (strategySpan k (rowsOf S) S.stride S.size) &&
    fitsMemory D.data.toNat (strategySpan k (rowsOf S) D.stride (if k.number = 1 then S.size else D.size))

/-- CONVERT (R225). -/
def execConvert (sa sb : SlotNo) (s : State) : Host.Outcome State Fault Refusal :=
  match convertPlan sa sb s with
  | .error e => .next (s.raise e)
  | .ok (S, D, k) =>
    if convertExists S D k then
      .next ((({ s with port := runStrategy S D k s.port } : State).setRes 0 (BitVec.ofNat 32 k.number)).setRes 1
        k.word).finish
    else .fault .outsideBufferMemory

end Sys2Proof.Machine
end

