-- ==== Sys2Proof/Machine/Descriptor.lean ====
section
/-! DEFINITION. The descriptor lifecycle (spec/42_descriptor.md): CREATE, ANNOTATE, DESTROY, SETMASK, QUERY. -/
namespace Sys2Proof.Machine

/-! ### CREATE (R171 to R175) -/

/-- The annotated descriptor CREATE builds before it resolves the buffer (R171, R172). -/
def newDescriptor (f : Format) (wh : Word) : Slot :=
  Slot.annotated
    { valid := true
      width := whWidth wh
      height := whHeight wh
      fmt := f
      planeMask := 0
      stride := 0
      size := 0
      own := .unallocated
      data := 0
      base := 0 }

/-- The too-small checks of BORROW and STORAGE: the declared size, then the top of memory (R174). -/
def bufferFits (declared addr size : Nat) : Bool := decide (size ≤ declared) && fitsMemory addr size

/-- STORAGE's declared size: BYTES, or the computed size where BYTES is 0 (R174). BORROW has no such default. -/
def storageDeclared (bytesArg : Word) (size : Nat) : Nat := if bytesArg = 0 then size else bytesArg.toNat

/-- `ResolveBuffer(d, mode, own)` up to the allocator (R174). -/
def resolveBuffer (d : Slot) (mode : BufferMode) (own : Bool) (dataArg baseArg bytesArg : Word) :
    Except Err CreatePlan :=
  match mode with
  | .defer => .ok (.ready { d with own := .unallocated, data := 0, base := 0 })
  | .borrow =>
    if bufferFits bytesArg.toNat dataArg.toNat d.size then
      .ok (.ready { d with own := .borrowedView, data := dataArg, base := 0 })
    else .error .bufferTooSmall
  | .storage =>
    if bufferFits (storageDeclared bytesArg d.size) baseArg.toNat d.size then
      if own then .ok (.ready { d with own := .ownedAllocation, data := baseArg, base := baseArg })
      else .ok (.ready { d with own := .borrowedView, data := baseArg, base := 0 })
    else .error .bufferTooSmall
  | .alloc => .ok (.allocate d)

/-- Every check of CREATE but the allocator's, in R266's order: MODE, FMT, FAMILY, slot, `Validate`,
buffer size and range (R171). -/
def createPlan (sa : SlotNo) (s : State) : Except Err CreatePlan :=
  if modeLegal (s.arg 2) then
    match s.fmtArg with
    | .error e => .error e
    | .ok f =>
      if (s.slot sa).valid then .error .contractViolation
      else if f.valid then
        resolveBuffer (newDescriptor f (s.arg 1)) (modeCase (s.arg 2)) (modeOwn (s.arg 2))
          (s.arg 3) (s.arg 4) (s.arg 5)
      else .error .invalidFormat
  else .error .illegalCommand

/-- CREATE in ALLOC mode once every other check has passed: `Alloc` is the last check (R174). -/
def createAllocating (sa : SlotNo) (d : Slot) (s : State) : State :=
  match s.allocate d.size with
  | (none, t) => t.raise .allocationFailure
  | (some a, t) =>
    ((t.fillFresh a d.size).setSlot sa { d with own := .ownedAllocation, data := a, base := a }).finish

/-- CREATE (R171). -/
def execCreate (sa : SlotNo) (s : State) : Host.Outcome State Fault Refusal :=
  match createPlan sa s with
  | .error e => .next (s.raise e)
  | .ok (.ready d) => .next (s.setSlot sa d).finish
  | .ok (.allocate d) => .next (createAllocating sa d s)

/-! ### ANNOTATE, DESTROY, SETMASK, QUERY (R176 to R179) -/

/-- ANNOTATE's check and effect (R176). -/
def annotateEffect (sa : SlotNo) (s : State) : Except Err State :=
  match s.validSlot sa with
  | .error e => .error e
  | .ok d => .ok (s.setSlot sa d.annotated)

/-- ANNOTATE (R176). -/
def execAnnotate (sa : SlotNo) (s : State) : Host.Outcome State Fault Refusal :=
  conclude s (annotateEffect sa s)

/-- The allocator request of DESTROY: `Free(base)` for an owned buffer, none else (R177). -/
def State.release (s : State) (d : Slot) : State :=
  match d.own with
  | .ownedAllocation => s.free d.base
  | .borrowedView => s
  | .unallocated => s

/-- DESTROY's check and effect (R177). -/
def destroyEffect (sa : SlotNo) (s : State) : Except Err State :=
  match s.validSlot sa with
  | .error e => .error e
  | .ok d => .ok ((s.release d).setSlot sa { d with valid := false })

/-- DESTROY (R177). -/
def execDestroy (sa : SlotNo) (s : State) : Host.Outcome State Fault Refusal :=
  conclude s (destroyEffect sa s)

/-- The plane mask SETMASK gives: the mask's bits below `depth` for Planar, no change for Packed (R178). -/
def Slot.withMask (d : Slot) (mask : Word) : Slot :=
  match d.fmt.family with
  | .planar => { d with planeMask := mask &&& BitVec.ofNat 32 (2 ^ d.fmt.depth.toNat - 1) }
  | .packed => d

/-- SETMASK's check and effect (R178). -/
def setmaskEffect (sa : SlotNo) (s : State) : Except Err State :=
  match s.validSlot sa with
  | .error e => .error e
  | .ok d => .ok (s.setSlot sa (d.withMask (s.arg 0)))

/-- SETMASK (R178). -/
def execSetmask (sa : SlotNo) (s : State) : Host.Outcome State Fault Refusal :=
  conclude s (setmaskEffect sa s)

/-- The three result words of QUERY for a selector; none above 3 (R179). -/
def queryWords (d : Slot) (sel : Word) : Option (Word × Word × Word) :=
  match sel.toNat with
  | 0 => some (BitVec.ofNat 32 d.stride, sizeLow d.size, sizeHigh d.size)
  | 1 => some (d.planeMask, d.own.code, 0)
  | 2 => some (d.data, d.base, 0)
  | 3 => some (d.fmt.word, d.height ++ d.width, 0)
  | _ => none

/-- QUERY's checks and effect: SEL before the slot (R179, R266). -/
def queryEffect (sa : SlotNo) (s : State) : Except Err State :=
  match queryWords (s.slot sa) (s.arg 0) with
  | none => .error .illegalCommand
  | some (r0, r1, r2) =>
    match s.validSlot sa with
    | .error e => .error e
    | .ok _ => .ok (((s.setRes 0 r0).setRes 1 r1).setRes 2 r2)

/-- QUERY (R179). -/
def execQuery (sa : SlotNo) (s : State) : Host.Outcome State Fault Refusal :=
  conclude s (queryEffect sa s)

end Sys2Proof.Machine
end

