-- ==== Sys2Proof/Machine/Dispatch.lean ====
section
/-! DEFINITION. The execution step of every command (spec/40_command_cycle.md R141), one arm each. -/
namespace Sys2Proof.Machine

def exec (i : Instr) (s : State) : Host.Outcome State Fault Refusal :=
  match i with
  | .nop => Sys2Proof.Machine.execNop s
  | .validate => Sys2Proof.Machine.execValidate s
  | .geom => Sys2Proof.Machine.execGeom s
  | .create sa => Sys2Proof.Machine.execCreate sa s
  | .annotate sa => Sys2Proof.Machine.execAnnotate sa s
  | .destroy sa => Sys2Proof.Machine.execDestroy sa s
  | .setmask sa => Sys2Proof.Machine.execSetmask sa s
  | .query sa => Sys2Proof.Machine.execQuery sa s
  | .getpixel sa => Sys2Proof.Machine.execGetpixel sa s
  | .putpixel sa => Sys2Proof.Machine.execPutpixel sa s
  | .pixaddr sa => Sys2Proof.Machine.execPixaddr sa s
  | .permlookup => Sys2Proof.Machine.execPermlookup s
  | .bytexform => Sys2Proof.Machine.execBytexform s
  | .convert sa sb => Sys2Proof.Machine.execConvert sa sb s

end Sys2Proof.Machine
end

