-- ==== Sys2Proof/WellFormed.lean ====
section
/-! DEFINITION. When a command word is well formed (spec/30_encoding.md R103), written from the rule's
own words over the number of the word, apart from the decoder: `decode` is held against it. Every
`Instr` is well formed as a term, because every 4-bit slot number names a slot (R104). -/
namespace Sys2Proof

/-- The opcodes of R111 whose row uses SA. -/
def opUsesSA (op : Nat) : Bool := (3 ≤ op && op ≤ 10) || op == 13

/-- The opcodes of R111 whose row uses SB: CONVERT alone. -/
def opUsesSB (op : Nat) : Bool := op == 13

/-- R103: "A command word is well formed iff OP is one of the fourteen opcodes of rule R111, bits 31:16
are 0, SA is 0 unless the opcode's row uses SA, and SB is 0 unless the opcode's row uses SB". -/
def wellFormedWord (w : Word) : Bool :=
  let op := w.toNat % 256
  let sa := w.toNat / 256 % 16
  let sb := w.toNat / 4096 % 16
  op < 14 && w.toNat / 65536 == 0 && (sa == 0 || opUsesSA op) && (sb == 0 || opUsesSB op)

end Sys2Proof
end

