-- ==== Sys2Proof/Decode.lean ====
section
/-! DEFINITION. Decoding and encoding of the 32-bit command word (spec/30_encoding.md R102, R103, R111).
The decoder is total and rejects by name; a rejected word is an illegal command (R112). -/
namespace Sys2Proof

/-- Why a command word is not well formed (R103, R112). -/
inductive Reject where
  /-- A nonzero bit in CMD[31:16]. -/
  | reservedBits
  /-- An OP in 0x0E to 0xFF. -/
  | unknownOpcode
  /-- A nonzero SA where the opcode's row does not use SA. -/
  | unusedSlotA
  /-- A nonzero SB where the opcode's row does not use SB. -/
  | unusedSlotB
deriving DecidableEq, Repr

/-- OP, bits 7:0 of a command word (R102). -/
def wordOp (w : Word) : BitVec 8 := w.extractLsb' 0 8

/-- SA, bits 11:8 (R102). -/
def wordSA (w : Word) : SlotNo := w.extractLsb' 8 4

/-- SB, bits 15:12 (R102). -/
def wordSB (w : Word) : SlotNo := w.extractLsb' 12 4

/-- The reserved bits 31:16 (R102). -/
def wordReserved (w : Word) : BitVec 16 := w.extractLsb' 16 16

/-- A row of R111 that uses neither slot field: the word is exactly OP. -/
def decodePlain (w : Word) (i : Instr) : Except Reject Instr :=
  if wordSA w ≠ 0 then .error .unusedSlotA
  else if wordSB w ≠ 0 then .error .unusedSlotB
  else .ok i

/-- A row of R111 that uses SA only. -/
def decodeSA (w : Word) (mk : SlotNo → Instr) : Except Reject Instr :=
  if wordSB w ≠ 0 then .error .unusedSlotB else .ok (mk (wordSA w))

/-- The command a word stands for, or why it is not well formed (R103, R111). -/
def decode (w : Word) : Except Reject Instr :=
  if wordReserved w ≠ 0 then .error .reservedBits
  else match (wordOp w).toNat with
    | 0 => decodePlain w .nop
    | 1 => decodePlain w .validate
    | 2 => decodePlain w .geom
    | 3 => decodeSA w .create
    | 4 => decodeSA w .annotate
    | 5 => decodeSA w .destroy
    | 6 => decodeSA w .setmask
    | 7 => decodeSA w .query
    | 8 => decodeSA w .getpixel
    | 9 => decodeSA w .putpixel
    | 10 => decodeSA w .pixaddr
    | 11 => decodePlain w .permlookup
    | 12 => decodePlain w .bytexform
    | 13 => .ok (.convert (wordSA w) (wordSB w))
    | _ => .error .unknownOpcode

/-- The opcode of a command (R111). -/
def Instr.opcode : Instr → BitVec 8
  | .nop => 0x00
  | .validate => 0x01
  | .geom => 0x02
  | .create _ => 0x03
  | .annotate _ => 0x04
  | .destroy _ => 0x05
  | .setmask _ => 0x06
  | .query _ => 0x07
  | .getpixel _ => 0x08
  | .putpixel _ => 0x09
  | .pixaddr _ => 0x0A
  | .permlookup => 0x0B
  | .bytexform => 0x0C
  | .convert _ _ => 0x0D

/-- The field SA of a command's word: 0 where the row does not use it (R103). -/
def Instr.slotA : Instr → SlotNo
  | .create sa | .annotate sa | .destroy sa | .setmask sa | .query sa => sa
  | .getpixel sa | .putpixel sa | .pixaddr sa => sa
  | .convert sa _ => sa
  | .nop | .validate | .geom | .permlookup | .bytexform => 0

/-- The field SB of a command's word: 0 where the row does not use it (R103). -/
def Instr.slotB : Instr → SlotNo
  | .convert _ sb => sb
  | .create _ | .annotate _ | .destroy _ | .setmask _ | .query _ => 0
  | .getpixel _ | .putpixel _ | .pixaddr _ => 0
  | .nop | .validate | .geom | .permlookup | .bytexform => 0

/-- The command word of a command: bits 31:16 zero, SB, SA, OP (R102, R115). -/
def encode (i : Instr) : Word := (0 : BitVec 16) ++ i.slotB ++ i.slotA ++ i.opcode

/-- What the decoder reads from a word whose bits are `w` (spec/opcode_table.json's numbering; every
row is one 32-bit word, and the register is a number with no byte order of its own, R74). -/
def decodeTableWord (nbits w : Nat) : Option Instr :=
  match decode (BitVec.ofNat 32 (w % 2 ^ nbits)) with
  | .ok i => some i
  | .error _ => none

end Sys2Proof
end

