-- ==== Sys2Proof/Machine/HostInterface.lean ====
section
/-! DEFINITION. What the outside world does to BOPE: register accesses (spec/10_state.md R31 to R39), host
accesses to buffer memory and the in-flight set (spec/20_memory.md R70, R92), the launch of a command
(spec/40_command_cycle.md R140) and the two resets (spec/70_reset_and_hazards.md R290, R292). -/
namespace Sys2Proof.Machine

/-! ### Launch (R140) -/

/-- An accepted CMD write: "CMD <- w, STATUS.BUSY <- 1, STATUS.DONE <- 0. Nothing else changes" (R140). -/
def State.launch (s : State) (w : Word) : State := { s with cmd := w, status := s.status.launch }

/-! ### The in-flight set of the pending command (R92) -/

/-- The bytes a pending GETPIXEL or PUTPIXEL reads or writes: none if one of its checks fails (log 10). -/
def pendingPixelBytes (sa : SlotNo) (s : State) : List Nat :=
  match pixelTarget sa s with
  | .ok d => pixelBytes d (s.arg 0).toNat (s.arg 1).toNat
  | .error _ => []

/-- The slot has a buffer: it is valid and not Unallocated (R43). -/
def Slot.hasBuffer (d : Slot) : Bool := d.valid && d.own != .unallocated

/-- A byte lies in the buffer `[data, data + size)` of a slot that has one (R43). -/
def Slot.covers (d : Slot) (a : Nat) : Bool :=
  d.hasBuffer && decide (d.data.toNat ≤ a) && decide (a < d.data.toNat + d.size)

/-- A byte is in the in-flight set of a command (R92): the accessor's bytes for GETPIXEL and PUTPIXEL, both
buffers for CONVERT, "for every other command, no byte". -/
def inFlightOf (i : Instr) (s : State) (a : Nat) : Bool :=
  match i with
  | .getpixel sa => (pendingPixelBytes sa s).contains a
  | .putpixel sa => (pendingPixelBytes sa s).contains a
  | .convert sa sb => (s.slot sa).covers a || (s.slot sb).covers a
  | .nop | .validate | .geom | .create _ | .annotate _ | .destroy _ | .setmask _ | .query _ => false
  | .pixaddr _ | .permlookup | .bytexform => false

/-- A byte is in flight: BUSY is 1 and it is in the in-flight set of the pending command (R92). -/
def State.inFlight (s : State) (a : Nat) : Bool :=
  s.status.busy &&
    match decode s.cmd with
    | .ok i => inFlightOf i s a
    | .error _ => false

/-- The in-flight write set: "the destination buffer for CONVERT, the pixel's bytes for PUTPIXEL" (R292). -/
def inFlightWrites (i : Instr) (s : State) : List Nat :=
  match i with
  | .putpixel sa => pendingPixelBytes sa s
  | .convert sa _ => if (s.slot sa).hasBuffer then rangeOf (s.slot sa).data.toNat (s.slot sa).size else []
  | .nop | .validate | .geom | .create _ | .annotate _ | .destroy _ | .setmask _ | .query _ => []
  | .getpixel _ | .pixaddr _ | .permlookup | .bytexform => []

/-! ### Reset (R290 to R292) -/

/-- "whether a pending CREATE in ALLOC mode has obtained an allocation is unspecified, and if it has, the
allocation is not released" (R292): a draw decides (log 11). -/
def abandonAlloc (i : Instr) (s : State) : State :=
  match i with
  | .create sa =>
    match createPlan sa s with
    | .ok (.allocate d) =>
      let b := s.port.draw
      let t : State := { s with port := b.2 }
      if b.1.getLsbD 0 then (t.allocate d.size).2 else t
    | .ok (.ready _) => s
    | .error _ => s
  | .nop | .validate | .geom | .annotate _ | .destroy _ | .setmask _ | .query _ => s
  | .getpixel _ | .putpixel _ | .pixaddr _ | .permlookup | .bytexform | .convert _ _ => s

/-- A pending command is abandoned: its in-flight write set holds any value (R292), and so does every byte
the host raced on (log 9). -/
def State.abandon (s : State) : State :=
  match decode s.cmd with
  | .ok i => abandonAlloc i { s with port := (s.port.scramble (inFlightWrites i s)).settle }
  | .error _ => { s with port := s.port.settle }

/-- The state change of a hard and of a soft reset (R48, R290, R292). Buffer memory and the allocator keep
their state but for what an abandoned command leaves; the slots become invalid, with their other fields
as they were (log 7). -/
def State.deviceReset (s : State) : State :=
  let t := if s.status.busy then s.abandon else s
  { t with
    irqEn := false
    status := .atReset
    cmd := 0
    args := Vector.replicate 6 0
    res := Vector.replicate 3 0
    slots := t.slots.map (fun d => { d with valid := false }) }

/-! ### Register accesses (R31 to R39) -/

/-- The register at an offset of the window (R31), if the access is an aligned 32-bit word (R75). -/
def regAtOffset (offset bytes : Nat) : Option Reg :=
  if bytes ≠ 4 then none
  else match offset with
    | 0x00 => some .id
    | 0x04 => some .caps
    | 0x08 => some .ctrl
    | 0x0C => some .status
    | 0x10 => some .cmd
    | 0x14 => some (.arg 0)
    | 0x18 => some (.arg 1)
    | 0x1C => some (.arg 2)
    | 0x20 => some (.arg 3)
    | 0x24 => some (.arg 4)
    | 0x28 => some (.arg 5)
    | 0x2C => some (.res 0)
    | 0x30 => some (.res 1)
    | 0x34 => some (.res 2)
    | 0x38 => some .reserved
    | 0x3C => some .reserved
    | _ => none

/-- The register at a host address, with the window's 64 bytes at host address `base` (R31): none below the
window, above it, or for an access that is no aligned 32-bit word (R75). -/
def regAt (base addr bytes : Nat) : Option Reg :=
  if addr < base then none else regAtOffset (addr - base) bytes

/-- ID reads 0x58494D47 (R35). -/
def idWord : Word := 0x58494D47

/-- CAPS reads 0x00012010 (R36). -/
def capsWord : Word := 0x00012010

/-- A drawn 32-bit word: four drawn bytes (log 3). -/
def Port.drawWord (p : Port) : Word × Port :=
  let b0 := p.draw
  let b1 := b0.2.draw
  let b2 := b1.2.draw
  let b3 := b2.2.draw
  (b3.1 ++ b2.1 ++ b1.1 ++ b0.1, b3.2)

/-- What a host read of a register returns (R32 to R39). RES reads any value while BUSY is 1 (R34). -/
def readReg (r : Reg) (s : State) : Word × Port :=
  match r with
  | .id => (idWord, s.port)
  | .caps => (capsWord, s.port)
  | .ctrl => (ctrlWord s.irqEn, s.port)
  | .status => (s.status.word, s.port)
  | .cmd => (s.cmd, s.port)
  | .arg i => (s.arg i, s.port)
  | .res i => if s.status.busy then s.port.drawWord else (s.res[i.val], s.port)
  | .reserved => (0, s.port)

/-- What a host write of a register does (R32 to R39). -/
def writeReg (r : Reg) (v : Word) (s : State) : State :=
  match r with
  | .ctrl => if v.getLsbD 1 then s.deviceReset else { s with irqEn := v.getLsbD 0 }
  | .status => { s with status := s.status.hostWrite v }
  | .cmd => if s.status.busy then { s with status := s.status.collide } else s.launch v
  | .arg i => if s.status.busy then { s with status := s.status.collide } else s.setArg i v
  | .id => s
  | .caps => s
  | .res _ => s
  | .reserved => s

/-- A host read turn, the window at `base`: the value stands in `hostData` (log 8). -/
def hostRegRead (base addr bytes : Nat) (s : State) : Host.Outcome State Fault Refusal :=
  match regAt base addr bytes with
  | none => .refused .nonWordAccess
  | some r =>
    let v := readReg r s
    .next { s with port := v.2, hostData := v.1 }

/-- A host write turn, the window at `base`. -/
def hostRegWrite (base addr bytes : Nat) (v : Word) (s : State) : Host.Outcome State Fault Refusal :=
  match regAt base addr bytes with
  | none => .refused .nonWordAccess
  | some r => .next (writeReg r v s)

/-! ### Host accesses to buffer memory (R70, R92) -/

/-- A host read of one byte: an in-flight byte reads as any value (R92). -/
def hostMemRead (a : Word) (s : State) : State :=
  let v := if s.inFlight a.toNat then s.port.draw else (s.port.mem.read a.toNat, s.port)
  { s with port := v.2, hostData := v.1.setWidth 32 }

/-- A host write of one byte: on an in-flight byte it is a race (R92). -/
def hostMemWrite (a : Word) (v : Byte) (s : State) : State :=
  let p := s.port.write a.toNat v
  { s with port := if s.inFlight a.toNat then p.race a.toNat else p }

end Sys2Proof.Machine
end

