-- ==== Sys2Proof/Machine/Engine.lean ====
section
/-! DEFINITION. Whose turn it is (spec/10_state.md R30, spec/40_command_cycle.md R141): the engine's
execution of the pending command, or one access of the host. -/
namespace Sys2Proof.Machine

/-- The engine's turn: while BUSY is 1 it executes the pending command, checking the command word first
(R141); a word that is not well formed is an illegal command (R103, R269). While BUSY is 0 it has no
enabled step. -/
def engineTurn (s : State) : Host.Outcome State Fault Refusal :=
  if s.status.busy then
    match decode s.cmd with
    | .ok i => exec i s
    | .error _ => .next (s.raise .illegalCommand)
  else .next s

/-- One turn of an agent, as the agenda names it (log 1). -/
def takeTurn (t : Turn) (s : State) : Host.Outcome State Fault Refusal :=
  match t with
  | .engine => engineTurn s
  | .regRead addr bytes => hostRegRead Config.regBase addr bytes s
  | .regWrite addr bytes v => hostRegWrite Config.regBase addr bytes v s
  | .memRead a => .next (hostMemRead a s)
  | .memWrite a v => .next (hostMemWrite a v s)
  | .hardReset => .next s.deviceReset

/-- A command word at the place the engine takes its next command from: launched as R140 says, with the
engine's turn next (log 2). -/
def State.withCommand (s : State) (w : Word) : State :=
  { s.launch w with agenda := .engine :: s.agenda }

end Sys2Proof.Machine
end

