-- ==== Sys2Proof/Machine/Step.lean ====
section
/-! DEFINITION. One step of the machine: the next turn of the agenda, or the engine's when no other turn is
due (log 1). -/
namespace Sys2Proof.Machine

/-- One step (R101): a host access, a hard reset, or the engine's execution of the pending command. With no
turn due the engine moves; if no command is pending, nothing happens. -/
def step (s : State) : Host.Outcome State Fault Refusal :=
  match s.agenda with
  | [] => engineTurn s
  | t :: rest => takeTurn t { s with agenda := rest }

/-- `s` with the command word `w` launched and the engine's turn next. BOPE fetches no instruction (R45,
R91): this stands for the host's CMD write (log 2). -/
def State.withFetchWord (s : State) (nbits w : Nat) : State :=
  s.withCommand (BitVec.ofNat 32 (w % 2 ^ nbits))

end Sys2Proof.Machine
end

