-- ==== Sys2Proof/Safety.lean ====
section
/-! DEFINITION. The terms claims use: what a valid slot satisfies (spec/10_state.md R41 to R43), the
invariant of the machine, how a command ends and what it leaves alone. -/
namespace Sys2Proof.Machine

/-! ### The invariant -/

/-- What R41, R42 and R81 say of a valid slot: its tuple is accepted, its stride and size are the annotated
ones, its plane mask lies within `depth` (0 for Packed), its addresses fit its ownership, and its buffer
lies in buffer memory. An invalid slot is not constrained (R44). -/
abbrev Slot.Ok (d : Slot) : Prop :=
  d.valid = true →
    d.fmt.valid = true ∧
    d.stride = (annotate d.fmt d.width.toNat d.height.toNat).stride ∧
    d.size = (annotate d.fmt d.width.toNat d.height.toNat).size ∧
    (d.fmt.family = .planar → d.planeMask.toNat < 2 ^ d.fmt.depth.toNat) ∧
    (d.fmt.family = .packed → d.planeMask = 0) ∧
    (d.own = .unallocated → d.data = 0 ∧ d.base = 0) ∧
    (d.own = .borrowedView → d.base = 0) ∧
    (d.own = .ownedAllocation → d.base = d.data) ∧
    (d.own ≠ .unallocated → d.data.toNat + d.size ≤ Config.addrSpace)

/-- The invariant every step keeps: every valid slot is as R41 to R43 say, buffer memory is in canonical
form, only in-flight bytes are raced on (R92), STATUS.ERR holds a code R262 writes, and a fault code in
STATUS.ERR comes with STATUS.FAULT (R265). -/
abbrev State.Inv (s : State) : Prop :=
  (∀ a : SlotNo, (s.slot a).Ok) ∧
  s.port.mem.wf = true ∧
  (∀ a ∈ s.port.raced, s.inFlight a = true) ∧
  (s.status.err ≤ 5 ∨ s.status.err = 7 ∨ s.status.err = 8) ∧
  (s.status.err = 5 ∨ s.status.err = 7 ∨ s.status.err = 8 → s.status.fault = true)

/-- A run is safe when no step of it stops with a fault. -/
def safeOutcome (o : Host.Outcome State Fault Refusal) : Prop :=
  match o with
  | .next _ => True
  | .fault _ => False
  | .refused _ => True

/-! ### How a command ends (R142) -/

/-- The completion update of R142 for error code `e`: ERR, LASTOP = CMD[7:0], FAULT set by 5, 7 and 8 and
never cleared, DONE set, BUSY cleared, COLLISION as it was. -/
def Completed (e : BitVec 4) (s t : State) : Prop :=
  t.status.err = e ∧
  t.status.lastOp = s.cmd.extractLsb' 0 8 ∧
  t.status.fault = (s.status.fault || decide (e = 5 ∨ e = 7 ∨ e = 8)) ∧
  t.status.done = true ∧
  t.status.busy = false ∧
  t.status.collision = s.status.collision

/-- What no command writes: CTRL, CMD, the ARG registers (R33), the host's agenda and its last read. -/
def HostSideKept (s t : State) : Prop :=
  t.irqEn = s.irqEn ∧ t.cmd = s.cmd ∧ t.args = s.args ∧ t.agenda = s.agenda ∧ t.hostData = s.hostData

/-- Nothing passed over the allocator port. -/
def AllocatorKept (s t : State) : Prop := t.allocLog = s.allocLog ∧ t.allocAnswers = s.allocAnswers

/-- Every byte outside `stored` reads as before, but for bytes the host raced on, which hold any value when
the command is over (R92); and no byte is raced on any more. -/
def BytesKeptBut (stored : Nat → Prop) (s t : State) : Prop :=
  t.port.raced = [] ∧
  ∀ a, ¬ stored a → a ∉ s.port.raced → t.port.mem.read a = s.port.mem.read a

/-- No byte is stored to. -/
def nowhere : Nat → Prop := fun _ => False

/-- The command ended with code `e`, and of everything but RES, slots, memory and allocator nothing changed. -/
def EndedWith (e : BitVec 4) (s t : State) : Prop := Completed e s t ∧ HostSideKept s t

/-- The command ended with error `e` and changed nothing but by the completion update (R144, R263). -/
def EndedInError (e : Err) (s t : State) : Prop :=
  EndedWith e.code s t ∧ t.res = s.res ∧ t.slots = s.slots ∧ AllocatorKept s t ∧ BytesKeptBut nowhere s t

/-! ### Turns -/

/-- The engine moves next: it is the engine's turn, or no turn is due. -/
def engineDue (s : State) : Prop := s.agenda.headD .engine = .engine

/-- The state a turn starts from: `s` with that turn taken off the agenda. -/
def afterTurn (s : State) : State := { s with agenda := s.agenda.tail }

/-- The next turn resets the device: the reset input, or a host write to CTRL with SOFT_RESET set (R37). -/
def resetDue (s : State) : Prop :=
  s.agenda.headD .engine = .hardReset ∨
    ∃ v : Word, v.getLsbD 1 = true ∧ s.agenda.headD .engine = .regWrite (Config.regBase + 0x08) 4 v

/-- The command the engine executes in this step, if it executes one. -/
def executes (s : State) (i : Instr) : Prop := engineDue s ∧ s.status.busy = true ∧ decode s.cmd = .ok i

/-! ### Formats, from the spec's own lists -/

/-- R152: "The accepted tuples are exactly" these. -/
def acceptedTuple (f : Format) : Prop :=
  f.pad.toNat ∈ [8, 16, 32] ∧ f.depth.toNat ≤ f.bpp.toNat ∧
    match f.family with
    | .planar => f.unit.toNat ∈ [8, 16, 32] ∧ f.bpp.toNat ≤ f.unit.toNat ∧ f.bpp.toNat ≤ f.pad.toNat
    | .packed => (f.bpp.toNat, f.unit.toNat) ∈ [(4, 8), (8, 8), (16, 16), (24, 24), (32, 32)]

/-- The bits of one scanline: `width * bpp_effective` (R157). -/
def scanlineBits (f : Format) (width : Nat) : Nat :=
  match f.family with
  | .planar => width
  | .packed => width * f.bpp.toNat

/-- `stride` is the stride of R154 and R155: eight times it is the least multiple of `pad` that holds a
scanline. -/
def isStride (f : Format) (width stride : Nat) : Prop :=
  stride * 8 % f.pad.toNat = 0 ∧ scanlineBits f width ≤ stride * 8 ∧ stride * 8 < scanlineBits f width + f.pad.toNat

/-- The number of scanlines of an image of `height` rows (R155, R208). -/
def scanlines (f : Format) (height : Nat) : Nat :=
  match f.family with
  | .planar => height * f.depth.toNat
  | .packed => height

/-- The fields R105 gives the FMT word `w`, its unit `unit`. -/
def hasFmtFields (f : Format) (w : Word) (unit : Nat) : Prop :=
  f.depth = w.extractLsb' 0 6 ∧ f.bpp = w.extractLsb' 8 6 ∧ f.pad = w.extractLsb' 24 6 ∧ f.unit.toNat = unit ∧
    (f.byteOrder = .msbFirst ↔ w.getLsbD 6 = true) ∧ (f.bitOrder = .msbFirst ↔ w.getLsbD 7 = true) ∧
    (f.family = .planar ↔ w.extractLsb' 14 2 = 0) ∧ (f.family = .packed ↔ w.extractLsb' 14 2 = 1)

/-- The descriptor CREATE stores for format `f` and WH word `wh` (R171, R172), with the buffer R174 gives it. -/
def createdSlot (f : Format) (wh : Word) (own : Ownership) (data base : Word) : Slot where
  valid := true
  width := wh.extractLsb' 0 16
  height := wh.extractLsb' 16 16
  fmt := f
  planeMask := (annotate f (wh.extractLsb' 0 16).toNat (wh.extractLsb' 16 16).toNat).planeMask
  stride := (annotate f (wh.extractLsb' 0 16).toNat (wh.extractLsb' 16 16).toNat).stride
  size := (annotate f (wh.extractLsb' 0 16).toNat (wh.extractLsb' 16 16).toNat).size
  own := own
  data := data
  base := base

/-- The size CREATE computes from ARG0 and ARG1 (R155). -/
def computedSize (f : Format) (wh : Word) : Nat :=
  (annotate f (wh.extractLsb' 0 16).toNat (wh.extractLsb' 16 16).toNat).size

/-- R84's law on an answer `a` to `Alloc(n)`: the range lies in buffer memory and is disjoint from the buffer
of every valid slot whose `own` is OwnedAllocation. -/
def allocatorMayAnswer (s : State) (a : Word) (n : Nat) : Prop :=
  a.toNat + n ≤ 2 ^ 32 ∧
    ∀ b : SlotNo, (s.slot b).valid = true → (s.slot b).own = .ownedAllocation →
      ∀ k, ¬ ((a.toNat ≤ k ∧ k < a.toNat + n) ∧
        ((s.slot b).data.toNat ≤ k ∧ k < (s.slot b).data.toNat + (s.slot b).size))

/-- What CREATE of slot `a` asks the allocator for: in MODE 3 (ALLOC), with an accepted tuple and a free slot,
`Alloc(n)` for the exact computed size `n` (R84, R174). -/
def requestsAlloc (s : State) (a : SlotNo) (n : Nat) : Prop :=
  (s.slot a).valid = false ∧ s.arg 2 = 3 ∧
    ∃ f, decodeFmt (s.arg 0) true = .ok f ∧ acceptedTuple f ∧ n = computedSize f (s.arg 1)

/-- Slot `a` holds `d` and every other slot is as before. -/
def OnlySlot (s t : State) (a : SlotNo) (d : Slot) : Prop :=
  t.slot a = d ∧ ∀ b, b ≠ a → t.slot b = s.slot b

/-! ### Pixels, from the spec's tables -/

/-- Byte `i` of the pixel `(x, y)` of a Packed slot, counted from the first byte R194 lists. -/
def packedByteAddr (d : Slot) (x y i : Nat) : Nat :=
  d.data.toNat + y * d.stride +
    (if d.fmt.bpp = 4 then x / 2 else d.fmt.bpp.toNat / 8 * x) + i

/-- How many bytes R194 lists for a pixel of a Packed slot. -/
def packedByteCount (d : Slot) : Nat := if d.fmt.bpp = 4 then 1 else d.fmt.bpp.toNat / 8

/-- The value R194's column "get" gives for the bytes `b 0`, `b 1`, … of a Packed pixel. -/
def packedGet (d : Slot) (x : Nat) (b : Nat → Byte) : Word :=
  match d.fmt.bpp.toNat, d.fmt.byteOrder with
  | 4, .msbFirst => ((if x % 2 = 0 then (b 0).extractLsb' 4 4 else (b 0).extractLsb' 0 4) : BitVec 4).setWidth 32
  | 4, .lsbFirst => ((if x % 2 = 0 then (b 0).extractLsb' 0 4 else (b 0).extractLsb' 4 4) : BitVec 4).setWidth 32
  | 8, _ => (b 0).setWidth 32
  | 16, .lsbFirst => (b 1 ++ b 0).setWidth 32
  | 16, .msbFirst => (b 0 ++ b 1).setWidth 32
  | 24, .lsbFirst => (b 2 ++ b 1 ++ b 0).setWidth 32
  | 24, .msbFirst => (b 0 ++ b 1 ++ b 2).setWidth 32
  | _, .lsbFirst => b 3 ++ b 2 ++ b 1 ++ b 0
  | _, .msbFirst => b 0 ++ b 1 ++ b 2 ++ b 3

/-- Byte `i` R194's column "put" gives for the value `v`; `old` is what the byte held. -/
def packedPut (d : Slot) (x : Nat) (v : Word) (old : Byte) (i : Nat) : Byte :=
  match d.fmt.bpp.toNat, d.fmt.byteOrder with
  | 4, .msbFirst =>
    if x % 2 = 0 then v.extractLsb' 0 4 ++ old.extractLsb' 0 4 else old.extractLsb' 4 4 ++ v.extractLsb' 0 4
  | 4, .lsbFirst =>
    if x % 2 = 0 then old.extractLsb' 4 4 ++ v.extractLsb' 0 4 else v.extractLsb' 0 4 ++ old.extractLsb' 0 4
  | 8, _ => v.extractLsb' 0 8
  | 16, .lsbFirst => v.extractLsb' (8 * i) 8
  | 16, .msbFirst => v.extractLsb' (8 * (1 - i)) 8
  | 24, .lsbFirst => v.extractLsb' (8 * i) 8
  | 24, .msbFirst => v.extractLsb' (8 * (2 - i)) 8
  | _, .lsbFirst => v.extractLsb' (8 * i) 8
  | _, .msbFirst => v.extractLsb' (8 * (3 - i)) 8

/-- What a pixel is worth (R198): the bits `[bpp-1 : 0]` for Packed, the kept planes for Planar. -/
def storedPart (d : Slot) (v : Word) : Word :=
  match d.fmt.family with
  | .packed => BitVec.ofNat 32 (v.toNat % 2 ^ d.fmt.bpp.toNat)
  | .planar => v &&& d.planeMask

/-- The plane block `k` is one of the `depth` blocks and the plane mask keeps it (R190). -/
def planeKept (d : Slot) (k : Nat) : Prop :=
  k < d.fmt.depth.toNat ∧ d.planeMask.getLsbD (planeBit d k) = true

/-- The pixel `(x, y)` can be accessed: the slot is valid and allocated, the pixel in bounds, and every piece
inside the buffer (R186, R189). -/
def accessible (d : Slot) (x y : Nat) : Prop :=
  d.valid = true ∧ d.own ≠ .unallocated ∧ x < d.width.toNat ∧ y < d.height.toNat ∧
    (d.fmt.family = .planar → ∀ k, planeKept d k → planarOffset d k x y < d.size)

/-- `a` is one of the bytes of the pixel `(x, y)`: those R194 lists for Packed, one for each kept plane for
Planar (R187, R190). -/
def isPixelByte (d : Slot) (x y a : Nat) : Prop :=
  match d.fmt.family with
  | .packed => ∃ i, i < packedByteCount d ∧ a = packedByteAddr d x y i
  | .planar => ∃ k, planeKept d k ∧ a = d.data.toNat + planarOffset d k x y

/-- Bit `j` of byte `c` stores bit `i` of the pixel `(x, y)`: the bits R194 lists for Packed, one bit for each
kept plane for Planar (R187, R188, R190). -/
def storesBit (d : Slot) (x y i c j : Nat) : Prop :=
  match d.fmt.family with
  | .planar => ∃ k, planeKept d k ∧ c = d.data.toNat + planarOffset d k x y ∧ j = bitPos d x ∧ i = planeBit d k
  | .packed =>
    if d.fmt.bpp = 4 then
      c = packedByteAddr d x y 0 ∧ i < 4 ∧ j = i + (if x % 2 = 0 ↔ d.fmt.byteOrder = .msbFirst then 4 else 0)
    else
      ∃ b, b < packedByteCount d ∧ c = packedByteAddr d x y b ∧ j < 8 ∧
        i = j + 8 * (match d.fmt.byteOrder with
          | .lsbFirst => b
          | .msbFirst => packedByteCount d - 1 - b)

/-- The loop of strategy 4, `y` outer and `x` inner, comes to `(x', y')` after `(x, y)` (R236). -/
def comesLater (x y x' y' : Nat) : Prop := y < y' ∨ (y = y' ∧ x < x')

/-- `a` lies in the buffer `[data, data + size)` of a valid, allocated slot (R43). -/
def inBuffer (d : Slot) (a : Nat) : Prop :=
  d.valid = true ∧ d.own ≠ .unallocated ∧ d.data.toNat ≤ a ∧ a < d.data.toNat + d.size

/-- The in-flight set of R92: the pixel's bytes for GETPIXEL and PUTPIXEL (none where the pixel is refused,
log 10), both buffers for CONVERT, no byte for every other command. -/
def inFlightByRule (i : Instr) (s : State) (a : Nat) : Prop :=
  match i with
  | .getpixel sa | .putpixel sa =>
    accessible (s.slot sa) (s.arg 0).toNat (s.arg 1).toNat ∧
      isPixelByte (s.slot sa) (s.arg 0).toNat (s.arg 1).toNat a
  | .convert sa sb => inBuffer (s.slot sa) a ∨ inBuffer (s.slot sb) a
  | .nop | .validate | .geom | .create _ | .annotate _ | .destroy _ | .setmask _ | .query _ => False
  | .pixaddr _ | .permlookup | .bytexform => False

/-- Nobody raced on a byte of a slot's buffer (R92). -/
def unraced (s : State) (d : Slot) : Prop := ∀ a, d.data.toNat ≤ a → a < d.data.toNat + d.size → a ∉ s.port.raced

/-- Two buffers share no byte (R229). -/
def buffersDisjoint (S D : Slot) : Prop :=
  ∀ a, ¬ ((S.data.toNat ≤ a ∧ a < S.data.toNat + S.size) ∧ (D.data.toNat ≤ a ∧ a < D.data.toNat + D.size))

/-- What CONVERT asks of a pair before it selects a strategy (R226, R227, R229). -/
def convertible (S D : Slot) : Prop :=
  S.valid = true ∧ S.own ≠ .unallocated ∧ D.valid = true ∧ D.own ≠ .unallocated ∧
    S.fmt.depth = D.fmt.depth ∧ S.width = D.width ∧ S.height = D.height ∧ buffersDisjoint S D

/-- Every field but depth and the plane mask is the same layout (R228, R232). -/
def identicalLayout (S D : Slot) : Prop :=
  S.fmt.family = D.fmt.family ∧ S.fmt.bpp = D.fmt.bpp ∧ S.fmt.unit = D.fmt.unit ∧ S.fmt.pad = D.fmt.pad ∧
    S.fmt.byteOrder = D.fmt.byteOrder ∧ S.fmt.bitOrder = D.fmt.bitOrder

/-- Both slots are Planar with one plane (R228, `Bitmap`). -/
def bitmapPair (S D : Slot) : Prop :=
  S.fmt.family = .planar ∧ D.fmt.family = .planar ∧ S.fmt.depth = 1 ∧ D.fmt.depth = 1

/-- The slots differ in byte or bit order only, and are no 24-bit pair of unlike byte orders (R228,
`OrderOnly`). -/
def orderPair (S D : Slot) : Prop :=
  S.fmt.family = D.fmt.family ∧ S.fmt.bpp = D.fmt.bpp ∧ S.fmt.unit = D.fmt.unit ∧ S.fmt.pad = D.fmt.pad ∧
    ¬ (S.fmt.family = .packed ∧ S.fmt.bpp = 24 ∧ S.fmt.byteOrder ≠ D.fmt.byteOrder)

/-- `F(EC(d))` in numbers (R201): the unit's byte count less 1 for MSBFirst, 0 for LSBFirst. -/
def classFlip (d : Slot) : Nat :=
  match d.fmt.byteOrder with
  | .msbFirst => d.fmt.unit.toNat / 8 - 1
  | .lsbFirst => 0

/-- Every plane of a Planar slot is kept: `planeMask = 2^depth - 1` (R155). -/
def fullMask (d : Slot) : Prop := d.planeMask = BitVec.ofNat 32 (2 ^ d.fmt.depth.toNat - 1)

/-- `v` is `rev_depth(u)` (R237, R239): bit `j` below `depth` is bit `depth - 1 - j` of `u`, the rest 0. -/
def isPlaneReversal (depth : Nat) (u v : Word) : Prop :=
  ∀ j, v.getLsbD j = (decide (j < depth) && u.getLsbD (depth - 1 - j))

/-- The value of a pixel in the buffer memory of `s`: `Extract(d, x, y)` (R191). -/
def pixelIn (s : State) (d : Slot) (x y : Nat) : Word := (extract d x y s.port).1

/-- R199: the formats in which two Planar pixels can share a bit are shut out by this. -/
def neverAliases (d : Slot) : Prop :=
  d.fmt.family = .packed ∨ d.fmt.byteOrder = .lsbFirst ∨ d.fmt.unit.toNat ≤ d.fmt.pad.toNat

end Sys2Proof.Machine
end

