-- ==== Sys2Proof/Certificates/Slice0/Obligations.lean ====
section
/-! DEFINITION. The statements for the provers. Each docstring names the rule of spec/ it comes from. Bytes the
host raced on while a command was pending hold any value when it ends (R92), so a statement about memory
speaks of the other bytes; an error or a success leaves `raced` empty. -/
open Sys2Proof Sys2Proof.Machine

/-! ### Encoding (spec/30_encoding.md) -/

/-- R111: words written out from the table decode to their commands; R103: four words that are not well
formed are rejected, each by its reason. -/
def Obligations.SpecWordsDecode : Prop :=
  decode 0x00000000 = .ok .nop ∧ decode 0x00000001 = .ok .validate ∧ decode 0x00000002 = .ok .geom ∧
  decode 0x00000703 = .ok (.create 7) ∧ decode 0x00000F04 = .ok (.annotate 15) ∧
  decode 0x00000305 = .ok (.destroy 3) ∧ decode 0x00000506 = .ok (.setmask 5) ∧
  decode 0x00000907 = .ok (.query 9) ∧ decode 0x00000108 = .ok (.getpixel 1) ∧
  decode 0x00000209 = .ok (.putpixel 2) ∧ decode 0x0000020A = .ok (.pixaddr 2) ∧
  decode 0x0000000B = .ok .permlookup ∧ decode 0x0000000C = .ok .bytexform ∧
  decode 0x0000230D = .ok (.convert 3 2) ∧
  decode 0x0000000E = .error .unknownOpcode ∧ decode 0x00010000 = .error .reservedBits ∧
  decode 0x00000101 = .error .unusedSlotA ∧ decode 0x00001003 = .error .unusedSlotB

/-- R102, R103, R111: the decoder reads command `i` from a word exactly when the word is the encoding of `i`. -/
def Obligations.DecodeReadsExactlyTheEncoding : Prop :=
  ∀ (w : Word) (i : Instr), decode w = .ok i ↔ encode i = w

/-- R103: a word is accepted by the decoder exactly when it is well formed in the rule's own terms; and the
engine's execution of a word that is not raises IllegalCommand and changes no slot, no ARG or RES register
and no buffer byte. -/
def Obligations.OnlyWellFormedWordsAreCommands : Prop :=
  (∀ w : Word, (∃ i, decode w = .ok i) ↔ wellFormedWord w = true) ∧
  ∀ s : State, engineDue s → s.status.busy = true → wellFormedWord s.cmd = false →
    ∃ t, step s = .next t ∧ EndedInError .illegalCommand (afterTurn s) t

/-- R105, R158, R153: what the FMT word decodes to, and what it is refused for, with and without the unit
default. -/
def Obligations.FmtWordDecodes : Prop :=
  ∀ (w : Word) (dflt : Bool),
    (w.extractLsb' 22 2 ≠ 0 ∨ w.extractLsb' 30 2 ≠ 0 → decodeFmt w dflt = .error .illegalCommand) ∧
    (w.extractLsb' 22 2 = 0 → w.extractLsb' 30 2 = 0 →
      (2 ≤ (w.extractLsb' 14 2).toNat → decodeFmt w dflt = .error .unsupportedFormat) ∧
      ((w.extractLsb' 14 2).toNat < 2 → ∃ f, decodeFmt w dflt = .ok f ∧
        hasFmtFields f w
          (if dflt = true ∧ w.extractLsb' 16 6 = 0 then
            (if w.extractLsb' 14 2 = 0 then 32
             else if (w.extractLsb' 8 6).toNat = 1 then 32
             else if (w.extractLsb' 8 6).toNat < 8 then 8
             else (w.extractLsb' 8 6).toNat)
           else (w.extractLsb' 16 6).toNat)))

/-- R105, R179: the FMT word QUERY returns for a slot's format decodes to that format. -/
def Obligations.FmtWordRoundTrip : Prop := ∀ f : Format, decodeFmt f.word false = .ok f

/-! ### The command cycle and the registers (spec/10_state.md, spec/40_command_cycle.md) -/

/-- R101, R141: when the engine moves and the pending word decodes to `i`, the step is `exec` of `i` at the
state with the turn taken off the agenda; with no command pending the engine's turn changes nothing.
Whose turn it is stands in the model's `agenda` (log 1). -/
def Obligations.StepRunsTheDecodedCommand : Prop :=
  (∀ (s : State) (i : Instr), engineDue s → s.status.busy = true → decode s.cmd = .ok i →
    step s = exec i (afterTurn s)) ∧
  (∀ s : State, engineDue s → s.status.busy = false → step s = .next (afterTurn s))

/-- R140: a CMD write while BUSY is 0 launches and changes nothing but CMD, BUSY and DONE; while BUSY is 1 it
is dropped and sets COLLISION. -/
def Obligations.CmdWriteLaunches : Prop :=
  ∀ (s : State) (w : Word) (rest : List Turn), s.agenda = .regWrite (Config.regBase + 0x10) 4 w :: rest →
    (s.status.busy = false → step s = .next
      { s with agenda := rest, cmd := w, status := { s.status with busy := true, done := false } }) ∧
    (s.status.busy = true → step s = .next
      { s with agenda := rest, status := { s.status with collision := true } })

/-- R33: an ARG register takes a host write while BUSY is 0, keeps its value and sets COLLISION while BUSY is
1, is read back as it is at any time, and no command writes one.
What a host read returned stands in the model's `hostData` (log 8). -/
def Obligations.ArgRegistersBelongToTheHost : Prop :=
  (∀ (s : State) (i : Fin 6) (v : Word) (rest : List Turn),
    s.agenda = .regWrite (Config.regBase + (0x14 + 4 * i.val)) 4 v :: rest →
    (s.status.busy = false → ∃ t, step s = .next t ∧ t = { s with agenda := rest, args := t.args } ∧
      ∀ j : Fin 6, t.arg j = if j = i then v else s.arg j) ∧
    (s.status.busy = true → step s = .next
      { s with agenda := rest, status := { s.status with collision := true } })) ∧
  (∀ (s : State) (i : Fin 6) (rest : List Turn), s.agenda = .regRead (Config.regBase + (0x14 + 4 * i.val)) 4 :: rest →
    step s = .next { s with agenda := rest, hostData := s.arg i }) ∧
  (∀ (i : Instr) (s t : State), exec i s = .next t → t.args = s.args)

/-- R35: ID always reads 0x58494D47 and writes to it have no effect. R36: CAPS reads 0x00012010, with these
fields, and writes to it have no effect. -/
def Obligations.IdAndCapsAreHardwired : Prop :=
  (∀ (s : State) (rest : List Turn), s.agenda = .regRead (Config.regBase + 0x00) 4 :: rest →
    step s = .next { s with agenda := rest, hostData := 0x58494D47 }) ∧
  (∀ (s : State) (v : Word) (rest : List Turn), s.agenda = .regWrite (Config.regBase + 0x00) 4 v :: rest →
    step s = .next { s with agenda := rest }) ∧
  (∀ (s : State) (rest : List Turn), s.agenda = .regRead (Config.regBase + 0x04) 4 :: rest →
    ∃ caps : Word, step s = .next { s with agenda := rest, hostData := caps } ∧ caps = 0x00012010 ∧
      caps.extractLsb' 0 8 = 16 ∧ caps.extractLsb' 8 8 = 32 ∧ caps.extractLsb' 16 8 = 1 ∧
      caps.extractLsb' 24 8 = 0) ∧
  (∀ (s : State) (v : Word) (rest : List Turn), s.agenda = .regWrite (Config.regBase + 0x04) 4 v :: rest →
    step s = .next { s with agenda := rest })

/-- R38: what a STATUS read returns, bit by bit, and what a STATUS write clears. -/
def Obligations.StatusReadsAndClears : Prop :=
  (∀ (s : State) (rest : List Turn), s.agenda = .regRead (Config.regBase + 0x0C) 4 :: rest →
    ∃ v : Word, step s = .next { s with agenda := rest, hostData := v } ∧
      v.getLsbD 0 = s.status.busy ∧ v.getLsbD 1 = s.status.done ∧ v.getLsbD 2 = s.status.collision ∧
      v.getLsbD 3 = s.status.fault ∧ v.extractLsb' 4 4 = s.status.err ∧ v.extractLsb' 8 8 = s.status.lastOp ∧
      v.extractLsb' 16 16 = 0) ∧
  (∀ (s : State) (v : Word) (rest : List Turn), s.agenda = .regWrite (Config.regBase + 0x0C) 4 v :: rest →
    step s = .next { s with
      agenda := rest
      status := { s.status with
        done := s.status.done && !v.getLsbD 1
        collision := s.status.collision && !v.getLsbD 2 } })

/-- R32, R34, R37, R39: reads of CTRL, CMD, RES and the reserved offsets, and writes of RES, the reserved
offsets and CTRL without SOFT_RESET. While BUSY is 1 a read of RES returns any value (a draw, log 3): whatever
four bytes the environment has fixed next, and else nothing but `hostData` and the draws changes. -/
def Obligations.OtherRegisterAccesses : Prop :=
  ∀ (s : State) (rest : List Turn),
    (s.agenda = .regRead (Config.regBase + 0x08) 4 :: rest →
      step s = .next { s with agenda := rest, hostData := if s.irqEn then 1 else 0 }) ∧
    (s.agenda = .regRead (Config.regBase + 0x10) 4 :: rest →
      step s = .next { s with agenda := rest, hostData := s.cmd }) ∧
    (∀ i : Fin 3, s.agenda = .regRead (Config.regBase + (0x2C + 4 * i.val)) 4 :: rest →
      (s.status.busy = false → step s = .next { s with agenda := rest, hostData := s.res[i.val] }) ∧
      (s.status.busy = true →
        (∃ t, step s = .next t ∧ t = { s with
          agenda := rest
          hostData := t.hostData
          port := { s.port with draws := t.port.draws, drawn := t.port.drawn } }) ∧
        ∀ (v : Word) (more : List Byte),
          s.port.draws = v.extractLsb' 0 8 :: v.extractLsb' 8 8 :: v.extractLsb' 16 8 :: v.extractLsb' 24 8 :: more →
          step s = .next { s with agenda := rest, hostData := v, port := { s.port with draws := more } })) ∧
    (∀ a, a = 0x38 ∨ a = 0x3C → s.agenda = .regRead (Config.regBase + a) 4 :: rest →
      step s = .next { s with agenda := rest, hostData := 0 }) ∧
    (∀ a v, a = 0x2C ∨ a = 0x30 ∨ a = 0x34 ∨ a = 0x38 ∨ a = 0x3C →
      s.agenda = .regWrite (Config.regBase + a) 4 v :: rest → step s = .next { s with agenda := rest }) ∧
    (∀ v : Word, v.getLsbD 1 = false → s.agenda = .regWrite (Config.regBase + 0x08) 4 v :: rest →
      step s = .next { s with agenda := rest, irqEn := v.getLsbD 0 })

/-- R31, R75: a host register access that is not a 32-bit access at a word offset of the 64-byte window at
REG_BASE is refused; every other one has a next state. How the model refuses is log 13, REG_BASE log 14. -/
def Obligations.OnlyWordAccessesHaveMeaning : Prop :=
  ∀ (s : State) (addr bytes : Nat) (v : Word) (rest : List Turn),
    (s.agenda = .regRead addr bytes :: rest ∨ s.agenda = .regWrite addr bytes v :: rest) →
    ((∃ offset, addr = Config.regBase + offset ∧ bytes = 4 ∧ offset % 4 = 0 ∧ offset < 64) →
      ∃ t, step s = .next t) ∧
    (¬ (∃ offset, addr = Config.regBase + offset ∧ bytes = 4 ∧ offset % 4 = 0 ∧ offset < 64) →
      step s = .refused .nonWordAccess)

/-- R92: which bytes are in flight: while BUSY is 1, those `inFlightByRule` lists for the pending command, and
no other; a command word that is not well formed has none. R70, R72: outside the in-flight set a host write of
a byte changes that byte and nothing else, and a host read returns it. That a refused pixel of GETPIXEL or
PUTPIXEL puts no byte in flight, and a refused CONVERT its buffers, is the model's reading (log 10). -/
def Obligations.HostBytesOutsideTheInFlightSet : Prop :=
  (∀ (s : State) (a : Nat), (∀ b : SlotNo, (s.slot b).Ok) →
    (s.inFlight a = true ↔ s.status.busy = true ∧ ∃ i, decode s.cmd = .ok i ∧ inFlightByRule i s a)) ∧
  ∀ (s : State) (a : Word) (rest : List Turn), s.inFlight a.toNat = false →
    (s.agenda = .memRead a :: rest →
      step s = .next { s with agenda := rest, hostData := (s.port.mem.read a.toNat).setWidth 32 }) ∧
    (∀ v, s.agenda = .memWrite a v :: rest → ∃ t, step s = .next t ∧
      t = { s with agenda := rest, port := { s.port with mem := t.port.mem } } ∧
      ∀ b, t.port.mem.read b = if b = a.toNat then v else s.port.mem.read b)

/-- R92: a host read of an in-flight byte changes nothing but `hostData` and the draws, and returns whatever
byte the environment has fixed next (any value, log 3); a host write of one changes no other byte, marks it as
raced on, keeps it in flight, and changes nothing else: no slot, no register, nothing at the allocator. That a
raced byte stays marked until the command ends is the model's choice (log 9); which bytes of a refused command
are in flight is its reading (log 10). -/
def Obligations.HostRacesOnInFlightBytes : Prop :=
  ∀ (s : State) (a : Word) (rest : List Turn), s.inFlight a.toNat = true →
    (s.agenda = .memRead a :: rest →
      (∃ t, step s = .next t ∧ t = { s with
        agenda := rest
        hostData := t.hostData
        port := { s.port with draws := t.port.draws, drawn := t.port.drawn } }) ∧
      ∀ (v : Byte) (more : List Byte), s.port.draws = v :: more →
        step s = .next { s with agenda := rest, hostData := v.setWidth 32, port := { s.port with draws := more } }) ∧
    (∀ v, s.agenda = .memWrite a v :: rest → ∃ t, step s = .next t ∧
      t = { s with agenda := rest, port := { s.port with mem := t.port.mem, raced := t.port.raced } } ∧
      a.toNat ∈ t.port.raced ∧
      (∀ b, b ≠ a.toNat → t.port.mem.read b = s.port.mem.read b ∧ (b ∈ t.port.raced ↔ b ∈ s.port.raced)) ∧
      t.inFlight a.toNat = true)

/-- R270: after a command IRQ is asserted exactly if IRQ_EN is 1; launching the next command, clearing DONE,
clearing IRQ_EN and a reset deassert it; setting IRQ_EN while DONE is 1 asserts it at once. -/
def Obligations.IrqFollowsEnableAndDone : Prop :=
  (∀ (i : Instr) (s t : State), exec i s = .next t → t.irq = s.irqEn) ∧
  (∀ (s t : State) (v : Word) (rest : List Turn), s.agenda = .regWrite (Config.regBase + 0x10) 4 v :: rest →
    s.status.busy = false → step s = .next t → t.irq = false) ∧
  (∀ (s t : State) (v : Word) (rest : List Turn), s.agenda = .regWrite (Config.regBase + 0x0C) 4 v :: rest →
    v.getLsbD 1 = true → step s = .next t → t.irq = false) ∧
  (∀ (s t : State) (v : Word) (rest : List Turn), s.agenda = .regWrite (Config.regBase + 0x08) 4 v :: rest →
    v.getLsbD 1 = false → step s = .next t → t.irq = (v.getLsbD 0 && s.status.done)) ∧
  (∀ s t : State, resetDue s → step s = .next t → t.irq = false)

/-! ### Reset (spec/70_reset_and_hazards.md) -/

/-- R290, R48: the values the spec gives the machine right after reset. -/
def Obligations.ResetValues : Prop :=
  State.reset.irqEn = false ∧ State.reset.status.word = 0 ∧ State.reset.cmd = 0 ∧
  (∀ i, State.reset.arg i = 0) ∧ (∀ i : Fin 3, State.reset.res[i.val] = 0) ∧
  (∀ a, (State.reset.slot a).valid = false) ∧ State.reset.irq = false

/-- R290, R292: a hard or soft reset puts every register at its reset value and invalidates every slot,
whatever BOPE was doing; with BUSY 0 it changes no buffer byte; with BUSY 1 it changes no byte outside the
in-flight write set but those the host raced on; it frees nothing, and only a pending CREATE in ALLOC mode may
have obtained an allocation.
What a reset does to raced bytes and to a pending allocation is the model's reading (logs 9, 11), and so is the
write set of a command that would be refused (log 10). -/
def Obligations.ResetForgetsTheDevice : Prop :=
  ∀ s : State, resetDue s → ∃ t, step s = .next t ∧
    t.irqEn = false ∧ t.status.word = 0 ∧ t.cmd = 0 ∧ (∀ i, t.arg i = 0) ∧ (∀ i : Fin 3, t.res[i.val] = 0) ∧
    (∀ a, (t.slot a).valid = false) ∧ t.agenda = s.agenda.tail ∧
    (s.status.busy = false → t.port = s.port ∧ AllocatorKept s t) ∧
    (s.status.busy = true →
      (∀ a, a ∉ s.port.raced → (∀ i, decode s.cmd = .ok i → a ∉ inFlightWrites i s) →
        t.port.mem.read a = s.port.mem.read a) ∧
      (t.allocLog = s.allocLog ∨
        ∃ sa b n, decode s.cmd = .ok (.create sa) ∧ s.arg 2 = 3 ∧ t.allocLog = s.allocLog ++ [.alloc b n]))

/-! ### The invariant and the whole-machine rules -/

/-- The machine after reset meets the invariant. -/
def Obligations.ResetMeetsTheInvariant : Prop := State.reset.Inv

/-- R41, R42, R81, R92, R262, R265: every step keeps the invariant.
The canonical form of memory and the record of raced bytes are the model's own (logs 6, 9). -/
def Obligations.EveryStepKeepsTheInvariant : Prop :=
  ∀ s t : State, s.Inv → step s = .next t → t.Inv

/-- R81: no step from a state that meets the invariant reaches an address outside buffer memory.
The fault it rules out is the model's own (log 12). -/
def Obligations.NoStepLeavesBufferMemory : Prop := ∀ s : State, s.Inv → safeOutcome (step s)

/-- R141 to R143: in a state that meets the invariant the engine's turn completes the pending command,
whatever word it is. -/
def Obligations.PendingCommandCompletes : Prop :=
  ∀ s : State, s.Inv → engineDue s → s.status.busy = true →
    ∃ t, step s = .next t ∧ t.status.busy = false ∧ t.status.done = true ∧
      t.status.lastOp = s.cmd.extractLsb' 0 8

/-- R142: whatever command ran, it ended in the completion update for the code STATUS.ERR then holds, wrote
nothing on the host's side, and left RES alone if that code is an error. -/
def Obligations.EveryCommandEndsInTheCompletionUpdate : Prop :=
  ∀ (i : Instr) (s t : State), exec i s = .next t →
    EndedWith t.status.err s t ∧ (t.status.err ≠ 0 → t.res = s.res)

/-- R144: a command that raises an error changes no slot field, no RES register, no buffer byte and makes no
allocator request that is granted.
A request the allocator answers `none` leaves no trace in `allocLog` (log 5). -/
def Obligations.ErrorsAreAllOrNothing : Prop :=
  ∀ (i : Instr) (s t : State), exec i s = .next t → t.status.err ≠ 0 →
    t.slots = s.slots ∧ t.res = s.res ∧ t.allocLog = s.allocLog ∧ BytesKeptBut nowhere s t

/-- R265: FAULT is sticky: no command and no STATUS write clears it, only a reset. -/
def Obligations.FaultIsSticky : Prop :=
  ∀ s t : State, step s = .next t → s.status.fault = true → ¬ resetDue s → t.status.fault = true

/-- R170: only CREATE makes a slot valid, only DESTROY and reset make one invalid; while a slot stays valid its
geometry, format, ownership and addresses stay; and only SETMASK and ANNOTATE change its plane mask. -/
def Obligations.OnlyCreateAndDestroyChangeDescriptors : Prop :=
  ∀ (s t : State) (a : SlotNo), step s = .next t →
    ((s.slot a).valid = false → (t.slot a).valid = true → executes s (.create a)) ∧
    ((s.slot a).valid = true → (t.slot a).valid = false → executes s (.destroy a) ∨ resetDue s) ∧
    ((s.slot a).valid = true → (t.slot a).valid = true →
      (t.slot a).width = (s.slot a).width ∧ (t.slot a).height = (s.slot a).height ∧
      (t.slot a).fmt = (s.slot a).fmt ∧ (t.slot a).own = (s.slot a).own ∧
      (t.slot a).data = (s.slot a).data ∧ (t.slot a).base = (s.slot a).base ∧
      ((t.slot a).planeMask ≠ (s.slot a).planeMask → executes s (.setmask a) ∨ executes s (.annotate a)) ∧
      ((t.slot a).stride ≠ (s.slot a).stride ∨ (t.slot a).size ≠ (s.slot a).size → executes s (.annotate a)))

/-- R85, R180, R292: a `Free` is requested only by the DESTROY of a valid OwnedAllocation slot, once, with its
`base`; an allocation is granted only to a CREATE in ALLOC mode, executed or abandoned by a reset. R84: it is of
the exact computed size, lies in buffer memory and is disjoint from every valid OwnedAllocation slot's buffer.
The record `allocLog` is the model's own (log 5), that an answer outside R84's law is no answer is its reading
(log 4), and so is a pending CREATE at a reset (log 11). -/
def Obligations.OnlyDestroyFreesAndOnlyCreateAllocates : Prop :=
  ∀ s t : State, step s = .next t →
    t.allocLog = s.allocLog ∨
    (∃ a, executes s (.destroy a) ∧ (s.slot a).valid = true ∧ (s.slot a).own = .ownedAllocation ∧
      t.allocLog = s.allocLog ++ [.free (s.slot a).base] ∧ (t.slot a).valid = false) ∨
    (∃ a b n, (executes s (.create a) ∨ (resetDue s ∧ s.status.busy = true ∧ decode s.cmd = .ok (.create a))) ∧
      requestsAlloc s a n ∧ allocatorMayAnswer s b n ∧ t.allocLog = s.allocLog ++ [.alloc b n])

/-- R43, R180, R209: a byte that a command changes, and nobody raced on, lies in the buffer of the slot a
PUTPIXEL or CONVERT names as its target, or in the buffer a CREATE has just allocated. -/
def Obligations.EngineWritesStayInTheNamedBuffer : Prop :=
  ∀ (i : Instr) (s t : State), s.Inv → exec i s = .next t →
    ∀ a, a ∉ s.port.raced → t.port.mem.read a ≠ s.port.mem.read a →
      (∃ sa, (i = .putpixel sa ∨ ∃ sb, i = .convert sa sb) ∧ (s.slot sa).covers a = true) ∨
      (∃ sa, i = .create sa ∧ (t.slot sa).covers a = true ∧ (t.slot sa).own = .ownedAllocation)

/-- R44, R268: the eight commands that name an existing descriptor raise ContractViolation for an invalid slot
(QUERY after its SEL check, R266). -/
def Obligations.InvalidSlotIsAContractViolation : Prop :=
  ∀ (s : State) (a b : SlotNo), (s.slot a).valid = false →
    ∀ i, i = .annotate a ∨ i = .destroy a ∨ i = .setmask a ∨ (i = .query a ∧ (s.arg 0).toNat ≤ 3) ∨
      i = .getpixel a ∨ i = .putpixel a ∨ i = .pixaddr a ∨ i = .convert a b ∨ i = .convert b a →
    ∃ t, exec i s = .next t ∧ EndedInError .contractViolation s t

/-! ### NOP, VALIDATE, GEOM -/

/-- R145: NOP completes with no error and changes nothing else. -/
def Obligations.NopOnlyCompletes : Prop :=
  ∀ s : State, ∃ t, exec .nop s = .next t ∧ EndedWith 0 s t ∧ t.res = s.res ∧ t.slots = s.slots ∧
    AllocatorKept s t ∧ BytesKeptBut nowhere s t

/-- R159, R150 to R152: VALIDATE puts 1 in RES0 exactly for the accepted tuples, applies no unit default, and
fails only for reserved FMT bits and a FAMILY above 1. -/
def Obligations.ValidateReportsAcceptedTuples : Prop :=
  ∀ s : State, ∃ t, exec .validate s = .next t ∧
    match decodeFmt (s.arg 0) false with
    | .error e => EndedInError e s t
    | .ok f =>
      EndedWith 0 s t ∧ (acceptedTuple f → t.res[0] = 1) ∧ (¬ acceptedTuple f → t.res[0] = 0) ∧
      t.res[1] = s.res[1] ∧ t.res[2] = s.res[2] ∧ t.slots = s.slots ∧ AllocatorKept s t ∧ BytesKeptBut nowhere s t

/-- R160, R154, R155: GEOM puts the stride and the exact 64-bit size of an accepted tuple in RES0 to RES2, and
raises InvalidFormat for a rejected one. -/
def Obligations.GeomReportsStrideAndExactSize : Prop :=
  ∀ s : State, ∃ t, exec .geom s = .next t ∧
    match decodeFmt (s.arg 0) true with
    | .error e => EndedInError e s t
    | .ok f =>
      (¬ acceptedTuple f → EndedInError .invalidFormat s t) ∧
      (acceptedTuple f → EndedWith 0 s t ∧ t.slots = s.slots ∧ AllocatorKept s t ∧ BytesKeptBut nowhere s t ∧
        isStride f ((s.arg 1).extractLsb' 0 16).toNat t.res[0].toNat ∧
        t.res[1].toNat + 2 ^ 32 * t.res[2].toNat =
          scanlines f ((s.arg 1).extractLsb' 16 16).toNat * t.res[0].toNat)

/-- R156: the bounds of stride and size for every accepted tuple and every geometry, and that the words GEOM
and QUERY read back are exact. -/
def Obligations.StrideAndSizeBounds : Prop :=
  ∀ (f : Format) (width height : BitVec 16), f.valid = true →
    (f.family = .planar → (annotate f width.toNat height.toNat).stride ≤ 8192 ∧
      (annotate f width.toNat height.toNat).size ≤ 17179607040) ∧
    (f.family = .packed → (annotate f width.toNat height.toNat).stride ≤ 262140 ∧
      (annotate f width.toNat height.toNat).size ≤ 17179344900) ∧
    (annotate f width.toNat height.toNat).stride < 2 ^ 32 ∧ (annotate f width.toNat height.toNat).size < 2 ^ 34 ∧
    (BitVec.ofNat 32 (annotate f width.toNat height.toNat).stride).toNat =
      (annotate f width.toNat height.toNat).stride ∧
    (sizeLow (annotate f width.toNat height.toNat).size).toNat +
      2 ^ 32 * (sizeHigh (annotate f width.toNat height.toNat).size).toNat =
        (annotate f width.toNat height.toNat).size

/-! ### CREATE, ANNOTATE, DESTROY, SETMASK, QUERY -/

/-- R171, R174: CREATE in DEFER mode makes a geometry-only descriptor. -/
def Obligations.CreateDefersTheBuffer : Prop :=
  ∀ (s : State) (a : SlotNo) (f : Format), decodeFmt (s.arg 0) true = .ok f → acceptedTuple f →
    (s.slot a).valid = false → s.arg 2 = 0 →
    ∃ t, exec (.create a) s = .next t ∧ EndedWith 0 s t ∧
      OnlySlot s t a (createdSlot f (s.arg 1) .unallocated 0 0) ∧
      t.res = s.res ∧ AllocatorKept s t ∧ BytesKeptBut nowhere s t

/-- R171, R174: CREATE in BORROW mode takes DATA as it is, if the declared size and the range fit. -/
def Obligations.CreateBorrowsTheBuffer : Prop :=
  ∀ (s : State) (a : SlotNo) (f : Format), decodeFmt (s.arg 0) true = .ok f → acceptedTuple f →
    (s.slot a).valid = false → s.arg 2 = 1 → computedSize f (s.arg 1) ≤ (s.arg 5).toNat →
    (s.arg 3).toNat + computedSize f (s.arg 1) ≤ 2 ^ 32 →
    ∃ t, exec (.create a) s = .next t ∧ EndedWith 0 s t ∧
      OnlySlot s t a (createdSlot f (s.arg 1) .borrowedView (s.arg 3) 0) ∧
      t.res = s.res ∧ AllocatorKept s t ∧ BytesKeptBut nowhere s t

/-- R171, R174, R86: CREATE in STORAGE mode takes BASE, borrowed (MODE 2) or owned (MODE 6); a declared size of
0 stands for the computed one. -/
def Obligations.CreateTakesStorage : Prop :=
  ∀ (s : State) (a : SlotNo) (f : Format), decodeFmt (s.arg 0) true = .ok f → acceptedTuple f →
    (s.slot a).valid = false → (s.arg 5 = 0 ∨ computedSize f (s.arg 1) ≤ (s.arg 5).toNat) →
    (s.arg 4).toNat + computedSize f (s.arg 1) ≤ 2 ^ 32 →
    (s.arg 2 = 2 → ∃ t, exec (.create a) s = .next t ∧ EndedWith 0 s t ∧
      OnlySlot s t a (createdSlot f (s.arg 1) .borrowedView (s.arg 4) 0) ∧
      t.res = s.res ∧ AllocatorKept s t ∧ BytesKeptBut nowhere s t) ∧
    (s.arg 2 = 6 → ∃ t, exec (.create a) s = .next t ∧ EndedWith 0 s t ∧
      OnlySlot s t a (createdSlot f (s.arg 1) .ownedAllocation (s.arg 4) (s.arg 4)) ∧
      t.res = s.res ∧ AllocatorKept s t ∧ BytesKeptBut nowhere s t)

/-- R171, R174, R84: CREATE in ALLOC mode takes the allocator's address; bytes outside the fresh allocation keep
their values.
The answer stands in the model's `allocAnswers`, the request in its `allocLog` (logs 4, 5). -/
def Obligations.CreateAllocates : Prop :=
  ∀ (s : State) (a : SlotNo) (f : Format) (p : Word) (rest : List (Option Word)),
    decodeFmt (s.arg 0) true = .ok f → acceptedTuple f → (s.slot a).valid = false → s.arg 2 = 3 →
    s.allocAnswers = some p :: rest → allocatorMayAnswer s p (computedSize f (s.arg 1)) →
    ∃ t, exec (.create a) s = .next t ∧ EndedWith 0 s t ∧
      OnlySlot s t a (createdSlot f (s.arg 1) .ownedAllocation p p) ∧ t.res = s.res ∧
      t.allocAnswers = rest ∧ t.allocLog = s.allocLog ++ [.alloc p (computedSize f (s.arg 1))] ∧
      BytesKeptBut (fun k => p.toNat ≤ k ∧ k < p.toNat + computedSize f (s.arg 1)) s t

/-- R266: which error CREATE reports, in the order of its checks.
The allocator's `none` stands in the model's `allocAnswers` (log 4). -/
def Obligations.CreateReportsTheFirstFailingCheck : Prop :=
  ∀ (s : State) (a : SlotNo),
    (8 ≤ (s.arg 2).toNat ∨ ((s.arg 2).getLsbD 2 = true ∧ (s.arg 2).extractLsb' 0 2 ≠ 2) →
      ∃ t, exec (.create a) s = .next t ∧ EndedInError .illegalCommand s t) ∧
    ((s.arg 2).toNat ∈ [0, 1, 2, 3, 6] →
      (∀ e, decodeFmt (s.arg 0) true = .error e → ∃ t, exec (.create a) s = .next t ∧ EndedInError e s t) ∧
      (∀ f, decodeFmt (s.arg 0) true = .ok f →
        ((s.slot a).valid = true → ∃ t, exec (.create a) s = .next t ∧ EndedInError .contractViolation s t) ∧
        ((s.slot a).valid = false →
          (¬ acceptedTuple f → ∃ t, exec (.create a) s = .next t ∧ EndedInError .invalidFormat s t) ∧
          (acceptedTuple f →
            (s.arg 2 = 1 ∧ ((s.arg 5).toNat < computedSize f (s.arg 1) ∨
                2 ^ 32 < (s.arg 3).toNat + computedSize f (s.arg 1)) ∨
              (s.arg 2 = 2 ∨ s.arg 2 = 6) ∧
                ((s.arg 5 ≠ 0 ∧ (s.arg 5).toNat < computedSize f (s.arg 1)) ∨
                2 ^ 32 < (s.arg 4).toNat + computedSize f (s.arg 1)) →
              ∃ t, exec (.create a) s = .next t ∧ EndedInError .bufferTooSmall s t) ∧
            (s.arg 2 = 3 → (∃ rest, s.allocAnswers = none :: rest) →
              ∃ t, exec (.create a) s = .next t ∧ EndedWith Err.allocationFailure.code s t ∧ t.res = s.res ∧
                t.slots = s.slots ∧ t.allocLog = s.allocLog ∧ BytesKeptBut nowhere s t)))))

/-- R176, R41: ANNOTATE of a valid slot restores the full plane mask of a Planar slot and changes no other field
of any slot. -/
def Obligations.AnnotateRestoresTheFullMask : Prop :=
  ∀ (s : State) (a : SlotNo), (s.slot a).valid = true → (s.slot a).Ok →
    ∃ t, exec (.annotate a) s = .next t ∧ EndedWith 0 s t ∧
      OnlySlot s t a { s.slot a with planeMask := match (s.slot a).fmt.family with
        | .planar => BitVec.ofNat 32 (2 ^ (s.slot a).fmt.depth.toNat - 1)
        | .packed => 0 } ∧
      t.res = s.res ∧ AllocatorKept s t ∧ BytesKeptBut nowhere s t

/-- R177, R180, R85: DESTROY of a valid slot invalidates it, frees `base` exactly once if the slot owns its
buffer and nothing else if not, and writes no byte. -/
def Obligations.DestroyReleasesTheSlot : Prop :=
  ∀ (s : State) (a : SlotNo), (s.slot a).valid = true →
    ∃ t, exec (.destroy a) s = .next t ∧ EndedWith 0 s t ∧ (t.slot a).valid = false ∧
      (∀ b, b ≠ a → t.slot b = s.slot b) ∧ t.res = s.res ∧ t.allocAnswers = s.allocAnswers ∧
      ((s.slot a).own = .ownedAllocation → t.allocLog = s.allocLog ++ [.free (s.slot a).base]) ∧
      ((s.slot a).own ≠ .ownedAllocation → t.allocLog = s.allocLog) ∧ BytesKeptBut nowhere s t

/-- R178: SETMASK keeps MASK's bits below `depth` for a Planar slot and changes nothing for a Packed one. -/
def Obligations.SetmaskNarrowsThePlaneMask : Prop :=
  ∀ (s : State) (a : SlotNo), (s.slot a).valid = true → (s.slot a).fmt.depth.toNat ≤ 32 →
    ∃ t, exec (.setmask a) s = .next t ∧ EndedWith 0 s t ∧
      (∀ b, b ≠ a → t.slot b = s.slot b) ∧ t.slot a = { s.slot a with planeMask := (t.slot a).planeMask } ∧
      ((s.slot a).fmt.family = .planar → ∀ j, (t.slot a).planeMask.getLsbD j =
        (decide (j < (s.slot a).fmt.depth.toNat) && (s.arg 0).getLsbD j)) ∧
      ((s.slot a).fmt.family = .packed → t.slot a = s.slot a) ∧
      t.res = s.res ∧ AllocatorKept s t ∧ BytesKeptBut nowhere s t

/-- R179: what QUERY returns for each selector of a valid slot, and IllegalCommand for a selector above 3. -/
def Obligations.QueryReadsTheSlot : Prop :=
  ∀ (s : State) (a : SlotNo),
    (3 < (s.arg 0).toNat → ∃ t, exec (.query a) s = .next t ∧ EndedInError .illegalCommand s t) ∧
    ((s.arg 0).toNat ≤ 3 → (s.slot a).valid = true → (s.slot a).Ok →
      ∃ t, exec (.query a) s = .next t ∧ EndedWith 0 s t ∧ t.slots = s.slots ∧ AllocatorKept s t ∧
        BytesKeptBut nowhere s t ∧
        (s.arg 0 = 0 → t.res[0].toNat = (s.slot a).stride ∧
          t.res[1].toNat + 2 ^ 32 * t.res[2].toNat = (s.slot a).size) ∧
        (s.arg 0 = 1 → t.res[0] = (s.slot a).planeMask ∧ t.res[2] = 0 ∧
          ((s.slot a).own = .unallocated → t.res[1] = 0) ∧ ((s.slot a).own = .borrowedView → t.res[1] = 1) ∧
          ((s.slot a).own = .ownedAllocation → t.res[1] = 2)) ∧
        (s.arg 0 = 2 → t.res[0] = (s.slot a).data ∧ t.res[1] = (s.slot a).base ∧ t.res[2] = 0) ∧
        (s.arg 0 = 3 → decodeFmt t.res[0] false = .ok (s.slot a).fmt ∧
          t.res[1].extractLsb' 0 16 = (s.slot a).width ∧ t.res[1].extractLsb' 16 16 = (s.slot a).height ∧
          t.res[2] = 0))

/-! ### GETPIXEL, PUTPIXEL, PIXADDR -/

/-- R195, R194: GETPIXEL of an accessible Packed pixel nobody raced on puts the value R194 gives its bytes in
RES0.
A raced byte reads as a draw (log 9). -/
def Obligations.GetpixelReadsAPackedPixel : Prop :=
  ∀ (s : State) (a : SlotNo), (s.slot a).Ok → (s.slot a).fmt.family = .packed →
    accessible (s.slot a) (s.arg 0).toNat (s.arg 1).toNat → unraced s (s.slot a) →
    ∃ t, exec (.getpixel a) s = .next t ∧ EndedWith 0 s t ∧ t.slots = s.slots ∧ AllocatorKept s t ∧
      BytesKeptBut nowhere s t ∧ t.res[1] = s.res[1] ∧ t.res[2] = s.res[2] ∧
      t.res[0] = packedGet (s.slot a) (s.arg 0).toNat
        (fun i => s.port.mem.read (packedByteAddr (s.slot a) (s.arg 0).toNat (s.arg 1).toNat i))

/-- R195, R187 to R191: GETPIXEL of an accessible Planar pixel nobody raced on gathers, for each plane block the
mask keeps, the bit R187 and R188 place there; excluded planes and bits from `depth` on read 0. -/
def Obligations.GetpixelGathersAPlanarPixel : Prop :=
  ∀ (s : State) (a : SlotNo), (s.slot a).Ok → (s.slot a).fmt.family = .planar →
    accessible (s.slot a) (s.arg 0).toNat (s.arg 1).toNat → unraced s (s.slot a) →
    ∃ t, exec (.getpixel a) s = .next t ∧ EndedWith 0 s t ∧ t.slots = s.slots ∧ AllocatorKept s t ∧
      BytesKeptBut nowhere s t ∧ t.res[1] = s.res[1] ∧ t.res[2] = s.res[2] ∧
      (∀ k, k < (s.slot a).fmt.depth.toNat → t.res[0].getLsbD (planeBit (s.slot a) k) =
        ((s.slot a).planeMask.getLsbD (planeBit (s.slot a) k) &&
          (s.port.mem.read ((s.slot a).data.toNat +
            planarOffset (s.slot a) k (s.arg 0).toNat (s.arg 1).toNat)).getLsbD
            (bitPos (s.slot a) (s.arg 0).toNat))) ∧
      (∀ j, (s.slot a).fmt.depth.toNat ≤ j → t.res[0].getLsbD j = false)

/-- R196, R194: PUTPIXEL of an accessible Packed pixel stores the bytes R194 lists and changes no other byte. -/
def Obligations.PutpixelWritesAPackedPixel : Prop :=
  ∀ (s : State) (a : SlotNo), (s.slot a).Ok → (s.slot a).fmt.family = .packed →
    accessible (s.slot a) (s.arg 0).toNat (s.arg 1).toNat →
    ∃ t, exec (.putpixel a) s = .next t ∧ EndedWith 0 s t ∧ t.slots = s.slots ∧ t.res = s.res ∧
      AllocatorKept s t ∧
      BytesKeptBut (fun k => ∃ i, i < packedByteCount (s.slot a) ∧
        k = packedByteAddr (s.slot a) (s.arg 0).toNat (s.arg 1).toNat i) s t ∧
      ∀ i k, i < packedByteCount (s.slot a) →
        k = packedByteAddr (s.slot a) (s.arg 0).toNat (s.arg 1).toNat i → k ∉ s.port.raced →
        t.port.mem.read k = packedPut (s.slot a) (s.arg 0).toNat (s.arg 2) (s.port.mem.read k) i

/-- R196, R190, R192: PUTPIXEL of an accessible Planar pixel stores, for each plane block the mask keeps, one bit
of the value, and changes no other bit of any byte. -/
def Obligations.PutpixelScattersAPlanarPixel : Prop :=
  ∀ (s : State) (a : SlotNo), (s.slot a).Ok → (s.slot a).fmt.family = .planar →
    accessible (s.slot a) (s.arg 0).toNat (s.arg 1).toNat →
    ∃ t, exec (.putpixel a) s = .next t ∧ EndedWith 0 s t ∧ t.slots = s.slots ∧ t.res = s.res ∧
      AllocatorKept s t ∧
      BytesKeptBut (fun b => ∃ k, planeKept (s.slot a) k ∧
        b = (s.slot a).data.toNat + planarOffset (s.slot a) k (s.arg 0).toNat (s.arg 1).toNat) s t ∧
      ∀ k b j, planeKept (s.slot a) k →
        b = (s.slot a).data.toNat + planarOffset (s.slot a) k (s.arg 0).toNat (s.arg 1).toNat →
        b ∉ s.port.raced → j < 8 →
        (t.port.mem.read b).getLsbD j =
          if j = bitPos (s.slot a) (s.arg 0).toNat then (s.arg 2).getLsbD (planeBit (s.slot a) k)
          else (s.port.mem.read b).getLsbD j

/-- R198: PUTPIXEL followed by GETPIXEL of the same pixel returns `v mod 2^bpp` for Packed and `v AND planeMask`
for Planar. -/
def Obligations.PutThenGetRoundTrip : Prop :=
  ∀ (s : State) (a : SlotNo), (s.slot a).Ok → accessible (s.slot a) (s.arg 0).toNat (s.arg 1).toNat →
    unraced s (s.slot a) →
    ∃ t u, exec (.putpixel a) s = .next t ∧ exec (.getpixel a) t = .next u ∧
      u.status.err = 0 ∧ u.res[0] = storedPart (s.slot a) (s.arg 2)

/-- R198: a PUTPIXEL changes the value of no other pixel of a slot that never aliases (R199). -/
def Obligations.PutpixelLeavesOtherPixels : Prop :=
  ∀ (s t : State) (a : SlotNo), (s.slot a).Ok → neverAliases (s.slot a) →
    accessible (s.slot a) (s.arg 0).toNat (s.arg 1).toNat → unraced s (s.slot a) →
    exec (.putpixel a) s = .next t →
    ∀ x y, accessible (s.slot a) x y → (x, y) ≠ ((s.arg 0).toNat, (s.arg 1).toNat) →
      pixelIn t (s.slot a) x y = pixelIn s (s.slot a) x y

/-- R186, R189, R197, R266: GETPIXEL and PUTPIXEL of a valid slot raise ContractViolation for a pixel out of
bounds, for an Unallocated slot and for a pixel with a piece outside the buffer; PIXADDR raises it for a pixel
out of bounds. -/
def Obligations.InaccessiblePixelIsAContractViolation : Prop :=
  (∀ (s : State) (a : SlotNo), (s.slot a).Ok → (s.slot a).valid = true →
    ¬ accessible (s.slot a) (s.arg 0).toNat (s.arg 1).toNat →
    (∃ t, exec (.getpixel a) s = .next t ∧ EndedInError .contractViolation s t) ∧
    (∃ t, exec (.putpixel a) s = .next t ∧ EndedInError .contractViolation s t)) ∧
  (∀ (s : State) (a : SlotNo), (s.slot a).valid = true →
    ((s.slot a).width.toNat ≤ (s.arg 0).toNat ∨ (s.slot a).height.toNat ≤ (s.arg 1).toNat) →
    ∃ t, exec (.pixaddr a) s = .next t ∧ EndedInError .contractViolation s t)

/-- R197, R187, R188: PIXADDR of a Planar pixel reports the plane block's byte, the bit in it and the pixel bit the
plane carries, without the buffer check; a plane the slot has not is a ContractViolation. -/
def Obligations.PixaddrLocatesAPlanarPixel : Prop :=
  ∀ (s : State) (a : SlotNo), (s.slot a).valid = true → (s.slot a).fmt.family = .planar →
    (s.arg 0).toNat < (s.slot a).width.toNat → (s.arg 1).toNat < (s.slot a).height.toNat →
    (acceptedTuple (s.slot a).fmt) →
    ((s.slot a).fmt.depth.toNat ≤ (s.arg 2).toNat →
      ∃ t, exec (.pixaddr a) s = .next t ∧ EndedInError .contractViolation s t) ∧
    ((s.arg 2).toNat < (s.slot a).fmt.depth.toNat →
      ∃ t, exec (.pixaddr a) s = .next t ∧ EndedWith 0 s t ∧ t.slots = s.slots ∧ AllocatorKept s t ∧
        BytesKeptBut nowhere s t ∧
        t.res[0] = BitVec.ofNat 32 ((s.arg 2).toNat * (s.slot a).stride * (s.slot a).height.toNat +
          (s.arg 1).toNat * (s.slot a).stride +
          ((s.arg 0).toNat / 8 ^^^ match (s.slot a).fmt.byteOrder with
            | .msbFirst => (s.slot a).fmt.unit.toNat / 8 - 1
            | .lsbFirst => 0)) ∧
        t.res[1].toNat = 256 + (match (s.slot a).fmt.bitOrder with
          | .msbFirst => 7 - (s.arg 0).toNat % 8
          | .lsbFirst => (s.arg 0).toNat % 8) ∧
        t.res[2].toNat = (match (s.slot a).fmt.bitOrder with
          | .msbFirst => (s.slot a).fmt.depth.toNat - 1 - (s.arg 2).toNat
          | .lsbFirst => (s.arg 2).toNat))

/-- R197, R193: PIXADDR of a Packed pixel reports its first byte, its byte count and its shift. -/
def Obligations.PixaddrLocatesAPackedPixel : Prop :=
  ∀ (s : State) (a : SlotNo), (s.slot a).valid = true → (s.slot a).Ok → (s.slot a).fmt.family = .packed →
    (s.arg 0).toNat < (s.slot a).width.toNat → (s.arg 1).toNat < (s.slot a).height.toNat →
    ∃ t, exec (.pixaddr a) s = .next t ∧ EndedWith 0 s t ∧ t.slots = s.slots ∧ AllocatorKept s t ∧
      BytesKeptBut nowhere s t ∧ t.res[2] = 0 ∧
      ((s.slot a).fmt.bpp = 4 →
        t.res[0] = BitVec.ofNat 32 ((s.arg 1).toNat * (s.slot a).stride + (s.arg 0).toNat / 2) ∧
        t.res[1].toNat = 256 + (if ((s.arg 0).toNat % 2 = 0 ↔ (s.slot a).fmt.byteOrder = .msbFirst) then 4 else 0)) ∧
      ((s.slot a).fmt.bpp ≠ 4 →
        t.res[0] = BitVec.ofNat 32 ((s.arg 1).toNat * (s.slot a).stride +
          (s.slot a).fmt.bpp.toNat / 8 * (s.arg 0).toNat) ∧
        t.res[1].toNat = 256 * ((s.slot a).fmt.bpp.toNat / 8))

/-! ### PERMLOOKUP and BYTEXFORM -/

/-- R202, R212: PERMLOOKUP returns the entry the nine tables list for class codes `a`, `b` and byte index `i`. -/
def Obligations.PermlookupReadsTheNineTables : Prop :=
  ∀ (s : State) (a b i : Nat), a < 3 → b < 3 → i < 4 → s.arg 0 = BitVec.ofNat 32 (a + 4 * b + 16 * i) →
    ∃ t, exec .permlookup s = .next t ∧ EndedWith 0 s t ∧ t.slots = s.slots ∧ AllocatorKept s t ∧
      BytesKeptBut nowhere s t ∧ t.res[1] = s.res[1] ∧ t.res[2] = s.res[2] ∧
      some t.res[0].toNat = ([[[0, 1, 2, 3], [1, 0, 3, 2], [3, 2, 1, 0]],
        [[1, 0, 3, 2], [0, 1, 2, 3], [2, 3, 0, 1]],
        [[3, 2, 1, 0], [2, 3, 0, 1], [0, 1, 2, 3]]][a]?.bind (·[b]?)).bind (·[i]?)

/-- R108, R112, R212, R213: PERMLOOKUP raises IllegalCommand for a reserved bit or class code 3, BYTEXFORM for a
reserved bit. -/
def Obligations.IllegalPermAndXfWords : Prop :=
  ∀ s : State,
    (64 ≤ (s.arg 0).toNat ∨ (s.arg 0).toNat % 4 = 3 ∨ (s.arg 0).toNat / 4 % 4 = 3 →
      ∃ t, exec .permlookup s = .next t ∧ EndedInError .illegalCommand s t) ∧
    (1024 ≤ (s.arg 0).toNat → ∃ t, exec .bytexform s = .next t ∧ EndedInError .illegalCommand s t)

/-- R203: every permutation table is self-inverse. R204: the tables are symmetric and the diagonal is the
identity. -/
def Obligations.PermTablesAreSelfInverse : Prop :=
  ∀ (a b : UnitClass) (i : Nat), perm a b (perm a b i) = i ∧ perm a b i = perm b a i ∧ perm a a i = i

/-- R207, R213: bit `i` of BYTEXFORM's result is bit `i XOR 7` of the byte with BITSWAP, `i XOR 4` with NIBSWAP,
`i XOR 3` with both, `i` with neither; the rest of RES0 is 0. -/
def Obligations.BytexformMovesTheBits : Prop :=
  ∀ s : State, (s.arg 0).toNat < 1024 →
    ∃ t, exec .bytexform s = .next t ∧ EndedWith 0 s t ∧ t.slots = s.slots ∧ AllocatorKept s t ∧
      BytesKeptBut nowhere s t ∧ t.res[1] = s.res[1] ∧ t.res[2] = s.res[2] ∧
      (∀ i, i < 8 → t.res[0].getLsbD i = (s.arg 0).getLsbD
        (i ^^^ (if (s.arg 0).getLsbD 8 then 7 else 0) ^^^ (if (s.arg 0).getLsbD 9 then 4 else 0))) ∧
      (∀ i, 8 ≤ i → t.res[0].getLsbD i = false)

/-! ### CONVERT -/

/-- R232, R242, R231: with identical layouts CONVERT takes strategy 1 and the destination's bytes become the
source's, byte for byte; no other byte changes. -/
def Obligations.ConvertCopiesIdenticalLayouts : Prop :=
  ∀ (s : State) (a b : SlotNo), (s.slot a).Ok → (s.slot b).Ok → convertible (s.slot b) (s.slot a) →
    unraced s (s.slot b) → unraced s (s.slot a) → identicalLayout (s.slot b) (s.slot a) →
    ∃ t, exec (.convert a b) s = .next t ∧ EndedWith 0 s t ∧ t.slots = s.slots ∧ AllocatorKept s t ∧
      t.res[0] = 1 ∧ t.res[1] = 0 ∧ t.res[2] = s.res[2] ∧
      BytesKeptBut (fun k => (s.slot a).covers k = true) s t ∧ (s.slot a).size = (s.slot b).size ∧
      ∀ i, i < (s.slot b).size →
        t.port.mem.read ((s.slot a).data.toNat + i) = s.port.mem.read ((s.slot b).data.toNat + i)

/-- R208, R211, R230, R233, R234: with strategy 2 or 3 each byte of each destination scanline comes from the byte
of the source scanline its position XOR `m` names, transformed, or keeps its value where the source scanline
has no such byte; no byte outside the destination changes. -/
def Obligations.ConvertBulkCopiesThroughTheMask : Prop :=
  ∀ (s : State) (a b : SlotNo) (k : Strategy), (s.slot a).Ok → (s.slot b).Ok →
    convertible (s.slot b) (s.slot a) → unraced s (s.slot b) → unraced s (s.slot a) →
    k = select (s.slot b) (s.slot a) → k.number = 2 ∨ k.number = 3 →
    ∃ t, exec (.convert a b) s = .next t ∧ EndedWith 0 s t ∧ t.slots = s.slots ∧ AllocatorKept s t ∧
      t.res[0].toNat = k.number ∧ t.res[2] = s.res[2] ∧
      t.res[1].toNat = (if k.nibswap then 512 else 0) + (if k.bitswap then 256 else 0) + k.mask ∧
      BytesKeptBut (fun c => (s.slot a).covers c = true) s t ∧
      ∀ r j, r < rowsOf (s.slot b) → j < (s.slot a).stride →
        t.port.mem.read ((s.slot a).data.toNat + r * (s.slot a).stride + j) =
          if j ^^^ k.mask < (s.slot b).stride then
            xf (s.port.mem.read ((s.slot b).data.toNat + r * (s.slot b).stride + (j ^^^ k.mask)))
              k.bitswap k.nibswap
          else s.port.mem.read ((s.slot a).data.toNat + r * (s.slot a).stride + j)

/-- R230, R228, R235, R244: which strategy is selected, in the rule's order, with its parameters: for every
pair of slots one of the four cases, the mask from `F(EC)` of both where the rule computes one. Then the pairs
R235 and R244 name as taking strategy 4. -/
def Obligations.SelectTakesTheCheapestStrategy : Prop :=
  ∀ S D : Slot,
    (identicalLayout S D → select S D = ⟨1, 0, false, false⟩) ∧
    (¬ identicalLayout S D → bitmapPair S D →
      ∃ m, select S D = ⟨2, m, decide (S.fmt.bitOrder ≠ D.fmt.bitOrder), false⟩ ∧
        (acceptedTuple S.fmt → acceptedTuple D.fmt → m = classFlip S ^^^ classFlip D)) ∧
    (¬ identicalLayout S D → ¬ bitmapPair S D → orderPair S D →
      ∃ m, select S D = ⟨3, m, decide (S.fmt.family = .planar ∧ S.fmt.bitOrder ≠ D.fmt.bitOrder),
          decide (S.fmt.family = .packed ∧ S.fmt.bpp = 4 ∧ S.fmt.byteOrder ≠ D.fmt.byteOrder)⟩ ∧
        (S.fmt.family = .packed → S.fmt.bpp = 24 → m = 0) ∧
        (S.fmt.family = .planar ∨ S.fmt.bpp ≠ 24 → acceptedTuple S.fmt → acceptedTuple D.fmt →
          m = classFlip S ^^^ classFlip D)) ∧
    (¬ identicalLayout S D → ¬ bitmapPair S D → ¬ orderPair S D → select S D = ⟨4, 0, false, false⟩) ∧
    (S.fmt.family ≠ D.fmt.family → (select S D).number = 4) ∧
    (S.fmt.family = .packed → D.fmt.family = .packed → S.fmt.bpp ≠ D.fmt.bpp → (select S D).number = 4) ∧
    (S.fmt.family = .packed → D.fmt.family = .packed → S.fmt.bpp = 24 → D.fmt.bpp = 24 →
      S.fmt.byteOrder ≠ D.fmt.byteOrder → (select S D).number = 4) ∧
    (S.fmt.family = .planar → D.fmt.family = .planar → 1 < S.fmt.depth.toNat →
      S.fmt.unit ≠ D.fmt.unit ∨ S.fmt.pad ≠ D.fmt.pad ∨ S.fmt.bpp ≠ D.fmt.bpp → (select S D).number = 4)

/-- R237, R233, R234, R239: pixel values after a conversion by strategy 2 or 3. Between Packed slots every pixel
keeps its value. Between Planar slots that do not alias (R199) and keep every plane, a pixel keeps its value
under strategy 2 and under strategy 3 with equal bit orders; under strategy 3 with different bit orders it
arrives reversed over `depth` bits. -/
def Obligations.ConvertBulkCopyPixelValues : Prop :=
  ∀ (s t : State) (a b : SlotNo) (k : Strategy), (s.slot a).Ok → (s.slot b).Ok →
    convertible (s.slot b) (s.slot a) → unraced s (s.slot b) → unraced s (s.slot a) →
    k = select (s.slot b) (s.slot a) → k.number = 2 ∨ k.number = 3 → exec (.convert a b) s = .next t →
    ∀ x y, x < (s.slot b).width.toNat → y < (s.slot b).height.toNat →
      ((s.slot b).fmt.family = .packed → pixelIn t (s.slot a) x y = pixelIn s (s.slot b) x y) ∧
      ((s.slot b).fmt.family = .planar → neverAliases (s.slot b) → neverAliases (s.slot a) →
        fullMask (s.slot b) → fullMask (s.slot a) →
        (k.number = 2 ∨ (s.slot b).fmt.bitOrder = (s.slot a).fmt.bitOrder →
          pixelIn t (s.slot a) x y = pixelIn s (s.slot b) x y) ∧
        (k.number = 3 → (s.slot b).fmt.bitOrder ≠ (s.slot a).fmt.bitOrder →
          isPlaneReversal (s.slot b).fmt.depth.toNat (pixelIn s (s.slot b) x y) (pixelIn t (s.slot a) x y)))

/-- R225, R236, R237, R240: a strategy-4 conversion all of whose pixels lie in both buffers completes. Every bit
that stores no bit of a destination pixel (a plane the mask excludes, padding, a byte outside the buffer)
keeps its value. A bit that stores bit `i` of a pixel becomes bit `i` of the source's pixel, the last in the
loop's order where two pixels share it. So into a destination that never aliases (R199) every pixel is the
source's value restricted to the bits the destination stores. -/
def Obligations.ConvertFallbackKeepsPixels : Prop :=
  ∀ (s : State) (a b : SlotNo), (s.slot a).Ok → (s.slot b).Ok → convertible (s.slot b) (s.slot a) →
    unraced s (s.slot b) → unraced s (s.slot a) → (select (s.slot b) (s.slot a)).number = 4 →
    (∀ x y, x < (s.slot b).width.toNat → y < (s.slot b).height.toNat →
      piecesInside (s.slot b) x y = true ∧ piecesInside (s.slot a) x y = true) →
    ∃ t, exec (.convert a b) s = .next t ∧ EndedWith 0 s t ∧ t.slots = s.slots ∧ AllocatorKept s t ∧
      t.res[0] = 4 ∧ t.res[1] = 0 ∧ t.res[2] = s.res[2] ∧
      BytesKeptBut (fun k => (s.slot a).covers k = true) s t ∧
      (∀ c j, j < 8 → c ∉ s.port.raced →
        (∀ x y i, x < (s.slot b).width.toNat → y < (s.slot b).height.toNat → ¬ storesBit (s.slot a) x y i c j) →
        (t.port.mem.read c).getLsbD j = (s.port.mem.read c).getLsbD j) ∧
      (∀ x y i c j, x < (s.slot b).width.toNat → y < (s.slot b).height.toNat → storesBit (s.slot a) x y i c j →
        (∀ x' y' i', x' < (s.slot b).width.toNat → y' < (s.slot b).height.toNat → comesLater x y x' y' →
          ¬ storesBit (s.slot a) x' y' i' c j) →
        (t.port.mem.read c).getLsbD j = (pixelIn s (s.slot b) x y).getLsbD i) ∧
      (neverAliases (s.slot a) → ∀ x y, x < (s.slot b).width.toNat → y < (s.slot b).height.toNat →
        pixelIn t (s.slot a) x y = storedPart (s.slot a) (pixelIn s (s.slot b) x y))

/-- R266, R226, R227, R229: which error CONVERT reports, in the order of its checks. -/
def Obligations.ConvertReportsTheFirstFailingCheck : Prop :=
  ∀ (s : State) (a b : SlotNo),
    ((s.slot a).valid = false ∨ (s.slot b).valid = false ∨ (s.slot a).own = .unallocated ∨
        (s.slot b).own = .unallocated →
      ∃ t, exec (.convert a b) s = .next t ∧ EndedInError .contractViolation s t) ∧
    ((s.slot a).valid = true → (s.slot b).valid = true → (s.slot a).own ≠ .unallocated →
      (s.slot b).own ≠ .unallocated →
      ((s.slot b).fmt.depth ≠ (s.slot a).fmt.depth ∨ (s.slot b).width ≠ (s.slot a).width ∨
          (s.slot b).height ≠ (s.slot a).height →
        ∃ t, exec (.convert a b) s = .next t ∧ EndedInError .incompatibleGeometry s t) ∧
      ((s.slot b).fmt.depth = (s.slot a).fmt.depth → (s.slot b).width = (s.slot a).width →
        (s.slot b).height = (s.slot a).height →
        (¬ buffersDisjoint (s.slot b) (s.slot a) →
          ∃ t, exec (.convert a b) s = .next t ∧ EndedInError .contractViolation s t) ∧
        (buffersDisjoint (s.slot b) (s.slot a) → (select (s.slot b) (s.slot a)).number = 4 →
          (∃ x y, x < (s.slot b).width.toNat ∧ y < (s.slot b).height.toNat ∧
            (piecesInside (s.slot b) x y = false ∨ piecesInside (s.slot a) x y = false)) →
          ∃ t, exec (.convert a b) s = .next t ∧ EndedInError .contractViolation s t)))
end

