-- ==== Sys2Proof/Laws/Memory.lean ====
section
/-! SUPPORT. The laws of buffer memory: read after write, and the canonical form every operation keeps
(spec/20_memory.md R72). -/
namespace Sys2Proof.Machine

theorem Memory.read_insert (m : Memory) (a b : Nat) (v : Byte) :
    (m.insert a v).read b = if b = a then v else m.read b := by
  induction m with
  | nil => simp [Memory.insert, Memory.read]
  | cons c m ih =>
    obtain ⟨k, w⟩ := c
    simp only [Memory.insert]
    split
    · simp [Memory.read]
    · split
      · next h => subst h; simp only [Memory.read]; split <;> simp_all
      · next h1 h2 =>
        simp only [Memory.read, ih]
        by_cases hk : b = k
        · subst hk; simp [Ne.symm h2]
        · simp [hk]

theorem Memory.read_erase (m : Memory) (a b : Nat) :
    (m.erase a).read b = if b = a then unlistedByte else m.read b := by
  induction m with
  | nil => simp [Memory.erase, Memory.read]
  | cons c m ih =>
    obtain ⟨k, w⟩ := c
    simp only [Memory.erase]
    split
    · next h => subst h; simp only [ih, Memory.read]; split <;> simp_all
    · next h =>
      simp only [Memory.read, ih]
      by_cases hk : b = k
      · subst hk; simp [Ne.symm h]
      · simp [hk]

/-- All that a write does: the written byte, where the address exists, and no other. -/
theorem Memory.read_write (m : Memory) (a b : Nat) (v : Byte) :
    (m.write a v).read b = if b = a ∧ a < Config.addrSpace then v else m.read b := by
  simp only [Memory.write]
  split
  · next h =>
    split
    · next hv => subst hv; simp only [Memory.read_erase]; split <;> simp_all
    · simp only [Memory.read_insert]; split <;> simp_all
  · next h => simp [h]

theorem Memory.read_write_same (m : Memory) {a : Nat} (v : Byte) (h : a < Config.addrSpace) :
    (m.write a v).read a = v := by
  rw [Memory.read_write]; simp [h]

theorem Memory.read_write_other (m : Memory) {a b : Nat} (v : Byte) (h : b ≠ a) :
    (m.write a v).read b = m.read b := by
  rw [Memory.read_write]; simp [h]

/-! ### The canonical form -/

theorem Memory.wf_cons {a : Nat} {v : Byte} {m : Memory} :
    Memory.wf ((a, v) :: m) = true ↔
      a < Config.addrSpace ∧ v ≠ unlistedByte ∧ (∀ c ∈ m, a < c.1) ∧ Memory.wf m = true := by
  simp [Memory.wf, and_assoc]

theorem Memory.mem_insert {m : Memory} {a : Nat} {v : Byte} {c : Host.Cell} (h : c ∈ m.insert a v) :
    c = (a, v) ∨ c ∈ m := by
  induction m with
  | nil => simpa [Memory.insert] using h
  | cons k m ih =>
    obtain ⟨b, w⟩ := k
    simp only [Memory.insert] at h
    split at h
    · simpa using h
    · split at h
      · simp only [List.mem_cons] at h ⊢; tauto
      · simp only [List.mem_cons] at h ⊢
        rcases h with h | h
        · tauto
        · have := ih h; tauto

theorem Memory.mem_erase {m : Memory} {a : Nat} {c : Host.Cell} (h : c ∈ m.erase a) : c ∈ m := by
  induction m with
  | nil => simpa [Memory.erase] using h
  | cons k m ih =>
    obtain ⟨b, w⟩ := k
    simp only [Memory.erase] at h
    split at h
    · exact List.mem_cons_of_mem _ (ih h)
    · simp only [List.mem_cons] at h ⊢
      rcases h with h | h
      · exact .inl h
      · exact .inr (ih h)

theorem Memory.wf_insert {m : Memory} {a : Nat} {v : Byte} (ha : a < Config.addrSpace)
    (hv : v ≠ unlistedByte) (h : m.wf = true) : (m.insert a v).wf = true := by
  induction m with
  | nil => exact Memory.wf_cons.2 ⟨ha, hv, by simp, rfl⟩
  | cons c m ih =>
    obtain ⟨b, w⟩ := c
    obtain ⟨hb, hw, hlt, hm⟩ := Memory.wf_cons.1 h
    simp only [Memory.insert]
    split
    · next hab =>
      refine Memory.wf_cons.2 ⟨ha, hv, ?_, h⟩
      intro c hc
      simp only [List.mem_cons] at hc
      rcases hc with rfl | hc
      · exact hab
      · exact Nat.lt_trans hab (hlt c hc)
    · split
      · next hab => subst hab; exact Memory.wf_cons.2 ⟨ha, hv, hlt, hm⟩
      · next h1 h2 =>
        refine Memory.wf_cons.2 ⟨hb, hw, ?_, ih hm⟩
        intro c hc
        rcases Memory.mem_insert hc with rfl | hc
        · simp only; omega
        · exact hlt c hc

theorem Memory.wf_erase {m : Memory} {a : Nat} (h : m.wf = true) : (m.erase a).wf = true := by
  induction m with
  | nil => rfl
  | cons c m ih =>
    obtain ⟨b, w⟩ := c
    obtain ⟨hb, hw, hlt, hm⟩ := Memory.wf_cons.1 h
    simp only [Memory.erase]
    split
    · exact ih hm
    · exact Memory.wf_cons.2 ⟨hb, hw, fun c hc => hlt c (Memory.mem_erase hc), ih hm⟩

/-- Every write keeps the canonical form. -/
theorem Memory.wf_write {m : Memory} (a : Nat) (v : Byte) (h : m.wf = true) : (m.write a v).wf = true := by
  simp only [Memory.write]
  split
  · next ha =>
    split
    · exact Memory.wf_erase h
    · next hv => exact Memory.wf_insert ha hv h
  · exact h

theorem Memory.read_of_below {m : Memory} {a : Nat} (h : ∀ c ∈ m, a < c.1) : m.read a = unlistedByte := by
  induction m with
  | nil => rfl
  | cons c m ih =>
    obtain ⟨b, w⟩ := c
    have hb : a < b := h (b, w) (by simp)
    simp only [Memory.read]
    rw [if_neg (by omega)]
    exact ih fun c hc => h c (List.mem_cons_of_mem _ hc)

/-- Two memories in canonical form that read alike are the same list. -/
theorem Memory.ext_of_read {m n : Memory} (hm : m.wf = true) (hn : n.wf = true)
    (h : ∀ a, m.read a = n.read a) : m = n := by
  induction m generalizing n with
  | nil =>
    cases n with
    | nil => rfl
    | cons c n =>
      obtain ⟨b, w⟩ := c
      obtain ⟨_, hw, _, _⟩ := Memory.wf_cons.1 hn
      have := h b
      simp [Memory.read] at this
      exact absurd this.symm hw
  | cons c m ih =>
    obtain ⟨b, w⟩ := c
    obtain ⟨_, hw, hlt, hm'⟩ := Memory.wf_cons.1 hm
    cases n with
    | nil =>
      have := h b
      simp [Memory.read] at this
      exact absurd this hw
    | cons c' n =>
      obtain ⟨b', w'⟩ := c'
      obtain ⟨_, hw', hlt', hn'⟩ := Memory.wf_cons.1 hn
      have hbb : b = b' := by
        rcases Nat.lt_trichotomy b b' with hl | he | hg
        · have h1 := h b
          rw [Memory.read_of_below (m := (b', w') :: n)] at h1
          · simp [Memory.read] at h1; exact absurd h1 hw
          · intro c hc
            simp only [List.mem_cons] at hc
            rcases hc with rfl | hc
            · exact hl
            · exact Nat.lt_trans hl (hlt' c hc)
        · exact he
        · have h1 := h b'
          rw [Memory.read_of_below (m := (b, w) :: m)] at h1
          · simp [Memory.read] at h1; exact absurd h1.symm hw'
          · intro c hc
            simp only [List.mem_cons] at hc
            rcases hc with rfl | hc
            · exact hg
            · exact Nat.lt_trans hg (hlt c hc)
      subst hbb
      have hww : w = w' := by have := h b; simpa [Memory.read] using this
      subst hww
      congr 1
      refine ih hm' hn' fun a => ?_
      by_cases ha : a = b
      · subst ha
        rw [Memory.read_of_below hlt, Memory.read_of_below hlt']
      · have := h a
        simpa [Memory.read, ha] using this

end Sys2Proof.Machine
end

