-- ==== Sys2Proof/Laws/State.lean ====
section
/-! SUPPORT. One lemma per field per update of the state, so that no proof unfolds a record update. -/
namespace Sys2Proof.Machine

section
variable (s : State) (a b : SlotNo) (d : Slot) (v w : Word) (e : BitVec 4) (x : Err) (n : Nat)

/-! ### `setRes` -/

@[simp] theorem State.setRes_irqEn (i : Fin 3) : (s.setRes i v).irqEn = s.irqEn := rfl
@[simp] theorem State.setRes_status (i : Fin 3) : (s.setRes i v).status = s.status := rfl
@[simp] theorem State.setRes_cmd (i : Fin 3) : (s.setRes i v).cmd = s.cmd := rfl
@[simp] theorem State.setRes_args (i : Fin 3) : (s.setRes i v).args = s.args := rfl
@[simp] theorem State.setRes_arg (i : Fin 3) (j : Fin 6) : (s.setRes i v).arg j = s.arg j := rfl
@[simp] theorem State.setRes_slots (i : Fin 3) : (s.setRes i v).slots = s.slots := rfl
@[simp] theorem State.setRes_slot (i : Fin 3) : (s.setRes i v).slot a = s.slot a := rfl
@[simp] theorem State.setRes_port (i : Fin 3) : (s.setRes i v).port = s.port := rfl
@[simp] theorem State.setRes_allocAnswers (i : Fin 3) : (s.setRes i v).allocAnswers = s.allocAnswers := rfl
@[simp] theorem State.setRes_allocLog (i : Fin 3) : (s.setRes i v).allocLog = s.allocLog := rfl
@[simp] theorem State.setRes_agenda (i : Fin 3) : (s.setRes i v).agenda = s.agenda := rfl
@[simp] theorem State.setRes_hostData (i : Fin 3) : (s.setRes i v).hostData = s.hostData := rfl
@[simp] theorem State.setRes_res (i : Fin 3) : (s.setRes i v).res = s.res.set i.val v := rfl

/-! ### `setArg` -/

@[simp] theorem State.setArg_status (i : Fin 6) : (s.setArg i v).status = s.status := rfl
@[simp] theorem State.setArg_irqEn (i : Fin 6) : (s.setArg i v).irqEn = s.irqEn := rfl
@[simp] theorem State.setArg_cmd (i : Fin 6) : (s.setArg i v).cmd = s.cmd := rfl
@[simp] theorem State.setArg_res (i : Fin 6) : (s.setArg i v).res = s.res := rfl
@[simp] theorem State.setArg_slots (i : Fin 6) : (s.setArg i v).slots = s.slots := rfl
@[simp] theorem State.setArg_slot (i : Fin 6) : (s.setArg i v).slot a = s.slot a := rfl
@[simp] theorem State.setArg_port (i : Fin 6) : (s.setArg i v).port = s.port := rfl
@[simp] theorem State.setArg_allocAnswers (i : Fin 6) : (s.setArg i v).allocAnswers = s.allocAnswers := rfl
@[simp] theorem State.setArg_allocLog (i : Fin 6) : (s.setArg i v).allocLog = s.allocLog := rfl
@[simp] theorem State.setArg_agenda (i : Fin 6) : (s.setArg i v).agenda = s.agenda := rfl
@[simp] theorem State.setArg_hostData (i : Fin 6) : (s.setArg i v).hostData = s.hostData := rfl

/-- An ARG register reads back what the host wrote; the others keep their values. -/
theorem State.arg_setArg (i j : Fin 6) : (s.setArg i v).arg j = if i = j then v else s.arg j := by
  simp only [State.arg, State.setArg, Vector.getElem_set, Fin.ext_iff]

/-! ### `setSlot` -/

@[simp] theorem State.setSlot_irqEn : (s.setSlot a d).irqEn = s.irqEn := rfl
@[simp] theorem State.setSlot_status : (s.setSlot a d).status = s.status := rfl
@[simp] theorem State.setSlot_cmd : (s.setSlot a d).cmd = s.cmd := rfl
@[simp] theorem State.setSlot_args : (s.setSlot a d).args = s.args := rfl
@[simp] theorem State.setSlot_arg (j : Fin 6) : (s.setSlot a d).arg j = s.arg j := rfl
@[simp] theorem State.setSlot_res : (s.setSlot a d).res = s.res := rfl
@[simp] theorem State.setSlot_port : (s.setSlot a d).port = s.port := rfl
@[simp] theorem State.setSlot_allocAnswers : (s.setSlot a d).allocAnswers = s.allocAnswers := rfl
@[simp] theorem State.setSlot_allocLog : (s.setSlot a d).allocLog = s.allocLog := rfl
@[simp] theorem State.setSlot_agenda : (s.setSlot a d).agenda = s.agenda := rfl
@[simp] theorem State.setSlot_hostData : (s.setSlot a d).hostData = s.hostData := rfl

/-- A slot reads back what was put there; the others keep their fields. -/
theorem State.slot_setSlot : (s.setSlot a d).slot b = if a = b then d else s.slot b := by
  simp only [State.slot, State.setSlot, Vector.getElem_set, BitVec.toNat_inj]

@[simp] theorem State.slot_setSlot_self : (s.setSlot a d).slot a = d := by simp [State.slot_setSlot]

theorem State.slot_setSlot_other (h : a ≠ b) : (s.setSlot a d).slot b = s.slot b := by
  simp [State.slot_setSlot, h]

/-- The slot file is determined by its sixteen slots. -/
theorem State.slots_eq_of_slot_eq {s t : State} (h : ∀ a, t.slot a = s.slot a) : t.slots = s.slots := by
  apply Vector.ext
  intro i hi
  have := h (BitVec.ofNat 4 i)
  have hi' : i % 16 = i := Nat.mod_eq_of_lt hi
  simpa [State.slot, BitVec.toNat_ofNat, hi'] using this

theorem State.slot_eq_of_slots_eq {s t : State} (h : t.slots = s.slots) : t.slot a = s.slot a := by
  simp [State.slot, h]

/-! ### `complete`, `finish`, `raise` -/

@[simp] theorem State.complete_irqEn : (s.complete e).irqEn = s.irqEn := rfl
@[simp] theorem State.complete_status :
    (s.complete e).status = s.status.complete e (s.cmd.extractLsb' 0 8) := rfl
@[simp] theorem State.complete_cmd : (s.complete e).cmd = s.cmd := rfl
@[simp] theorem State.complete_args : (s.complete e).args = s.args := rfl
@[simp] theorem State.complete_arg (j : Fin 6) : (s.complete e).arg j = s.arg j := rfl
@[simp] theorem State.complete_res : (s.complete e).res = s.res := rfl
@[simp] theorem State.complete_slots : (s.complete e).slots = s.slots := rfl
@[simp] theorem State.complete_slot : (s.complete e).slot a = s.slot a := rfl
@[simp] theorem State.complete_port : (s.complete e).port = s.port.settle := rfl
@[simp] theorem State.complete_allocAnswers : (s.complete e).allocAnswers = s.allocAnswers := rfl
@[simp] theorem State.complete_allocLog : (s.complete e).allocLog = s.allocLog := rfl
@[simp] theorem State.complete_agenda : (s.complete e).agenda = s.agenda := rfl
@[simp] theorem State.complete_hostData : (s.complete e).hostData = s.hostData := rfl
@[simp] theorem State.raise_eq : s.raise x = s.complete x.code := rfl
@[simp] theorem State.finish_eq : s.finish = s.complete 0 := rfl

/-! ### `fillFresh` and `launch` -/

@[simp] theorem State.fillFresh_irqEn : (s.fillFresh v n).irqEn = s.irqEn := rfl
@[simp] theorem State.fillFresh_status : (s.fillFresh v n).status = s.status := rfl
@[simp] theorem State.fillFresh_cmd : (s.fillFresh v n).cmd = s.cmd := rfl
@[simp] theorem State.fillFresh_args : (s.fillFresh v n).args = s.args := rfl
@[simp] theorem State.fillFresh_res : (s.fillFresh v n).res = s.res := rfl
@[simp] theorem State.fillFresh_slots : (s.fillFresh v n).slots = s.slots := rfl
@[simp] theorem State.fillFresh_slot : (s.fillFresh v n).slot a = s.slot a := rfl
@[simp] theorem State.fillFresh_port :
    (s.fillFresh v n).port = s.port.scramble (rangeOf v.toNat n) := rfl
@[simp] theorem State.fillFresh_allocAnswers : (s.fillFresh v n).allocAnswers = s.allocAnswers := rfl
@[simp] theorem State.fillFresh_allocLog : (s.fillFresh v n).allocLog = s.allocLog := rfl
@[simp] theorem State.fillFresh_agenda : (s.fillFresh v n).agenda = s.agenda := rfl
@[simp] theorem State.fillFresh_hostData : (s.fillFresh v n).hostData = s.hostData := rfl

@[simp] theorem State.launch_status : (s.launch w).status = s.status.launch := rfl
@[simp] theorem State.launch_cmd : (s.launch w).cmd = w := rfl
@[simp] theorem State.launch_args : (s.launch w).args = s.args := rfl
@[simp] theorem State.launch_res : (s.launch w).res = s.res := rfl
@[simp] theorem State.launch_slots : (s.launch w).slots = s.slots := rfl
@[simp] theorem State.launch_slot : (s.launch w).slot a = s.slot a := rfl
@[simp] theorem State.launch_port : (s.launch w).port = s.port := rfl
@[simp] theorem State.launch_irqEn : (s.launch w).irqEn = s.irqEn := rfl
@[simp] theorem State.launch_allocAnswers : (s.launch w).allocAnswers = s.allocAnswers := rfl
@[simp] theorem State.launch_allocLog : (s.launch w).allocLog = s.allocLog := rfl
@[simp] theorem State.launch_agenda : (s.launch w).agenda = s.agenda := rfl
@[simp] theorem State.launch_hostData : (s.launch w).hostData = s.hostData := rfl

end

/-! ### The port -/

section
variable (p : Port) (a : Nat) (v : Byte)

@[simp] theorem Port.write_mem : (p.write a v).mem = p.mem.write a v := rfl
@[simp] theorem Port.write_raced : (p.write a v).raced = p.raced := rfl
@[simp] theorem Port.write_draws : (p.write a v).draws = p.draws := rfl
@[simp] theorem Port.write_drawn : (p.write a v).drawn = p.drawn := rfl
@[simp] theorem Port.settle_raced : p.settle.raced = [] := rfl
@[simp] theorem Port.race_mem : (p.race a).mem = p.mem := rfl
@[simp] theorem Port.race_draws : (p.race a).draws = p.draws := rfl
@[simp] theorem Port.race_drawn : (p.race a).drawn = p.drawn := rfl

end

end Sys2Proof.Machine
end

