-- ==== Sys2Proof/Laws/Port.lean ====
section
/-! SUPPORT. What the operations of the engine's port can do, once each: `Port.Keeps W p q` says that an
operation took port `p` to `q` and changed no byte outside `W`. -/
namespace Sys2Proof.Machine

/-- `q` comes from `p` by engine accesses that write only addresses in `W`: the raced set and the canonical
form stay, every byte outside `W` keeps its value, and without races no draw is taken. -/
structure Port.Keeps (W : Nat → Prop) (p q : Port) : Prop where
  raced : q.raced = p.raced
  wf : p.mem.wf = true → q.mem.wf = true
  other : ∀ a, ¬ W a → q.mem.read a = p.mem.read a
  quiet : p.raced = [] → q.draws = p.draws ∧ q.drawn = p.drawn

theorem Port.Keeps.refl (W : Nat → Prop) (p : Port) : Port.Keeps W p p :=
  ⟨rfl, id, fun _ _ => rfl, fun _ => ⟨rfl, rfl⟩⟩

theorem Port.Keeps.mono {W W' : Nat → Prop} {p q : Port} (h : Port.Keeps W p q) (hW : ∀ a, W a → W' a) :
    Port.Keeps W' p q :=
  ⟨h.raced, h.wf, fun a ha => h.other a fun hw => ha (hW a hw), h.quiet⟩

theorem Port.Keeps.trans {W : Nat → Prop} {p q r : Port} (h : Port.Keeps W p q) (h' : Port.Keeps W q r) :
    Port.Keeps W p r where
  raced := h'.raced.trans h.raced
  wf := h'.wf ∘ h.wf
  other a ha := (h'.other a ha).trans (h.other a ha)
  quiet hr :=
    have h1 := h.quiet hr
    have h2 := h'.quiet (h.raced.trans hr)
    ⟨h2.1.trans h1.1, h2.2.trans h1.2⟩

/-- A loop keeps what its body keeps. -/
theorem Port.Keeps.foldl {α : Type} {W : Nat → Prop} (f : Port → α → Port) (l : List α)
    (h : ∀ x ∈ l, ∀ q, Port.Keeps W q (f q x)) (p : Port) : Port.Keeps W p (l.foldl f p) := by
  induction l generalizing p with
  | nil => exact .refl W p
  | cons x l ih =>
    exact (h x (by simp) p).trans (ih (fun y hy => h y (List.mem_cons_of_mem _ hy)) _)

/-! ### Draws, reads, writes -/

@[simp] theorem Port.draw_mem (p : Port) : p.draw.2.mem = p.mem := by
  unfold Port.draw; split <;> rfl

@[simp] theorem Port.draw_raced (p : Port) : p.draw.2.raced = p.raced := by
  unfold Port.draw; split <;> rfl

/-- An engine read of a byte nobody raced on is a plain memory read. -/
theorem Port.read_of_not_raced {p : Port} {a : Nat} (h : a ∉ p.raced) : p.read a = (p.mem.read a, p) := by
  simp [Port.read, h]

@[simp] theorem Port.read_mem (p : Port) (a : Nat) : (p.read a).2.mem = p.mem := by
  unfold Port.read; split <;> simp

@[simp] theorem Port.read_raced (p : Port) (a : Nat) : (p.read a).2.raced = p.raced := by
  unfold Port.read; split <;> simp

theorem Port.read_keeps (W : Nat → Prop) (p : Port) (a : Nat) : Port.Keeps W p (p.read a).2 where
  raced := by simp
  wf := by simp
  other := by simp
  quiet h := by rw [Port.read_of_not_raced (by simp [h])]; exact ⟨rfl, rfl⟩

theorem Port.write_keeps (p : Port) (a : Nat) (v : Byte) : Port.Keeps (· = a) p (p.write a v) where
  raced := rfl
  wf := Memory.wf_write a v
  other _ hb := Memory.read_write_other _ v hb
  quiet _ := ⟨rfl, rfl⟩

/-- A race adds the one byte to the raced set (R92). -/
theorem Port.mem_race {p : Port} {a b : Nat} : b ∈ (p.race a).raced ↔ b = a ∨ b ∈ p.raced := by
  unfold Port.race
  by_cases h : a ∈ p.raced <;> simp [h]
  rintro rfl
  exact h

/-! ### Scramble and settle -/

@[simp] theorem Port.scramble_raced (l : List Nat) (p : Port) : (p.scramble l).raced = p.raced := by
  induction l generalizing p with
  | nil => rfl
  | cons a l ih => simp [Port.scramble, ih]

/-- Scrambling touches the listed bytes only. -/
theorem Port.scramble_read {l : List Nat} {a : Nat} (h : a ∉ l) (p : Port) :
    (p.scramble l).mem.read a = p.mem.read a := by
  induction l generalizing p with
  | nil => rfl
  | cons b l ih =>
    simp only [List.mem_cons, not_or] at h
    simp [Port.scramble, ih h.2, Memory.read_write_other _ _ h.1]

theorem Port.scramble_wf (l : List Nat) {p : Port} (h : p.mem.wf = true) : (p.scramble l).mem.wf = true := by
  induction l generalizing p with
  | nil => exact h
  | cons a l ih => exact ih (by simpa using Memory.wf_write a _ h)

/-- Settling changes the raced bytes only. -/
theorem Port.settle_read {p : Port} {a : Nat} (h : a ∉ p.raced) : p.settle.mem.read a = p.mem.read a :=
  Port.scramble_read h p

theorem Port.settle_wf {p : Port} (h : p.mem.wf = true) : p.settle.mem.wf = true := Port.scramble_wf _ h

/-- Without races settling does nothing. -/
theorem Port.settle_of_no_race {p : Port} (h : p.raced = []) : p.settle = p := by
  cases p; simp only at h; subst h; rfl

theorem Port.settle_draws_of_no_race {p : Port} (h : p.raced = []) :
    p.settle.draws = p.draws ∧ p.settle.drawn = p.drawn := by
  rw [Port.settle_of_no_race h]; exact ⟨rfl, rfl⟩

@[simp] theorem mem_rangeOf {a n b : Nat} : b ∈ rangeOf a n ↔ a ≤ b ∧ b < a + n := by
  simp [rangeOf, List.mem_range'_1]

end Sys2Proof.Machine
end

