-- ==== Sys2Proof/Laws/Accessor.lean ====
section
/-! SUPPORT. What `extract` and `deposit` can do, once each, bit by bit (spec/43_pixel_accessor.md R185,
R191, R192). -/
namespace Sys2Proof.Machine

/-! ### Pieces -/

/-- A piece as `Locate` makes them: a field of one byte, a whole byte unshifted. -/
structure Piece.Ok (q : Piece) : Prop where
  pos : 0 < q.width
  fits : q.shift + q.width ≤ 8

/-- The pixel bits a piece carries. -/
def Piece.carries (q : Piece) (j : Nat) : Bool := decide (q.bit ≤ j) && decide (j < q.bit + q.width)

/-- The byte bits a piece occupies. -/
def Piece.occupies (q : Piece) (b : Nat) : Bool := decide (q.shift ≤ b) && decide (b < q.shift + q.width)

theorem locate_planar {d : Slot} (h : d.fmt.family = .planar) (x y : Nat) :
    locate d x y = locatePlanar d x y := by simp [locate, h]

theorem locate_packed {d : Slot} (h : d.fmt.family = .packed) (x y : Nat) :
    locate d x y = locatePacked d x y := by simp [locate, h]

theorem mem_locatePlanar {d : Slot} {x y : Nat} {q : Piece} :
    q ∈ locatePlanar d x y ↔ ∃ k, k < d.fmt.depth.toNat ∧ d.planeMask.getLsbD (planeBit d k) = true ∧
      q = ⟨planarOffset d k x y, bitPos d x, 1, planeBit d k⟩ := by
  simp only [locatePlanar, List.mem_map, List.mem_filter, List.mem_range]
  constructor
  · rintro ⟨k, ⟨h1, h2⟩, rfl⟩; exact ⟨k, h1, h2, rfl⟩
  · rintro ⟨k, h1, h2, rfl⟩; exact ⟨k, ⟨h1, h2⟩, rfl⟩

theorem bitPos_lt (d : Slot) (x : Nat) : bitPos d x < 8 := by
  have : x &&& 7 ≤ 7 := Nat.and_le_right
  unfold bitPos; split <;> omega

theorem locate_piece_ok {d : Slot} {x y : Nat} {q : Piece} (h : q ∈ locate d x y) : q.Ok := by
  unfold locate at h
  split at h
  · obtain ⟨k, _, _, rfl⟩ := mem_locatePlanar.1 h
    exact ⟨by simp, by have := bitPos_lt d x; simp only; omega⟩
  · unfold locatePacked at h
    dsimp only at h
    split at h
    · simp only [List.mem_singleton] at h
      subst h
      exact ⟨by simp, by simp only; split <;> omega⟩
    · simp only [List.mem_map] at h
      obtain ⟨i, _, rfl⟩ := h
      exact ⟨by simp, by simp⟩

theorem mem_pixelBytes {d : Slot} {x y a : Nat} :
    a ∈ pixelBytes d x y ↔ ∃ q ∈ locate d x y, a = d.data.toNat + q.off := by
  simp [pixelBytes, eq_comm]

/-! ### Extract -/

/-- The value the pieces of a pixel hold in a memory: `Extract` where nobody races. -/
def piecesValue (data : Nat) (m : Memory) : List Piece → Word
  | [] => 0
  | q :: rest =>
    ((m.read (data + q.off) >>> q.shift) &&& lowMask q.width).setWidth 32 <<< q.bit ||| piecesValue data m rest

theorem extractPieces_keeps (W : Nat → Prop) (data : Nat) (l : List Piece) (p : Port) :
    Port.Keeps W p (extractPieces data l p).2 := by
  induction l generalizing p with
  | nil => exact .refl W p
  | cons q l ih => exact (Port.read_keeps W p _).trans (ih _)

/-- Reading a pixel writes nothing. -/
theorem extract_keeps (W : Nat → Prop) (d : Slot) (x y : Nat) (p : Port) :
    Port.Keeps W p (extract d x y p).2 := extractPieces_keeps W _ _ p

@[simp] theorem extractPieces_mem (data : Nat) (l : List Piece) (p : Port) :
    (extractPieces data l p).2.mem = p.mem := by
  induction l generalizing p with
  | nil => rfl
  | cons q l ih => simp [extractPieces, ih]

theorem extractPieces_of_not_raced {data : Nat} {l : List Piece} {p : Port}
    (h : ∀ q ∈ l, data + q.off ∉ p.raced) : extractPieces data l p = (piecesValue data p.mem l, p) := by
  induction l with
  | nil => rfl
  | cons q l ih =>
    simp only [extractPieces, Port.read_of_not_raced (h q (by simp))]
    rw [ih fun r hr => h r (List.mem_cons_of_mem _ hr)]
    rfl

theorem lowMask_getLsbD (n b : Nat) : (lowMask n).getLsbD b = (decide (b < 8) && decide (b < n)) := by
  simp [lowMask, BitVec.getLsbD_ofNat, Nat.testBit_two_pow_sub_one]

/-- The bits of a pixel value: bit `j` comes from the pieces that carry it (R191). -/
theorem piecesValue_getLsbD (data : Nat) (m : Memory) (l : List Piece) (hl : ∀ q ∈ l, q.Ok) (j : Nat) (hj : j < 32) :
    (piecesValue data m l).getLsbD j =
      l.any (fun q => q.carries j && (m.read (data + q.off)).getLsbD (q.shift + (j - q.bit))) := by
  induction l with
  | nil => simp [piecesValue]
  | cons q l ih =>
    have hq := hl q (by simp)
    have h1 := hq.pos
    have h2 := hq.fits
    simp only [piecesValue, BitVec.getLsbD_or, List.any_cons, ih fun r hr => hl r (List.mem_cons_of_mem _ hr)]
    congr 1
    simp only [BitVec.getLsbD_shiftLeft, BitVec.getLsbD_setWidth, BitVec.getLsbD_and, BitVec.getLsbD_ushiftRight,
      lowMask_getLsbD, Piece.carries, hj, decide_true, Bool.true_and]
    by_cases hb : q.bit ≤ j
    · by_cases hw : j < q.bit + q.width
      · have e1 : j - q.bit < 8 := by omega
        have e2 : j - q.bit < q.width := by omega
        have e3 : j - q.bit < 32 := by omega
        simp [hb, hw, e1, e2, e3]
      · have e2 : ¬ j - q.bit < q.width := by omega
        simp [hw, e2]
    · have e : j < q.bit := by omega
      simp [hb, e]

/-! ### Deposit -/

/-- What one piece of a deposit leaves in its byte: the field's bits from the value, the others as read. -/
theorem deposit_byte_getLsbD (q : Piece) (hq : q.Ok) (v : Word) (old : Byte) (b : Nat) (hb : b < 8) :
    ((old &&& ~~~(lowMask q.width <<< q.shift)) |||
        (((v >>> q.bit).setWidth 8 &&& lowMask q.width) <<< q.shift)).getLsbD b =
      if q.occupies b then v.getLsbD (q.bit + (b - q.shift)) else old.getLsbD b := by
  have h1 := hq.pos
  have h2 := hq.fits
  simp only [BitVec.getLsbD_or, BitVec.getLsbD_and, BitVec.getLsbD_not, BitVec.getLsbD_shiftLeft,
    lowMask_getLsbD, BitVec.getLsbD_setWidth, BitVec.getLsbD_ushiftRight, Piece.occupies, hb, decide_true,
    Bool.true_and]
  by_cases hs : q.shift ≤ b
  · by_cases hw : b < q.shift + q.width
    · have e1 : b - q.shift < 8 := by omega
      have e2 : b - q.shift < q.width := by omega
      have e3 : ¬ b < q.shift := by omega
      simp [hs, hw, e1, e2, e3]
    · have e2 : ¬ b - q.shift < q.width := by omega
      have e3 : ¬ b < q.shift := by omega
      simp [hw, e2, e3]
  · have e : b < q.shift := by omega
    simp [hs, e]

/-- One piece of a deposit writes its own byte only. -/
theorem depositPiece_keeps (data : Nat) (v : Word) (q : Piece) (p : Port) :
    Port.Keeps (· = data + q.off) p (depositPiece data v q p) := by
  unfold depositPiece
  dsimp only
  split
  · exact Port.write_keeps p _ _
  · exact (Port.read_keeps _ p _).trans (Port.write_keeps _ _ _)

/-- One piece of a deposit, bit by bit, where its byte exists, for a byte nobody raced on (R192). -/
theorem depositPiece_getLsbD {data : Nat} {v : Word} {q : Piece} {p : Port} (hq : q.Ok)
    (ha : data + q.off < Config.addrSpace) (a b : Nat) (hr : a ∉ p.raced) (hb : b < 8) :
    ((depositPiece data v q p).mem.read a).getLsbD b =
      if a = data + q.off ∧ q.occupies b = true then v.getLsbD (q.bit + (b - q.shift))
      else (p.mem.read a).getLsbD b := by
  have h1 := hq.pos
  have h2 := hq.fits
  by_cases haa : a = data + q.off
  · subst haa
    unfold depositPiece
    dsimp only
    split
    · next h8 =>
      have hs : q.shift = 0 := by omega
      simp only [Port.write_mem, Memory.read_write_same _ _ ha, true_and]
      have ho : q.occupies b = true := by simp [Piece.occupies]; omega
      rw [if_pos ho]
      simp [lowMask_getLsbD, hb, hs, h8]
    · simp only [Port.read_of_not_raced hr, Port.write_mem, Memory.read_write_same _ _ ha, true_and]
      exact deposit_byte_getLsbD q hq v _ b hb
  · rw [if_neg (by tauto), (depositPiece_keeps data v q p).other a haa]

/-- Depositing a pixel writes the pixel's bytes only. -/
theorem deposit_keeps (d : Slot) (x y : Nat) (v : Word) (p : Port) :
    Port.Keeps (· ∈ pixelBytes d x y) p (deposit d x y v p) :=
  Port.Keeps.foldl _ _
    (fun q hq p' => (depositPiece_keeps d.data.toNat v q p').mono
      fun _ ha => mem_pixelBytes.2 ⟨q, hq, ha⟩) p

/-- A fold of deposit pieces, bit by bit, over pieces no two of which share a byte. -/
theorem depositPieces_getLsbD {data : Nat} {v : Word} (l : List Piece) (p : Port)
    (hok : ∀ q ∈ l, q.Ok) (ha : ∀ q ∈ l, data + q.off < Config.addrSpace)
    (hd : l.Pairwise (fun q r => q.off ≠ r.off)) (a b : Nat) (hr : a ∉ p.raced) (hb : b < 8) :
    ((l.foldl (fun p q => depositPiece data v q p) p).mem.read a).getLsbD b =
      match l.find? (fun q => decide (a = data + q.off) && q.occupies b) with
      | some q => v.getLsbD (q.bit + (b - q.shift))
      | none => (p.mem.read a).getLsbD b := by
  induction l generalizing p with
  | nil => rfl
  | cons q l ih =>
    obtain ⟨hq, hd'⟩ := List.pairwise_cons.1 hd
    have hk := depositPiece_keeps data v q p
    simp only [List.foldl_cons]
    rw [ih (depositPiece data v q p) (fun r h => hok r (List.mem_cons_of_mem _ h))
      (fun r h => ha r (List.mem_cons_of_mem _ h)) hd' (by rw [hk.raced]; exact hr)]
    rw [depositPiece_getLsbD (hok q (by simp)) (ha q (by simp)) a b hr hb]
    rw [List.find?_cons]
    by_cases hc : a = data + q.off ∧ q.occupies b = true
    · obtain ⟨rfl, hc⟩ := hc
      have hn : l.find? (fun r => decide (data + q.off = data + r.off) && r.occupies b) = none := by
        rw [List.find?_eq_none]
        intro r hrm
        have := hq r hrm
        simp
        intro h; omega
      rw [hn, if_pos ⟨rfl, hc⟩]
      simp [hc]
    · rw [if_neg hc]
      have : (decide (a = data + q.off) && q.occupies b) = false := by
        by_contra h
        simp only [Bool.not_eq_false, Bool.and_eq_true, decide_eq_true_eq] at h
        exact hc h
      simp [this]

/-! ### The offsets of one pixel are distinct (R185, R190, R193) -/

theorem locatePacked_pairwise (d : Slot) (x y : Nat) :
    (locatePacked d x y).Pairwise (fun q r => q.off ≠ r.off) := by
  unfold locatePacked
  dsimp only
  split
  · simp
  · rw [List.pairwise_map]
    refine List.Pairwise.imp ?_ (List.pairwise_lt_range (n := d.fmt.bpp.toNat / 8))
    intro i j h
    simp only
    omega

theorem planarOffset_injective {d : Slot} (h : 0 < d.stride * d.height.toNat) {k l x y : Nat}
    (he : planarOffset d k x y = planarOffset d l x y) : k = l := by
  simp only [planarOffset, Nat.mul_assoc] at he
  have : k * (d.stride * d.height.toNat) = l * (d.stride * d.height.toNat) := by omega
  exact Nat.eq_of_mul_eq_mul_right h this

theorem locatePlanar_pairwise {d : Slot} (h : 0 < d.stride * d.height.toNat) (x y : Nat) :
    (locatePlanar d x y).Pairwise (fun q r => q.off ≠ r.off) := by
  unfold locatePlanar
  rw [List.pairwise_map]
  refine List.Pairwise.imp ?_ (List.Pairwise.filter _ (List.pairwise_lt_range (n := d.fmt.depth.toNat)))
  intro k l hkl he
  have := planarOffset_injective h he
  omega

theorem locate_pairwise {d : Slot} (h : d.fmt.family = .planar → 0 < d.stride * d.height.toNat) (x y : Nat) :
    (locate d x y).Pairwise (fun q r => q.off ≠ r.off) := by
  unfold locate
  split
  · next hp => exact locatePlanar_pairwise (h hp) x y
  · exact locatePacked_pairwise d x y

/-! ### The shared checks -/

/-- When GETPIXEL and PUTPIXEL pass their checks (R186, R189, R195, R196). -/
theorem pixelTarget_ok {sa : SlotNo} {s : State} {d : Slot} :
    pixelTarget sa s = .ok d ↔ d = s.slot sa ∧ d.valid = true ∧
      inBounds d (s.arg 0).toNat (s.arg 1).toNat = true ∧ d.own ≠ .unallocated ∧
      piecesInside d (s.arg 0).toNat (s.arg 1).toNat = true := by
  unfold pixelTarget State.validSlot
  constructor
  · intro h
    split at h
    · cases h
    · next d' hd =>
      split at hd
      · next hv =>
        cases hd
        split at h
        · split at h
          · next h1 h2 => cases h; exact ⟨rfl, hv, h1, h2.1, h2.2⟩
          · cases h
        · cases h
      · cases hd
  · rintro ⟨rfl, hv, hb, ho, hi⟩
    simp [hv, hb, ho, hi]

/-- The only error of those checks is `ContractViolation`. -/
theorem pixelTarget_error {sa : SlotNo} {s : State} {e : Err} (h : pixelTarget sa s = .error e) :
    e = .contractViolation := by
  unfold pixelTarget State.validSlot at h
  split at h
  · next hd => split at hd <;> cases hd; cases h; rfl
  · split at h
    · split at h <;> cases h; rfl
    · cases h; rfl

end Sys2Proof.Machine
end

