-- ==== Sys2Proof/Laws/Permutation.lean ====
section
/-! SUPPORT. The permutation tables and byte transforms (spec/44_permutation.md R202 to R207) and all that a
bulk copy and a whole copy can do (R208 to R211, spec/45_conversion.md R232). -/
namespace Sys2Proof.Machine

/-! ### Byte transforms -/

theorem bitrev8_getLsbD (b : Byte) (i : Nat) (h : i < 8) : (bitrev8 b).getLsbD i = b.getLsbD (7 - i) := by
  rw [bitrev8, BitVec.getLsbD_reverse, BitVec.getMsbD]
  simp [h]

theorem nibswap_getLsbD (b : Byte) (i : Nat) (h : i < 8) :
    (nibswap b).getLsbD i = b.getLsbD (if i < 4 then i + 4 else i - 4) := by
  simp only [nibswap, BitVec.getLsbD_append, BitVec.getLsbD_extractLsb']
  by_cases h4 : i < 4
  · simp [h4, Nat.add_comm]
  · have e : i - 4 < 4 := by omega
    simp [h4, e]

theorem unitClass_flip_le (c : UnitClass) : c.flip ≤ 3 := by cases c <;> decide

theorem permMask_le (a b : UnitClass) : permMask a b ≤ 3 := by cases a <;> cases b <;> decide

theorem permMask_comm (a b : UnitClass) : permMask a b = permMask b a := Nat.xor_comm _ _

theorem permMask_self (a : UnitClass) : permMask a a = 0 := Nat.xor_self _

/-- XOR with a constant is an involution. -/
theorem xor_xor_cancel (i m : Nat) : i ^^^ m ^^^ m = i := by
  rw [Nat.xor_assoc, Nat.xor_self, Nat.xor_zero]

theorem xor_eq_comm {i j m : Nat} : i ^^^ m = j ↔ i = j ^^^ m := by
  constructor
  · rintro rfl; rw [xor_xor_cancel]
  · rintro rfl; rw [xor_xor_cancel]

/-! ### The bulk copy -/

section
variable {S D : Slot} {k : Strategy}

theorem bulkByte_keeps (r i : Nat) (p : Port) :
    Port.Keeps (fun a => D.data.toNat + r * D.stride ≤ a ∧ a < D.data.toNat + r * D.stride + D.stride) p
      (bulkByte S D k r i p) := by
  unfold bulkByte
  dsimp only
  split
  · next h =>
    refine (Port.read_keeps _ p _).trans ((Port.write_keeps _ _ _).mono ?_)
    rintro a rfl
    omega
  · exact .refl _ p

theorem bulkRow_keeps (r : Nat) (p : Port) :
    Port.Keeps (fun a => D.data.toNat + r * D.stride ≤ a ∧ a < D.data.toNat + r * D.stride + D.stride) p
      (bulkRow S D k r p) :=
  Port.Keeps.foldl _ _ (fun i _ q => bulkByte_keeps r i q) p

theorem row_in_buffer {r R stride : Nat} (h : r < R) : r * stride + stride ≤ R * stride := by
  have : (r + 1) * stride ≤ R * stride := Nat.mul_le_mul_right _ h
  rwa [Nat.succ_mul] at this

/-- A bulk copy writes inside the destination's rows only (R209). -/
theorem bulkCopy_keeps (R : Nat) (p : Port) :
    Port.Keeps (fun a => D.data.toNat ≤ a ∧ a < D.data.toNat + R * D.stride) p (bulkCopy S D R k p) := by
  refine Port.Keeps.foldl _ _ (fun r hr q => (bulkRow_keeps r q).mono ?_) p
  intro a ha
  have := row_in_buffer (stride := D.stride) (List.mem_range.1 hr)
  omega

/-- One byte of a bulk copy, where nobody races and the destination byte exists. -/
theorem bulkByte_read {r i j : Nat} {p : Port} (hj : j < D.stride)
    (hs : S.data.toNat + r * S.stride + i ∉ p.raced)
    (hd : D.data.toNat + r * D.stride + j < Config.addrSpace) :
    (bulkByte S D k r i p).mem.read (D.data.toNat + r * D.stride + j) =
      if i = j ^^^ k.mask then xf (p.mem.read (S.data.toNat + r * S.stride + i)) k.bitswap k.nibswap
      else p.mem.read (D.data.toNat + r * D.stride + j) := by
  unfold bulkByte
  dsimp only
  by_cases hi : i = j ^^^ k.mask
  · have he : i ^^^ k.mask = j := xor_eq_comm.2 hi
    rw [if_pos (by omega), if_pos hi, he, Port.read_of_not_raced hs, Port.write_mem,
      Memory.read_write_same _ _ hd]
  · rw [if_neg hi]
    split
    · next h =>
      have he : i ^^^ k.mask ≠ j := fun h => hi (xor_eq_comm.1 h)
      rw [Port.read_of_not_raced hs, Port.write_mem, Memory.read_write_other _ _ (by omega)]
    · rfl

/-- The first `n` bytes of one row. -/
theorem bulkRow_prefix_read {r n : Nat} {p : Port} (hn : n ≤ S.stride)
    (hs : ∀ i, i < S.stride → S.data.toNat + r * S.stride + i ∉ p.raced)
    (hd : D.data.toNat + r * D.stride + D.stride ≤ Config.addrSpace)
    (hdis : ∀ i j, i < S.stride → j < D.stride → S.data.toNat + r * S.stride + i ≠ D.data.toNat + r * D.stride + j)
    {j : Nat} (hj : j < D.stride) :
    ((List.range n).foldl (fun p i => bulkByte S D k r i p) p).mem.read (D.data.toNat + r * D.stride + j) =
      if j ^^^ k.mask < n then
        xf (p.mem.read (S.data.toNat + r * S.stride + (j ^^^ k.mask))) k.bitswap k.nibswap
      else p.mem.read (D.data.toNat + r * D.stride + j) := by
  induction n with
  | zero => simp
  | succ n ih =>
    rw [List.range_succ, List.foldl_append]
    simp only [List.foldl_cons, List.foldl_nil]
    have hk : Port.Keeps (fun a => D.data.toNat + r * D.stride ≤ a ∧ a < D.data.toNat + r * D.stride + D.stride) p
        ((List.range n).foldl (fun p i => bulkByte S D k r i p) p) :=
      Port.Keeps.foldl _ _ (fun i _ q => bulkByte_keeps r i q) p
    rw [bulkByte_read hj (by rw [hk.raced]; exact hs n (by omega)) (by omega)]
    have hsrc : ((List.range n).foldl (fun p i => bulkByte S D k r i p) p).mem.read (S.data.toNat + r * S.stride + n)
        = p.mem.read (S.data.toNat + r * S.stride + n) := by
      apply hk.other
      rintro ⟨h1, h2⟩
      exact hdis n (S.data.toNat + r * S.stride + n - (D.data.toNat + r * D.stride)) (by omega) (by omega) (by omega)
    rw [ih (by omega), hsrc]
    by_cases h : n = j ^^^ k.mask
    · rw [if_pos h, if_pos (by omega), ← h]
    · rw [if_neg h]
      by_cases h' : j ^^^ k.mask < n
      · rw [if_pos h', if_pos (by omega)]
      · rw [if_neg h', if_neg (by omega)]

/-- All that a bulk copy does inside the destination's rows, where nobody races, the destination exists and
the two buffers share no byte (R208, R211): byte `j` of row `r` comes from source byte `j XOR m`, if the
source scanline has it, and keeps its value if not. -/
theorem bulkCopy_read {R : Nat} {p : Port}
    (hs : ∀ r i, r < R → i < S.stride → S.data.toNat + r * S.stride + i ∉ p.raced)
    (hd : D.data.toNat + R * D.stride ≤ Config.addrSpace)
    (hdis : ∀ a, S.data.toNat ≤ a → a < S.data.toNat + R * S.stride →
      ¬ (D.data.toNat ≤ a ∧ a < D.data.toNat + R * D.stride))
    {r j : Nat} (hr : r < R) (hj : j < D.stride) :
    (bulkCopy S D R k p).mem.read (D.data.toNat + r * D.stride + j) =
      if j ^^^ k.mask < S.stride then
        xf (p.mem.read (S.data.toNat + r * S.stride + (j ^^^ k.mask))) k.bitswap k.nibswap
      else p.mem.read (D.data.toNat + r * D.stride + j) := by
  induction R with
  | zero => omega
  | succ R ih =>
    have hRS : (R + 1) * S.stride = R * S.stride + S.stride := Nat.succ_mul _ _
    have hRD : (R + 1) * D.stride = R * D.stride + D.stride := Nat.succ_mul _ _
    have hkeep : Port.Keeps (fun a => D.data.toNat ≤ a ∧ a < D.data.toNat + R * D.stride) p (bulkCopy S D R k p) :=
      bulkCopy_keeps R p
    have hunf : bulkCopy S D (R + 1) k p = bulkRow S D k R (bulkCopy S D R k p) := by
      simp [bulkCopy, List.range_succ, List.foldl_append]
    rw [hunf]
    by_cases hlt : r < R
    · have hin := row_in_buffer (stride := D.stride) hlt
      rw [(bulkRow_keeps R _).other _ (by omega)]
      exact ih (fun r' i h1 h2 => hs r' i (by omega) h2) (by omega)
        (fun a h1 h2 h3 => hdis a h1 (by omega) ⟨h3.1, by omega⟩) hlt
    · have hrR : r = R := by omega
      subst hrR
      unfold bulkRow
      rw [bulkRow_prefix_read (le_refl _) (by rw [hkeep.raced]; exact fun i hi => hs r i (by omega) hi) (by omega)
        (fun i j' hi hj' he => hdis (S.data.toNat + r * S.stride + i) (by omega) (by omega) (by omega)) hj]
      rw [hkeep.other (D.data.toNat + r * D.stride + j) (by omega)]
      by_cases hlt' : j ^^^ k.mask < S.stride
      · rw [if_pos hlt', if_pos hlt', hkeep.other]
        rintro ⟨h1, h2⟩
        exact hdis _ (by omega) (by omega) ⟨h1, by omega⟩
      · rw [if_neg hlt', if_neg hlt']

/-! ### The whole copy -/

theorem copyByte_keeps (src dst : Nat) (p : Port) : Port.Keeps (· = dst) p (copyByte src dst p) :=
  (Port.read_keeps _ p _).trans (Port.write_keeps _ _ _)

theorem copyByte_of_not_raced {src dst : Nat} {p : Port} (h : src ∉ p.raced) :
    copyByte src dst p = p.write dst (p.mem.read src) := by
  simp [copyByte, Port.read_of_not_raced h]

theorem wholeCopy_keeps (S D : Slot) (p : Port) :
    Port.Keeps (fun a => D.data.toNat ≤ a ∧ a < D.data.toNat + S.size) p (wholeCopy S D p) := by
  refine Port.Keeps.foldl _ _ (fun i hi q => (copyByte_keeps _ _ q).mono ?_) p
  rintro a rfl
  have := List.mem_range.1 hi
  omega

/-- All that a whole copy does inside the destination (R232, R242): byte for byte the source. -/
theorem wholeCopy_read {p : Port}
    (hs : ∀ i, i < S.size → S.data.toNat + i ∉ p.raced)
    (hd : D.data.toNat + S.size ≤ Config.addrSpace)
    (hdis : ∀ a, S.data.toNat ≤ a → a < S.data.toNat + S.size →
      ¬ (D.data.toNat ≤ a ∧ a < D.data.toNat + S.size))
    {j : Nat} (hj : j < S.size) :
    (wholeCopy S D p).mem.read (D.data.toNat + j) = p.mem.read (S.data.toNat + j) := by
  suffices h : ∀ n, n ≤ S.size → ∀ j, j < n →
      ((List.range n).foldl (fun p i => copyByte (S.data.toNat + i) (D.data.toNat + i) p) p).mem.read
        (D.data.toNat + j) = p.mem.read (S.data.toNat + j) from h S.size (le_refl _) j hj
  intro n
  induction n with
  | zero => intro _ j hj; omega
  | succ n ih =>
    intro hn j hj
    have hk : Port.Keeps (fun a => D.data.toNat ≤ a ∧ a < D.data.toNat + S.size) p
        ((List.range n).foldl (fun p i => copyByte (S.data.toNat + i) (D.data.toNat + i) p) p) := by
      refine Port.Keeps.foldl _ _ (fun i hi q => (copyByte_keeps _ _ q).mono ?_) p
      rintro a rfl
      have := List.mem_range.1 hi
      omega
    rw [List.range_succ, List.foldl_append]
    simp only [List.foldl_cons, List.foldl_nil]
    by_cases he : j = n
    · subst he
      rw [copyByte_of_not_raced (by rw [hk.raced]; exact hs j (by omega)), Port.write_mem,
        Memory.read_write_same _ _ (by omega)]
      exact hk.other _ fun h => hdis _ (by omega) (by omega) h
    · rw [(copyByte_keeps _ _ _).other _ (by omega)]
      exact ih (by omega) j (by omega)

end

end Sys2Proof.Machine
end

