-- ==== Sys2Proof/Laws/Exec.lean ====
section
/-! SUPPORT. What a command can do, once each: how it ends, what the allocator port can answer, and the
inversion of each command's checks. -/
namespace Sys2Proof.Machine

/-! ### The allocator port (R84) -/

theorem State.nextAnswer_eq (s : State) :
    (∃ r rest, s.allocAnswers = r :: rest ∧ s.nextAnswer = (r, { s with allocAnswers := rest })) ∨
    (s.allocAnswers = [] ∧
      s.nextAnswer = (Config.freeAnswer s.port.drawn, { s with port := { s.port with drawn := s.port.drawn + 1 } })) := by
  unfold State.nextAnswer
  split
  · next r rest h => exact .inl ⟨r, rest, h, rfl⟩
  · next h => exact .inr ⟨h, rfl⟩

/-- All that `Alloc(n)` can do: take one answer from the oracle, and record a granted allocation, whose range
then meets R84's law. -/
theorem State.allocate_cases (s : State) (n : Nat) :
    (∃ a, s.nextAnswer.1 = some a ∧ s.answerLawful a n = true ∧
      s.allocate n = (some a, { s.nextAnswer.2 with allocLog := s.nextAnswer.2.allocLog ++ [.alloc a n] })) ∨
    ((∀ a, s.nextAnswer.1 = some a → s.answerLawful a n = false) ∧ s.allocate n = (none, s.nextAnswer.2)) := by
  unfold State.allocate
  split
  · next h => exact .inr ⟨by simp [h], rfl⟩
  · next a h =>
    split
    · next hl => exact .inl ⟨a, h, hl, rfl⟩
    · next hl => exact .inr ⟨by rintro b hb; rw [h] at hb; cases hb; simpa using hl, rfl⟩

/-! ### What a command leaves alone -/

/-- `u` comes from `s` by the effects of a command before its completion update: the host's side of the
machine, STATUS, the ARG registers and the raced set are as before, memory stays canonical. -/
structure CommandFrame (s u : State) : Prop where
  irqEn : u.irqEn = s.irqEn
  status : u.status = s.status
  cmd : u.cmd = s.cmd
  args : u.args = s.args
  agenda : u.agenda = s.agenda
  hostData : u.hostData = s.hostData
  raced : u.port.raced = s.port.raced
  wf : s.port.mem.wf = true → u.port.mem.wf = true

theorem CommandFrame.refl (s : State) : CommandFrame s s := ⟨rfl, rfl, rfl, rfl, rfl, rfl, rfl, id⟩

theorem CommandFrame.trans {s t u : State} (h : CommandFrame s t) (h' : CommandFrame t u) : CommandFrame s u :=
  ⟨h'.irqEn.trans h.irqEn, h'.status.trans h.status, h'.cmd.trans h.cmd, h'.args.trans h.args,
    h'.agenda.trans h.agenda, h'.hostData.trans h.hostData, h'.raced.trans h.raced, h'.wf ∘ h.wf⟩

theorem CommandFrame.setRes {s u : State} (h : CommandFrame s u) (i : Fin 3) (v : Word) :
    CommandFrame s (u.setRes i v) :=
  ⟨h.irqEn, h.status, h.cmd, h.args, h.agenda, h.hostData, h.raced, h.wf⟩

theorem CommandFrame.setSlot {s u : State} (h : CommandFrame s u) (a : SlotNo) (d : Slot) :
    CommandFrame s (u.setSlot a d) :=
  ⟨h.irqEn, h.status, h.cmd, h.args, h.agenda, h.hostData, h.raced, h.wf⟩

theorem CommandFrame.free {s u : State} (h : CommandFrame s u) (a : Word) : CommandFrame s (u.free a) :=
  ⟨h.irqEn, h.status, h.cmd, h.args, h.agenda, h.hostData, h.raced, h.wf⟩

theorem CommandFrame.ofKeeps {W : Nat → Prop} {s : State} {q : Port} (h : Port.Keeps W s.port q) :
    CommandFrame s { s with port := q } :=
  ⟨rfl, rfl, rfl, rfl, rfl, rfl, h.raced, h.wf⟩

theorem CommandFrame.fillFresh {s u : State} (h : CommandFrame s u) (a : Word) (n : Nat) :
    CommandFrame s (u.fillFresh a n) :=
  ⟨h.irqEn, h.status, h.cmd, h.args, h.agenda, h.hostData, by simp [h.raced], fun hw => by
    simpa using Port.scramble_wf _ (h.wf hw)⟩

theorem State.nextAnswer_frame (s : State) : CommandFrame s s.nextAnswer.2 := by
  rcases s.nextAnswer_eq with ⟨r, rest, _, h⟩ | ⟨_, h⟩ <;> rw [h] <;>
    exact ⟨rfl, rfl, rfl, rfl, rfl, rfl, rfl, id⟩

@[simp] theorem State.nextAnswer_slots (s : State) : s.nextAnswer.2.slots = s.slots := by
  rcases s.nextAnswer_eq with ⟨r, rest, _, h⟩ | ⟨_, h⟩ <;> rw [h]

@[simp] theorem State.nextAnswer_res (s : State) : s.nextAnswer.2.res = s.res := by
  rcases s.nextAnswer_eq with ⟨r, rest, _, h⟩ | ⟨_, h⟩ <;> rw [h]

@[simp] theorem State.nextAnswer_allocLog (s : State) : s.nextAnswer.2.allocLog = s.allocLog := by
  rcases s.nextAnswer_eq with ⟨r, rest, _, h⟩ | ⟨_, h⟩ <;> rw [h]

@[simp] theorem State.nextAnswer_mem (s : State) : s.nextAnswer.2.port.mem = s.port.mem := by
  rcases s.nextAnswer_eq with ⟨r, rest, _, h⟩ | ⟨_, h⟩ <;> rw [h]

theorem State.allocate_frame (s : State) (n : Nat) : CommandFrame s (s.allocate n).2 := by
  have hf := s.nextAnswer_frame
  rcases s.allocate_cases n with ⟨a, _, _, h⟩ | ⟨_, h⟩ <;> rw [h]
  · exact ⟨hf.irqEn, hf.status, hf.cmd, hf.args, hf.agenda, hf.hostData, hf.raced, hf.wf⟩
  · exact hf

@[simp] theorem State.allocate_slots (s : State) (n : Nat) : (s.allocate n).2.slots = s.slots := by
  rcases s.allocate_cases n with ⟨a, _, _, h⟩ | ⟨_, h⟩ <;> simp [h]

@[simp] theorem State.allocate_slot (s : State) (n : Nat) (a : SlotNo) : (s.allocate n).2.slot a = s.slot a :=
  State.slot_eq_of_slots_eq a (s.allocate_slots n)

@[simp] theorem State.allocate_res (s : State) (n : Nat) : (s.allocate n).2.res = s.res := by
  rcases s.allocate_cases n with ⟨a, _, _, h⟩ | ⟨_, h⟩ <;> simp [h]

@[simp] theorem State.allocate_mem (s : State) (n : Nat) : (s.allocate n).2.port.mem = s.port.mem := by
  rcases s.allocate_cases n with ⟨a, _, _, h⟩ | ⟨_, h⟩ <;> simp [h]

theorem CommandFrame.release {s u : State} (h : CommandFrame s u) (d : Slot) : CommandFrame s (u.release d) := by
  unfold State.release; split
  · exact h.free _
  · exact h
  · exact h

@[simp] theorem State.release_slots (s : State) (d : Slot) : (s.release d).slots = s.slots := by
  unfold State.release; split <;> rfl

@[simp] theorem State.release_res (s : State) (d : Slot) : (s.release d).res = s.res := by
  unfold State.release; split <;> rfl

@[simp] theorem State.release_port (s : State) (d : Slot) : (s.release d).port = s.port := by
  unfold State.release; split <;> rfl

@[simp] theorem State.release_allocAnswers (s : State) (d : Slot) :
    (s.release d).allocAnswers = s.allocAnswers := by
  unfold State.release; split <;> rfl

/-! ### How a command ends -/

/-- A command whose checks and effect are `r` either ends in the error `r` gives, from the state it started
in, or succeeds from the state `r` gives (R144, R263). -/
theorem conclude_cases {s t : State} {r : Except Err State} (h : conclude s r = .next t) :
    (∃ e, r = .error e ∧ t = s.complete e.code) ∨ (∃ u, r = .ok u ∧ t = u.complete 0) := by
  unfold conclude at h
  split at h <;> cases h
  · exact .inr ⟨_, rfl, rfl⟩
  · exact .inl ⟨_, rfl, rfl⟩

/-- The error codes that set FAULT (R142, R265). -/
theorem codeSetsFault_eq : ∀ e : BitVec 4, codeSetsFault e = decide (e = 5 ∨ e = 7 ∨ e = 8) := by decide

/-- The completion update (R142). -/
theorem State.complete_completed {s u : State} (h : CommandFrame s u) (e : BitVec 4) :
    Completed e s (u.complete e) := by
  simp only [Completed, State.complete_status, Status.complete, h.status, h.cmd, codeSetsFault_eq, and_self]

theorem State.complete_hostSide {s u : State} (h : CommandFrame s u) (e : BitVec 4) :
    HostSideKept s (u.complete e) :=
  ⟨h.irqEn, h.cmd, h.args, h.agenda, h.hostData⟩

theorem State.complete_endedWith {s u : State} (h : CommandFrame s u) (e : BitVec 4) :
    EndedWith e s (u.complete e) :=
  ⟨State.complete_completed h e, State.complete_hostSide h e⟩

/-- A command that wrote inside `W` only keeps every other byte nobody raced on. -/
theorem State.complete_bytes {W : Nat → Prop} {s u : State} (hr : u.port.raced = s.port.raced)
    (h : ∀ a, ¬ W a → a ∉ s.port.raced → u.port.mem.read a = s.port.mem.read a) (e : BitVec 4) :
    BytesKeptBut W s (u.complete e) :=
  ⟨rfl, fun a ha hn => (Port.settle_read (by rw [hr]; exact hn)).trans (h a ha hn)⟩

/-- `raise E` changes nothing but by the completion update (R144, R263). -/
theorem State.raise_endedInError (s : State) (e : Err) : EndedInError e s (s.raise e) :=
  ⟨State.complete_endedWith (.refl s) _, rfl, rfl, ⟨rfl, rfl⟩,
    State.complete_bytes (W := nowhere) rfl (fun _ _ _ => rfl) _⟩

/-! ### Inversion of the commands -/

theorem State.validSlot_ok {s : State} {a : SlotNo} {d : Slot} :
    s.validSlot a = .ok d ↔ d = s.slot a ∧ (s.slot a).valid = true := by
  unfold State.validSlot
  split
  · next h => exact ⟨fun he => ⟨(Except.ok.inj he).symm, h⟩, fun he => by rw [he.1]⟩
  · next h => exact ⟨fun he => (nomatch he), fun he => absurd he.2 h⟩

theorem State.validSlot_error {s : State} {a : SlotNo} {e : Err} :
    s.validSlot a = .error e ↔ e = .contractViolation ∧ (s.slot a).valid = false := by
  unfold State.validSlot
  split
  · next h => exact ⟨fun he => (nomatch he), fun he => absurd h (by simp [he.2])⟩
  · next h => exact ⟨fun he => ⟨(Except.error.inj he).symm, by simpa using h⟩, fun he => by rw [he.1]⟩

theorem State.allocatedSlot_ok {s : State} {a : SlotNo} {d : Slot} :
    s.allocatedSlot a = .ok d ↔ d = s.slot a ∧ (s.slot a).valid = true ∧ (s.slot a).own ≠ .unallocated := by
  unfold State.allocatedSlot
  split
  · next h => have := State.validSlot_error.1 h; simp [this]
  · next h =>
    obtain ⟨rfl, hv⟩ := State.validSlot_ok.1 h
    split
    · next ho => exact ⟨fun he => (nomatch he), fun he => absurd ho he.2.2⟩
    · next ho => exact ⟨fun he => ⟨(Except.ok.inj he).symm, hv, ho⟩, fun he => by rw [he.1]⟩

theorem State.allocatedSlot_error {s : State} {a : SlotNo} {e : Err} (h : s.allocatedSlot a = .error e) :
    e = .contractViolation := by
  unfold State.allocatedSlot at h
  split at h
  · next h' => cases h; exact (State.validSlot_error.1 h').1
  · split at h <;> cases h; rfl

/-- When CONVERT passes its checks (R225 to R229, R236). -/
theorem convertPlan_ok {sa sb : SlotNo} {s : State} {S D : Slot} {k : Strategy} :
    convertPlan sa sb s = .ok (S, D, k) ↔
      S = s.slot sb ∧ D = s.slot sa ∧ k = select S D ∧
      S.valid = true ∧ S.own ≠ .unallocated ∧ D.valid = true ∧ D.own ≠ .unallocated ∧
      sameGeometry S D = true ∧ buffersOverlap S D = false ∧
      (k.number = 4 → fallbackInside S D = true) := by
  unfold convertPlan
  constructor
  · intro h
    split at h
    · cases h
    · cases h
    · next S' D' hS hD =>
      obtain ⟨rfl, h1, h2⟩ := State.allocatedSlot_ok.1 hS
      obtain ⟨rfl, h3, h4⟩ := State.allocatedSlot_ok.1 hD
      split at h
      · next hg =>
        split at h
        · cases h
        · next ho =>
          split at h
          · cases h
          · next hf =>
            cases h
            refine ⟨rfl, rfl, rfl, h1, h2, h3, h4, hg, by simpa using ho, fun hn => ?_⟩
            by_contra hc
            exact hf ⟨hn, by simpa using hc⟩
      · cases h
  · rintro ⟨rfl, rfl, rfl, h1, h2, h3, h4, hg, ho, hf⟩
    have hS : s.allocatedSlot sb = .ok (s.slot sb) := State.allocatedSlot_ok.2 ⟨rfl, h1, h2⟩
    have hD : s.allocatedSlot sa = .ok (s.slot sa) := State.allocatedSlot_ok.2 ⟨rfl, h3, h4⟩
    simp only [hS, hD, hg, ho, if_true]
    rw [if_neg (by simp), if_neg]
    rintro ⟨hn, hc⟩
    rw [hf hn] at hc
    cases hc

/-- The strategies' frame: only the destination's span is written (R209, R232, R236). -/
theorem fallback_keeps (S D : Slot) (p : Port) :
    Port.Keeps (fun a => ∃ x y, x < S.width.toNat ∧ y < S.height.toNat ∧ a ∈ pixelBytes D x y) p (fallback S D p) := by
  refine Port.Keeps.foldl _ _ (fun y hy q => ?_) p
  refine Port.Keeps.foldl _ _ (fun x hx r => ?_) q
  exact (extract_keeps _ S x y r).trans
    ((deposit_keeps D x y _ _).mono fun a ha => ⟨x, y, List.mem_range.1 hx, List.mem_range.1 hy, ha⟩)

/-- Where a conversion may write. -/
def strategyWrites (S D : Slot) (k : Strategy) (a : Nat) : Prop :=
  match k.number with
  | 1 => D.data.toNat ≤ a ∧ a < D.data.toNat + S.size
  | 2 => D.data.toNat ≤ a ∧ a < D.data.toNat + rowsOf S * D.stride
  | 3 => D.data.toNat ≤ a ∧ a < D.data.toNat + rowsOf S * D.stride
  | _ => ∃ x y, x < S.width.toNat ∧ y < S.height.toNat ∧ a ∈ pixelBytes D x y

theorem runStrategy_keeps (S D : Slot) (k : Strategy) (p : Port) :
    Port.Keeps (strategyWrites S D k) p (runStrategy S D k p) := by
  unfold runStrategy
  split
  · next h => exact (wholeCopy_keeps S D p).mono fun a ha => by simpa [strategyWrites, h] using ha
  · next h => exact (bulkCopy_keeps _ p).mono fun a ha => by simpa [strategyWrites, h] using ha
  · next h => exact (bulkCopy_keeps _ p).mono fun a ha => by simpa [strategyWrites, h] using ha
  · next h1 h2 h3 =>
    refine (fallback_keeps S D p).mono fun a ha => ?_
    unfold strategyWrites
    split
    · next h => exact absurd h h1
    · next h => exact absurd h h2
    · next h => exact absurd h h3
    · exact ha

/-- The number `Select` gives is one of the four. -/
theorem select_number (S D : Slot) :
    (select S D).number = 1 ∨ (select S D).number = 2 ∨ (select S D).number = 3 ∨ (select S D).number = 4 := by
  unfold select; split <;> (try split) <;> (try split) <;> simp

/-! ### The errors each command can raise -/

/-- An error the spec writes to STATUS.ERR (R262): every one but the reserved `NoNativeFormat` (R6). -/
def Err.written (e : Err) : Prop := e ≠ .noNativeFormat

theorem decodeFmt_error {b : Bool} {w : Word} {e : Err} (h : decodeFmt w b = .error e) : e.written := by
  unfold decodeFmt at h
  split at h
  · cases h; simp [Err.written]
  · split at h <;> cases h; simp [Err.written]

theorem resolveBuffer_error {d : Slot} {m : BufferMode} {o : Bool} {x y z : Word} {e : Err}
    (h : resolveBuffer d m o x y z = .error e) : e = .bufferTooSmall := by
  unfold resolveBuffer at h
  split at h
  · cases h
  · split at h <;> cases h; rfl
  · split at h
    · split at h <;> cases h
    · cases h; rfl
  · cases h

theorem createPlan_error {sa : SlotNo} {s : State} {e : Err} (h : createPlan sa s = .error e) : e.written := by
  unfold createPlan State.fmtArg at h
  split at h
  · split at h
    · next h' => cases h; exact decodeFmt_error h'
    · split at h
      · cases h; simp [Err.written]
      · split at h
        · rw [resolveBuffer_error h]; simp [Err.written]
        · cases h; simp [Err.written]
  · cases h; simp [Err.written]

theorem pixaddrWords_error {d : Slot} {x y k : Nat} {e : Err} (h : pixaddrWords d x y k = .error e) :
    e = .contractViolation := by
  unfold pixaddrWords at h
  split at h
  · split at h <;> cases h; rfl
  · cases h

theorem convertPlan_error {sa sb : SlotNo} {s : State} {e : Err} (h : convertPlan sa sb s = .error e) :
    e.written := by
  unfold convertPlan at h
  split at h
  · next h' => cases h; rw [State.allocatedSlot_error h']; simp [Err.written]
  · next h' => cases h; rw [State.allocatedSlot_error h']; simp [Err.written]
  · split at h
    · split at h
      · cases h; simp [Err.written]
      · split at h <;> cases h; simp [Err.written]
    · cases h; simp [Err.written]

/-- The code of a written error is one R262 lists. -/
theorem Err.written_code {e : Err} (h : e.written) : e.code ≤ 5 ∨ e.code = 7 ∨ e.code = 8 := by
  cases e <;> first | exact absurd rfl h | decide

/-! ### What a command's checks and effect can be -/

/-- `r` is the answer of a command's checks: an error the spec writes, or a state whose host side is that of
`s`. -/
def EffectOf (s : State) (r : Except Err State) : Prop :=
  match r with
  | .ok u => CommandFrame s u
  | .error e => e.written

theorem validateEffect_effect (s : State) : EffectOf s (validateEffect s) := by
  unfold validateEffect
  split
  · next h => exact decodeFmt_error h
  · exact (CommandFrame.refl s).setRes _ _

theorem geomEffect_effect (s : State) : EffectOf s (geomEffect s) := by
  unfold geomEffect State.fmtArg
  split
  · next h => exact decodeFmt_error h
  · split
    · exact (((CommandFrame.refl s).setRes _ _).setRes _ _).setRes _ _
    · simp [EffectOf, Err.written]

theorem validSlot_written {s : State} {a : SlotNo} {e : Err} (h : s.validSlot a = .error e) : e.written := by
  rw [(State.validSlot_error.1 h).1]; simp [Err.written]

theorem annotateEffect_effect (sa : SlotNo) (s : State) : EffectOf s (annotateEffect sa s) := by
  unfold annotateEffect
  split
  · next h => exact validSlot_written h
  · exact (CommandFrame.refl s).setSlot _ _

theorem destroyEffect_effect (sa : SlotNo) (s : State) : EffectOf s (destroyEffect sa s) := by
  unfold destroyEffect
  split
  · next h => exact validSlot_written h
  · exact ((CommandFrame.refl s).release _).setSlot _ _

theorem setmaskEffect_effect (sa : SlotNo) (s : State) : EffectOf s (setmaskEffect sa s) := by
  unfold setmaskEffect
  split
  · next h => exact validSlot_written h
  · exact (CommandFrame.refl s).setSlot _ _

theorem queryEffect_effect (sa : SlotNo) (s : State) : EffectOf s (queryEffect sa s) := by
  unfold queryEffect
  split
  · simp [EffectOf, Err.written]
  · split
    · next h => exact validSlot_written h
    · exact (((CommandFrame.refl s).setRes _ _).setRes _ _).setRes _ _

theorem pixaddrEffect_effect (sa : SlotNo) (s : State) : EffectOf s (pixaddrEffect sa s) := by
  unfold pixaddrEffect
  split
  · next h => exact validSlot_written h
  · split
    · split
      · next h => rw [pixaddrWords_error h]; simp [EffectOf, Err.written]
      · exact (((CommandFrame.refl s).setRes _ _).setRes _ _).setRes _ _
    · simp [EffectOf, Err.written]

theorem permlookupEffect_effect (s : State) : EffectOf s (permlookupEffect s) := by
  unfold permlookupEffect
  dsimp only
  split
  · simp [EffectOf, Err.written]
  · split
    · exact (CommandFrame.refl s).setRes _ _
    · simp [EffectOf, Err.written]

theorem bytexformEffect_effect (s : State) : EffectOf s (bytexformEffect s) := by
  unfold bytexformEffect
  dsimp only
  split
  · simp [EffectOf, Err.written]
  · exact (CommandFrame.refl s).setRes _ _

/-- `t` is what a command leaves: the completion update of a code R262 lists, after effects that leave the
host's side alone. -/
def EndOf (s t : State) : Prop :=
  ∃ u e, t = u.complete e ∧ CommandFrame s u ∧ (e ≤ 5 ∨ e = 7 ∨ e = 8)

theorem raise_endOf {s u : State} {e : Err} (hf : CommandFrame s u) (h : e.written) : EndOf s (u.raise e) :=
  ⟨u, e.code, rfl, hf, Err.written_code h⟩

theorem finish_endOf {s u : State} (hf : CommandFrame s u) : EndOf s u.finish :=
  ⟨u, 0, rfl, hf, by decide⟩

theorem conclude_endOf {s t : State} {r : Except Err State} (hr : EffectOf s r) (h : conclude s r = .next t) :
    EndOf s t := by
  rcases conclude_cases h with ⟨e, rfl, rfl⟩ | ⟨u, rfl, rfl⟩
  · exact raise_endOf (.refl s) hr
  · exact finish_endOf hr

theorem execCreate_endOf {sa : SlotNo} {s t : State} (h : execCreate sa s = .next t) : EndOf s t := by
  unfold execCreate at h
  split at h
  · next he => cases h; exact raise_endOf (.refl s) (createPlan_error he)
  · cases h; exact finish_endOf ((CommandFrame.refl s).setSlot _ _)
  · next d _ =>
    cases h
    have hf := s.allocate_frame d.size
    unfold createAllocating
    split
    · next u hu => rw [hu] at hf; exact raise_endOf hf (by simp [Err.written])
    · next a u hu => rw [hu] at hf; exact finish_endOf ((hf.fillFresh _ _).setSlot _ _)

theorem execGetpixel_endOf {sa : SlotNo} {s t : State} (h : execGetpixel sa s = .next t) : EndOf s t := by
  unfold execGetpixel at h
  split at h
  · next he => cases h; exact raise_endOf (.refl s) (by rw [pixelTarget_error he]; simp [Err.written])
  · dsimp only at h
    split at h <;> cases h
    exact finish_endOf ((CommandFrame.ofKeeps (extract_keeps nowhere _ _ _ _)).setRes _ _)

theorem execPutpixel_endOf {sa : SlotNo} {s t : State} (h : execPutpixel sa s = .next t) : EndOf s t := by
  unfold execPutpixel at h
  split at h
  · next he => cases h; exact raise_endOf (.refl s) (by rw [pixelTarget_error he]; simp [Err.written])
  · dsimp only at h
    split at h <;> cases h
    exact finish_endOf (CommandFrame.ofKeeps (deposit_keeps _ _ _ _ _))

theorem execConvert_endOf {sa sb : SlotNo} {s t : State} (h : execConvert sa sb s = .next t) : EndOf s t := by
  unfold execConvert at h
  split at h
  · next he => cases h; exact raise_endOf (.refl s) (convertPlan_error he)
  · split at h <;> cases h
    exact finish_endOf (((CommandFrame.ofKeeps (runStrategy_keeps _ _ _ _)).setRes _ _).setRes _ _)

/-- Whatever a command does, it ends in the completion update of a code R262 lists, after effects that leave
the host's side alone (R142). -/
theorem exec_next {i : Instr} {s t : State} (h : exec i s = .next t) : EndOf s t := by
  cases i with
  | nop => exact conclude_endOf (r := .ok s) (CommandFrame.refl s) h
  | validate => exact conclude_endOf (validateEffect_effect s) h
  | geom => exact conclude_endOf (geomEffect_effect s) h
  | create sa => exact execCreate_endOf h
  | annotate sa => exact conclude_endOf (annotateEffect_effect sa s) h
  | destroy sa => exact conclude_endOf (destroyEffect_effect sa s) h
  | setmask sa => exact conclude_endOf (setmaskEffect_effect sa s) h
  | query sa => exact conclude_endOf (queryEffect_effect sa s) h
  | getpixel sa => exact execGetpixel_endOf h
  | putpixel sa => exact execPutpixel_endOf h
  | pixaddr sa => exact conclude_endOf (pixaddrEffect_effect sa s) h
  | permlookup => exact conclude_endOf (permlookupEffect_effect s) h
  | bytexform => exact conclude_endOf (bytexformEffect_effect s) h
  | convert sa sb => exact execConvert_endOf h

end Sys2Proof.Machine
end

