-- ==== Sys2Proof/Laws/Descriptor.lean ====
section
/-! SUPPORT. What `Annotate` gives (spec/41_validator.md R152, R155, R157) and that each descriptor operation
makes a slot that is as R41 to R43 say (spec/42_descriptor.md). -/
namespace Sys2Proof.Machine

/-! ### The validator and the annotate step -/

theorem isUnitSize_iff {n : Nat} : isUnitSize n = true ↔ n = 8 ∨ n = 16 ∨ n = 32 := by
  simp [isUnitSize, or_assoc]

/-- The accepted Planar tuples (R152). -/
theorem valid_planar {f : Format} (h : f.valid = true) (hf : f.family = .planar) :
    f.depth.toNat ≤ f.bpp.toNat ∧ f.bpp.toNat ≤ f.unit.toNat ∧ f.bpp.toNat ≤ f.pad.toNat ∧
      (f.unit.toNat = 8 ∨ f.unit.toNat = 16 ∨ f.unit.toNat = 32) ∧
      (f.pad.toNat = 8 ∨ f.pad.toNat = 16 ∨ f.pad.toNat = 32) := by
  simp only [Format.valid, validate, hf, Bool.and_eq_true, decide_eq_true_eq, isUnitSize_iff] at h
  tauto

/-- The accepted Packed tuples (R152). -/
theorem valid_packed {f : Format} (h : f.valid = true) (hf : f.family = .packed) :
    f.depth.toNat ≤ f.bpp.toNat ∧
      (f.pad.toNat = 8 ∨ f.pad.toNat = 16 ∨ f.pad.toNat = 32) ∧
      ((f.bpp.toNat = 4 ∧ f.unit.toNat = 8) ∨ (f.bpp.toNat = 8 ∧ f.unit.toNat = 8) ∨
        (f.bpp.toNat = 16 ∧ f.unit.toNat = 16) ∨ (f.bpp.toNat = 24 ∧ f.unit.toNat = 24) ∨
        (f.bpp.toNat = 32 ∧ f.unit.toNat = 32)) := by
  simp only [Format.valid, validate, hf, Bool.and_eq_true, decide_eq_true_eq, isUnitSize_iff, Bool.or_eq_true,
    beq_iff_eq] at h
  obtain ⟨⟨⟨h1, _⟩, h3⟩, h4⟩ := h
  refine ⟨h1, h3, ?_⟩
  omega

theorem valid_pad {f : Format} (h : f.valid = true) :
    f.pad.toNat = 8 ∨ f.pad.toNat = 16 ∨ f.pad.toNat = 32 := by
  cases hf : f.family with
  | planar => exact (valid_planar h hf).2.2.2.2
  | packed => exact (valid_packed h hf).2.1

theorem valid_depth {f : Format} (h : f.valid = true) : f.depth.toNat ≤ 32 := by
  cases hf : f.family with
  | planar => have := valid_planar h hf; omega
  | packed => have := valid_packed h hf; omega

/-- `roundUp` is the least multiple of `p` that is at least `v`; over 8 it gives whole bytes (R154, R157). -/
theorem le_roundUp {p : Nat} (v : Nat) (hp : 0 < p) : v ≤ roundUp v p := by
  unfold roundUp
  have := Nat.div_add_mod (v + p - 1) p
  have := Nat.mod_lt (v + p - 1) hp
  rw [Nat.mul_comm]
  omega

theorem roundUp_eight {f : Format} (h : f.valid = true) (v : Nat) :
    roundUp v f.pad.toNat / 8 * 8 = roundUp v f.pad.toNat := by
  unfold roundUp
  rcases valid_pad h with hp | hp | hp <;> rw [hp] <;> omega

/-- "stride*8 >= width*bpp_effective" (R157), Packed. -/
theorem packed_stride {f : Format} (h : f.valid = true) (hf : f.family = .packed) (w ht : Nat) :
    w * f.bpp.toNat ≤ (annotate f w ht).stride * 8 := by
  simp only [annotate, hf]
  rw [roundUp_eight h]
  exact le_roundUp _ (by rcases valid_pad h with hp | hp | hp <;> omega)

/-- "stride*8 >= width*bpp_effective" (R157), Planar. -/
theorem planar_stride {f : Format} (h : f.valid = true) (hf : f.family = .planar) (w ht : Nat) :
    w ≤ (annotate f w ht).stride * 8 := by
  simp only [annotate, hf]
  rw [roundUp_eight h]
  exact le_roundUp _ (by rcases valid_pad h with hp | hp | hp <;> omega)

/-- The size of an annotated slot is its row count times its stride (R155, R208). -/
theorem ok_size {d : Slot} (h : d.Ok) (hv : d.valid = true) : d.size = rowsOf d * d.stride := by
  obtain ⟨_, hs, hz, _⟩ := h hv
  rw [hz, hs]
  unfold rowsOf annotate
  cases d.fmt.family <;> simp only
  rw [Nat.mul_assoc, Nat.mul_assoc, Nat.mul_comm (roundUp _ _ / 8)]

/-! ### Slots stay as R41 to R43 say -/

theorem ok_of_invalid {d : Slot} (h : d.valid = false) : d.Ok := fun hv => by rw [h] at hv; cases hv

theorem ofNat_planeMask_lt (n : Nat) : (BitVec.ofNat 32 (2 ^ n - 1)).toNat < 2 ^ n := by
  rw [BitVec.toNat_ofNat]
  have h1 : (2 ^ n - 1) % 2 ^ 32 ≤ 2 ^ n - 1 := Nat.mod_le _ _
  have h2 : 0 < 2 ^ n := Nat.two_pow_pos n
  omega

theorem annotate_planeMask_planar {f : Format} (hf : f.family = .planar) (w ht : Nat) :
    (annotate f w ht).planeMask.toNat < 2 ^ f.depth.toNat := by
  simp only [annotate, hf]
  exact ofNat_planeMask_lt _

theorem annotate_planeMask_packed {f : Format} (hf : f.family = .packed) (w ht : Nat) :
    (annotate f w ht).planeMask = 0 := by simp only [annotate, hf]

/-- ANNOTATE keeps a slot as R41 says. -/
theorem ok_annotated {d : Slot} (h : d.Ok) : d.annotated.Ok := by
  intro hv
  obtain ⟨h1, h2, h3, _, _, h6, h7, h8, h9⟩ := h hv
  refine ⟨h1, rfl, rfl, fun hf => annotate_planeMask_planar hf _ _, fun hf => annotate_planeMask_packed hf _ _,
    h6, h7, h8, fun ho => ?_⟩
  have := h9 ho
  rw [h3] at this
  exact this

/-- SETMASK keeps a slot as R41 says. -/
theorem ok_withMask {d : Slot} (h : d.Ok) (m : Word) : (d.withMask m).Ok := by
  unfold Slot.withMask
  split
  · next hf =>
    intro hv
    obtain ⟨h1, h2, h3, _, _, h6⟩ := h hv
    refine ⟨h1, h2, h3, fun _ => ?_, fun hp => ?_, h6⟩
    · simp only [BitVec.toNat_and]
      exact Nat.lt_of_le_of_lt Nat.and_le_right (ofNat_planeMask_lt _)
    · simp only at hp; rw [hf] at hp; cases hp
  · exact h

/-- A descriptor CREATE has built and given a buffer (R171 to R174). -/
theorem ok_newDescriptor {f : Format} {wh : Word} {o : Ownership} {a b : Word} (hf : f.valid = true)
    (h1 : o = .unallocated → a = 0 ∧ b = 0) (h2 : o = .borrowedView → b = 0) (h3 : o = .ownedAllocation → b = a)
    (h4 : o ≠ .unallocated → a.toNat + (newDescriptor f wh).size ≤ Config.addrSpace) :
    ({ newDescriptor f wh with own := o, data := a, base := b } : Slot).Ok := fun _ =>
  ⟨hf, rfl, rfl, fun h => annotate_planeMask_planar h _ _, fun h => annotate_planeMask_packed h _ _, h1, h2, h3, h4⟩

/-- All that `resolveBuffer` can answer: a descriptor whose buffer fits, or one that still needs memory. -/
theorem resolveBuffer_ok {f : Format} {wh : Word} {m : BufferMode} {o : Bool} {x y z : Word} {p : CreatePlan}
    (hf : f.valid = true) (h : resolveBuffer (newDescriptor f wh) m o x y z = .ok p) :
    (∃ d, p = .ready d ∧ d.Ok ∧ d.valid = true) ∨ (p = .allocate (newDescriptor f wh) ∧ m = .alloc) := by
  have hfit : ∀ {n a k}, bufferFits n a k = true → a + k ≤ Config.addrSpace := by
    intro n a k h
    simp only [bufferFits, fitsMemory, Bool.and_eq_true, decide_eq_true_eq] at h
    exact h.2
  unfold resolveBuffer at h
  split at h
  · cases h; exact .inl ⟨_, rfl, ok_newDescriptor hf (by simp) (by simp) (by simp) (by simp), rfl⟩
  · split at h <;> cases h
    next hb => exact .inl ⟨_, rfl, ok_newDescriptor hf (by simp) (by simp) (by simp) (fun _ => hfit hb), rfl⟩
  · split at h
    · next hb =>
      split at h <;> cases h
      · exact .inl ⟨_, rfl, ok_newDescriptor hf (by simp) (by simp) (by simp) (fun _ => hfit hb), rfl⟩
      · exact .inl ⟨_, rfl, ok_newDescriptor hf (by simp) (by simp) (by simp) (fun _ => hfit hb), rfl⟩
    · cases h
  · cases h; exact .inr ⟨rfl, rfl⟩

/-- All that CREATE's checks can answer (R171). -/
theorem createPlan_ok {sa : SlotNo} {s : State} {p : CreatePlan} (h : createPlan sa s = .ok p) :
    (s.slot sa).valid = false ∧ ∃ f, s.fmtArg = .ok f ∧ f.valid = true ∧
      ((∃ d, p = .ready d ∧ d.Ok ∧ d.valid = true) ∨
        (p = .allocate (newDescriptor f (s.arg 1)) ∧ modeCase (s.arg 2) = .alloc)) := by
  unfold createPlan at h
  split at h
  · split at h
    · cases h
    · next f hfm =>
      split at h
      · cases h
      · next hv =>
        split at h
        · next hf => exact ⟨by simpa using hv, f, hfm, hf, resolveBuffer_ok hf h⟩
        · cases h
  · cases h

theorem answerLawful_fits {s : State} {a : Word} {n : Nat} (h : s.answerLawful a n = true) :
    a.toNat + n ≤ Config.addrSpace := by
  simp only [State.answerLawful, fitsMemory, Bool.and_eq_true, decide_eq_true_eq] at h
  exact h.1

/-- All that CREATE in ALLOC mode does once its other checks have passed (R174, R84). -/
theorem createAllocating_cases (sa : SlotNo) (d : Slot) (s : State) :
    (∃ a, s.nextAnswer.1 = some a ∧ s.answerLawful a d.size = true ∧
      createAllocating sa d s =
        ((({ s.nextAnswer.2 with allocLog := s.nextAnswer.2.allocLog ++ [.alloc a d.size] } : State).fillFresh a
          d.size).setSlot sa { d with own := .ownedAllocation, data := a, base := a }).complete 0) ∨
    ((∀ a, s.nextAnswer.1 = some a → s.answerLawful a d.size = false) ∧
      createAllocating sa d s = s.nextAnswer.2.complete Err.allocationFailure.code) := by
  unfold createAllocating
  rcases s.allocate_cases d.size with ⟨a, h1, h2, h⟩ | ⟨h1, h⟩ <;> rw [h]
  · exact .inl ⟨a, h1, h2, rfl⟩
  · exact .inr ⟨h1, rfl⟩

/-! ### What a command does to the slots -/

/-- Every slot a command leaves is as it was or is made as R41 to R43 say. -/
theorem exec_slots {i : Instr} {s t : State} (h : exec i s = .next t) (hok : ∀ a, (s.slot a).Ok) (a : SlotNo) :
    (t.slot a).Ok := by
  have same : ∀ {r : Except Err State}, (∀ u, r = .ok u → u.slots = s.slots) → conclude s r = .next t →
      (t.slot a).Ok := by
    intro r hr hc
    rcases conclude_cases hc with ⟨e, _, rfl⟩ | ⟨u, hu, rfl⟩
    · exact hok a
    · rw [State.complete_slot, State.slot_eq_of_slots_eq a (hr u hu)]; exact hok a
  have put : ∀ {u : State} {b : SlotNo} {d : Slot}, u.slots = s.slots → d.Ok → ((u.setSlot b d).slot a).Ok := by
    intro u b d hu hd
    rw [State.slot_setSlot]
    split
    · exact hd
    · rw [State.slot_eq_of_slots_eq a hu]; exact hok a
  have one : ∀ {b : SlotNo} {r : Except Err State} {g : State → Slot → State},
      (∀ d, d = s.slot b → ((g s d).slot a).Ok) →
      r = (match s.validSlot b with | .error e => .error e | .ok d => .ok (g s d)) →
      conclude s r = .next t → (t.slot a).Ok := by
    intro b r g hg hr hc
    rcases conclude_cases hc with ⟨e, _, rfl⟩ | ⟨u, hu, rfl⟩
    · exact hok a
    · rw [hr] at hu
      split at hu <;> cases hu
      next d hd => rw [State.complete_slot]; exact hg d (State.validSlot_ok.1 hd).1
  cases i with
  | nop => exact same (r := .ok s) (fun u hu => by cases hu; rfl) h
  | validate =>
    refine same (fun u hu => ?_) h
    unfold validateEffect at hu
    split at hu <;> cases hu; rfl
  | geom =>
    refine same (fun u hu => ?_) h
    unfold geomEffect at hu
    split at hu
    · cases hu
    · split at hu <;> cases hu; rfl
  | create sa =>
    change execCreate sa s = .next t at h
    unfold execCreate at h
    split at h
    · cases h; exact hok a
    · next d hp =>
      cases h
      obtain ⟨_, f, _, hf, ⟨d', he, hd, _⟩ | ⟨he, _⟩⟩ := createPlan_ok hp
      · cases he; exact put rfl hd
      · cases he
    · next d hp =>
      cases h
      obtain ⟨_, f, _, hf, ⟨d', he, hd, _⟩ | ⟨he, _⟩⟩ := createPlan_ok hp
      · cases he
      · cases he
        rcases createAllocating_cases sa (newDescriptor f (s.arg 1)) s with ⟨w, _, hl, ht⟩ | ⟨_, ht⟩ <;> rw [ht]
        · exact put (by simp)
            (ok_newDescriptor hf (by simp) (by simp) (by simp) (fun _ => answerLawful_fits hl))
        · rw [State.complete_slot, State.slot_eq_of_slots_eq a (State.nextAnswer_slots s)]; exact hok a
  | annotate sa =>
    exact one (g := fun s d => s.setSlot sa d.annotated)
      (fun d hd => put rfl (ok_annotated (by rw [hd]; exact hok sa))) rfl h
  | destroy sa =>
    exact one (g := fun s d => (s.release d).setSlot sa { d with valid := false })
      (fun d hd => put (by simp) (ok_of_invalid rfl)) rfl h
  | setmask sa =>
    exact one (g := fun s d => s.setSlot sa (d.withMask (s.arg 0)))
      (fun d hd => put rfl (ok_withMask (by rw [hd]; exact hok sa) _)) rfl h
  | query sa =>
    refine same (fun u hu => ?_) h
    unfold queryEffect at hu
    split at hu
    · cases hu
    · split at hu <;> cases hu; rfl
  | getpixel sa =>
    change execGetpixel sa s = .next t at h
    unfold execGetpixel at h
    split at h
    · cases h; exact hok a
    · dsimp only at h; split at h <;> cases h; exact hok a
  | putpixel sa =>
    change execPutpixel sa s = .next t at h
    unfold execPutpixel at h
    split at h
    · cases h; exact hok a
    · dsimp only at h; split at h <;> cases h; exact hok a
  | pixaddr sa =>
    refine same (fun u hu => ?_) h
    unfold pixaddrEffect at hu
    split at hu
    · cases hu
    · split at hu
      · split at hu <;> cases hu; rfl
      · cases hu
  | permlookup =>
    refine same (fun u hu => ?_) h
    unfold permlookupEffect at hu
    dsimp only at hu
    split at hu
    · cases hu
    · split at hu <;> cases hu; rfl
  | bytexform =>
    refine same (fun u hu => ?_) h
    unfold bytexformEffect at hu
    dsimp only at hu
    split at hu <;> cases hu; rfl
  | convert sa sb =>
    change execConvert sa sb s = .next t at h
    unfold execConvert at h
    split at h
    · cases h; exact hok a
    · split at h <;> cases h; exact hok a

end Sys2Proof.Machine
end

