-- ==== Sys2Proof/Laws/Step.lean ====
section
/-! SUPPORT. What a step can do: one equation for `step`, and what each turn of the host leaves. -/
namespace Sys2Proof.Machine

/-- A step takes the next turn of the agenda, the engine's where none is due. -/
theorem step_eq (s : State) :
    step s = takeTurn (s.agenda.headD .engine) { s with agenda := s.agenda.tail } := by
  unfold step
  split
  · next h => cases s; simp only at h; subst h; rfl
  · next h => rw [h]; rfl

/-- All that the engine's turn can do (R141). -/
theorem engineTurn_cases {s : State} {o : Host.Outcome State Fault Refusal} (h : engineTurn s = o) :
    (s.status.busy = false ∧ o = .next s) ∨
    (s.status.busy = true ∧ ∃ i, decode s.cmd = .ok i ∧ exec i s = o) ∨
    (s.status.busy = true ∧ ∃ r, decode s.cmd = .error r ∧ o = .next (s.raise .illegalCommand)) := by
  unfold engineTurn at h
  split at h
  · next hb =>
    split at h
    · next i hi => exact .inr (.inl ⟨hb, i, hi, h⟩)
    · next r hr => exact .inr (.inr ⟨hb, r, hr, h.symm⟩)
  · next hb => exact .inl ⟨by simpa using hb, h.symm⟩

/-- While BUSY is 0 no byte is in flight. -/
theorem inFlight_of_idle {s : State} (h : s.status.busy = false) (a : Nat) : s.inFlight a = false := by
  simp [State.inFlight, h]

/-- The in-flight set depends on BUSY, CMD, the ARG registers and the slots alone (R92). -/
theorem inFlight_congr {s t : State} (h1 : t.status.busy = s.status.busy) (h2 : t.cmd = s.cmd)
    (h3 : t.args = s.args) (h4 : t.slots = s.slots) (a : Nat) : t.inFlight a = s.inFlight a := by
  have ha : ∀ i, t.arg i = s.arg i := fun i => by simp [State.arg, h3]
  have hs : ∀ b, t.slot b = s.slot b := fun b => State.slot_eq_of_slots_eq b h4
  have hp : ∀ b, pendingPixelBytes b t = pendingPixelBytes b s := by
    intro b; simp [pendingPixelBytes, pixelTarget, State.validSlot, ha, hs]
  have hi : ∀ i, inFlightOf i t a = inFlightOf i s a := by
    intro i; cases i <;> simp [inFlightOf, hp, hs]
  simp [State.inFlight, h1, h2, hi]

@[simp] theorem Port.drawWord_mem (p : Port) : p.drawWord.2.mem = p.mem := by simp [Port.drawWord]

@[simp] theorem Port.drawWord_raced (p : Port) : p.drawWord.2.raced = p.raced := by simp [Port.drawWord]

/-- A word is its four bytes. -/
theorem word_of_bytes (v : Word) :
    v.extractLsb' 24 8 ++ v.extractLsb' 16 8 ++ v.extractLsb' 8 8 ++ v.extractLsb' 0 8 = v := by
  apply BitVec.eq_of_getLsbD_eq
  intro i hi
  simp only [BitVec.getLsbD_append, BitVec.getLsbD_extractLsb']
  split
  · simp [*]
  · split
    · simp [*]; congr 1; dsimp only; omega
    · split
      · simp [*]; congr 1; dsimp only; omega
      · have : i - 8 - 8 - 8 < 8 := by omega
        simp [this]; congr 1; omega

/-- Reading a register changes no byte and no raced set. -/
theorem readReg_port (r : Reg) (s : State) :
    (readReg r s).2.mem = s.port.mem ∧ (readReg r s).2.raced = s.port.raced := by
  unfold readReg; split <;> (try split) <;> simp

/-- Abandoning a command leaves memory canonical and no byte raced; the slots stay (R292). -/
theorem abandon_spec (s : State) :
    s.abandon.slots = s.slots ∧ s.abandon.port.raced = [] ∧
      (s.port.mem.wf = true → s.abandon.port.mem.wf = true) := by
  unfold State.abandon
  split
  · next i _ =>
    have hbase : ∀ l, (s.port.scramble l).settle.raced = [] ∧
        (s.port.mem.wf = true → (s.port.scramble l).settle.mem.wf = true) :=
      fun l => ⟨rfl, fun h => Port.settle_wf (Port.scramble_wf l h)⟩
    obtain ⟨hb1, hb2⟩ := hbase (inFlightWrites i s)
    have key : ∀ u : State, u.slots = s.slots → u.port.raced = [] →
        (s.port.mem.wf = true → u.port.mem.wf = true) →
        (abandonAlloc i u).slots = s.slots ∧ (abandonAlloc i u).port.raced = [] ∧
          (s.port.mem.wf = true → (abandonAlloc i u).port.mem.wf = true) := by
      intro u h1 h2 h3
      cases i <;> simp only [abandonAlloc] <;> try exact ⟨h1, h2, h3⟩
      split
      · next d _ =>
        split
        · have hf := ({ u with port := u.port.draw.2 } : State).allocate_frame d.size
          exact ⟨by simp [h1], by rw [hf.raced]; simp [h2], fun hw => by simp [h3 hw]⟩
        · exact ⟨h1, by simp [h2], fun hw => by simp [h3 hw]⟩
      · exact ⟨h1, h2, h3⟩
      · exact ⟨h1, h2, h3⟩
    exact key _ rfl hb1 hb2
  · exact ⟨rfl, rfl, fun h => Port.settle_wf h⟩

/-- What a reset leaves (R290): every register at its reset value, every slot invalid. -/
theorem deviceReset_regs (s : State) :
    s.deviceReset.irqEn = false ∧ s.deviceReset.status = Status.atReset ∧ s.deviceReset.cmd = 0 ∧
      s.deviceReset.args = Vector.replicate 6 0 ∧ s.deviceReset.res = Vector.replicate 3 0 ∧
      ∀ a, (s.deviceReset.slot a).valid = false := by
  refine ⟨rfl, rfl, rfl, rfl, rfl, fun a => ?_⟩
  simp [State.slot, State.deviceReset]

end Sys2Proof.Machine
end

