-- ==== Sys2Proof/Laws/Turns.lean ====
section
/-! SUPPORT. All that one step can do, turn by turn: the engine's, a reset, another host turn. -/
namespace Sys2Proof.Machine

/-- A host address inside the window is its base and an offset (R31). -/
@[simp] theorem regAt_base (base o b : Nat) : regAt base (base + o) b = regAtOffset o b := by
  simp [regAt]

/-- A step with a turn due takes it. -/
theorem step_cons {s : State} {t : Turn} {rest : List Turn} (h : s.agenda = t :: rest) :
    step s = takeTurn t { s with agenda := rest } := by simp [step, h]

/-- The step of a host read of the register at an offset of the window (R31). -/
theorem step_regRead {s : State} {o : Nat} {r : Reg} {rest : List Turn}
    (h : s.agenda = .regRead (Config.regBase + o) 4 :: rest) (hr : regAtOffset o 4 = some r) :
    step s = .next { s with
      agenda := rest
      port := (readReg r { s with agenda := rest }).2
      hostData := (readReg r { s with agenda := rest }).1 } := by
  rw [step_cons h]; simp [takeTurn, hostRegRead, hr]

/-- The step of a host write of the register at an offset of the window (R31). -/
theorem step_regWrite {s : State} {o : Nat} {r : Reg} {v : Word} {rest : List Turn}
    (h : s.agenda = .regWrite (Config.regBase + o) 4 v :: rest) (hr : regAtOffset o 4 = some r) :
    step s = .next (writeReg r v { s with agenda := rest }) := by
  rw [step_cons h]; simp [takeTurn, hostRegWrite, hr]

/-- The engine's step (R141). -/
theorem step_engine {s : State} (he : engineDue s) : step s = engineTurn (afterTurn s) := by
  rw [step_eq, he]; rfl

/-- The step of a reset turn, hard or soft (R37, R290). -/
theorem step_reset {s : State} (hr : resetDue s) : step s = .next (State.deviceReset { s with agenda := s.agenda.tail }) := by
  rw [step_eq]
  rcases hr with hr | ⟨v, hv, hr⟩ <;> rw [hr]
  · rfl
  · simp [takeTurn, hostRegWrite, regAtOffset, writeReg, hv]

/-- The offset of ARGi (R31). -/
theorem regAtOffset_arg (i : Fin 6) : regAtOffset (0x14 + 4 * i.val) 4 = some (.arg i) := by
  revert i; decide

/-- The offset of RESi (R31). -/
theorem regAtOffset_res (i : Fin 3) : regAtOffset (0x2C + 4 * i.val) 4 = some (.res i) := by
  revert i; decide

/-- Which offsets have a register (R75). -/
theorem regAtOffset_some {o b : Nat} : (∃ r, regAtOffset o b = some r) ↔ (b = 4 ∧ o % 4 = 0 ∧ o < 64) := by
  unfold regAtOffset
  constructor
  · rintro ⟨r, h⟩
    split at h
    · cases h
    · next hb => refine ⟨by simpa using hb, ?_⟩; split at h <;> simp_all
  · rintro ⟨rfl, h1, h2⟩
    rw [if_neg (by simp)]
    interval_cases o <;> simp at h1 ⊢

/-- Which host addresses have a register (R31, R75). -/
theorem regAt_some {base a b : Nat} :
    (∃ r, regAt base a b = some r) ↔ (b = 4 ∧ base ≤ a ∧ (a - base) % 4 = 0 ∧ a < base + 64) := by
  unfold regAt
  split
  · constructor
    · rintro ⟨r, h⟩; cases h
    · omega
  · rw [regAtOffset_some]; omega

/-- CTRL stands at offset 0x08 only (R31). -/
theorem regAt_ctrl {base a b : Nat} {r : Reg} (h : regAt base a b = some r) : r = .ctrl → a = base + 8 ∧ b = 4 := by
  rintro rfl
  unfold regAt at h
  split at h
  · cases h
  · unfold regAtOffset at h
    split at h
    · cases h
    · split at h <;> simp_all
      omega

/-- The agenda has no part in the in-flight set. -/
theorem inFlight_agenda (s : State) (l : List Turn) (a : Nat) : ({ s with agenda := l } : State).inFlight a = s.inFlight a :=
  inFlight_congr (s := s) rfl rfl rfl rfl a

/-- What a host turn that is no reset leaves alone, and that it races on in-flight bytes only (R92). -/
structure HostStep (s t : State) : Prop where
  slots : t.slots = s.slots
  log : t.allocLog = s.allocLog
  err : t.status.err = s.status.err
  fault : t.status.fault = s.status.fault
  wf : s.port.mem.wf = true → t.port.mem.wf = true
  raced : (∀ a ∈ s.port.raced, s.inFlight a = true) → (∀ a ∈ t.port.raced, t.inFlight a = true)

/-- All a step can be. -/
theorem step_cases {s t : State} (h : step s = .next t) :
    (engineDue s ∧ engineTurn (afterTurn s) = .next t) ∨
    (resetDue s ∧ t = (afterTurn s).deviceReset) ∨
    (¬ engineDue s ∧ ¬ resetDue s ∧ HostStep s t) := by
  by_cases he : engineDue s
  · exact .inl ⟨he, by rw [← step_engine he]; exact h⟩
  by_cases hr : resetDue s
  · rw [step_reset hr] at h
    exact .inr (.inl ⟨hr, (Host.Outcome.next.inj h).symm⟩)
  refine .inr (.inr ⟨he, hr, ?_⟩)
  rw [step_eq] at h
  simp only [engineDue, resetDue, not_or, not_exists, not_and] at he hr
  generalize s.agenda.headD .engine = turn at h he hr
  cases turn with
  | engine => exact absurd rfl he
  | hardReset => exact absurd rfl hr.1
  | regRead o b =>
    simp only [takeTurn, hostRegRead] at h
    split at h
    · cases h
    · next r _ =>
      cases h
      obtain ⟨h1, h2⟩ := readReg_port r { s with agenda := s.agenda.tail }
      refine ⟨rfl, rfl, rfl, rfl, by simp only [h1]; exact id, fun hh a ha => ?_⟩
      simp only [h2] at ha
      rw [← hh a ha]; exact inFlight_congr rfl rfl rfl rfl a
  | regWrite o b v =>
    simp only [takeTurn, hostRegWrite] at h
    split at h
    · cases h
    · next r hra =>
      cases h
      cases r with
      | ctrl =>
        have hv : v.getLsbD 1 = false := by
          obtain ⟨rfl, rfl⟩ := regAt_ctrl hra rfl
          by_contra hc
          exact hr.2 v (by simpa using hc) rfl
        simp only [writeReg, hv]
        exact ⟨rfl, rfl, rfl, rfl, id, fun hh a ha => (inFlight_congr rfl rfl rfl rfl a).trans (hh a ha)⟩
      | cmd =>
        simp only [writeReg]
        cases hb : s.status.busy
        · refine ⟨rfl, rfl, rfl, rfl, id, fun hh a ha => ?_⟩
          have := hh a ha
          rw [inFlight_of_idle hb] at this; cases this
        · exact ⟨rfl, rfl, rfl, rfl, id, fun hh a ha => (inFlight_congr rfl rfl rfl rfl a).trans (hh a ha)⟩
      | arg i =>
        simp only [writeReg]
        cases hb : s.status.busy
        · refine ⟨rfl, rfl, rfl, rfl, id, fun hh a ha => ?_⟩
          have := hh a ha
          rw [inFlight_of_idle hb] at this; cases this
        · exact ⟨rfl, rfl, rfl, rfl, id, fun hh a ha => (inFlight_congr rfl rfl rfl rfl a).trans (hh a ha)⟩
      | _ => exact ⟨rfl, rfl, rfl, rfl, id, fun hh a ha => (inFlight_congr rfl rfl rfl rfl a).trans (hh a ha)⟩
  | memRead a =>
    cases h
    simp only [hostMemRead]
    refine ⟨rfl, rfl, rfl, rfl, ?_, fun hh b hb => ?_⟩
    · split <;> simp
    · have : b ∈ s.port.raced := by
        simp only at hb
        split at hb <;> simpa using hb
      exact (inFlight_congr rfl rfl rfl rfl b).trans (hh b this)
  | memWrite a v =>
    cases h
    simp only [hostMemWrite]
    refine ⟨rfl, rfl, rfl, rfl, ?_, fun hh b hb => ?_⟩
    · intro hw; split <;> simpa using Memory.wf_write _ _ hw
    · have key : s.inFlight b = true := by
        simp only at hb
        split at hb
        · next hin =>
          rw [inFlight_agenda] at hin
          rcases Port.mem_race.1 hb with rfl | hb
          · exact hin
          · exact hh b hb
        · exact hh b hb
      exact (inFlight_congr rfl rfl rfl rfl b).trans key

end Sys2Proof.Machine
end

