-- ==== Sys2Proof/Laws/Effects.lean ====
section
/-! SUPPORT. What the commands can do to the slots, the allocator's record and the control flow of the engine,
over all commands at once. -/
namespace Sys2Proof.Machine

/-- `Validate` accepts the tuples R152 lists. -/
theorem valid_iff_acceptedTuple (f : Format) : f.valid = true ↔ acceptedTuple f := by
  have h6 := f.pad.isLt
  unfold acceptedTuple
  cases hf : f.family with
  | planar =>
    simp only [Format.valid, validate, hf, Bool.and_eq_true, decide_eq_true_eq, isUnitSize_iff, List.mem_cons, List.not_mem_nil, or_false]
    tauto
  | packed =>
    simp only [Format.valid, validate, hf, Bool.and_eq_true, decide_eq_true_eq, isUnitSize_iff, List.mem_cons, List.not_mem_nil, or_false,
      Bool.or_eq_true, beq_iff_eq, Prod.mk.injEq]
    constructor
    · rintro ⟨⟨⟨h1, h2⟩, h3⟩, h4⟩
      exact ⟨h3, h1, by omega⟩
    · rintro ⟨h3, h1, h4⟩
      exact ⟨⟨⟨h1, by omega⟩, h3⟩, by omega⟩

/-- `roundUp(v, p)` is the least multiple of `p` that is at least `v` (R154). -/
theorem roundUp_spec (v : Nat) {p : Nat} (hp : 0 < p) : roundUp v p % p = 0 ∧ v ≤ roundUp v p ∧ roundUp v p < v + p := by
  refine ⟨by simp [roundUp], le_roundUp v hp, ?_⟩
  unfold roundUp
  have := Nat.div_mul_le_self (v + p - 1) p
  omega

/-- The annotated stride is the one R154 and R155 describe. -/
theorem annotate_isStride {f : Format} (h : f.valid = true) (w ht : Nat) : isStride f w (annotate f w ht).stride := by
  have hp : 0 < f.pad.toNat := by rcases valid_pad h with hp | hp | hp <;> omega
  unfold isStride scanlineBits annotate
  cases hf : f.family <;> simp only <;> rw [roundUp_eight h] <;> exact roundUp_spec _ hp

/-- A size below 2^34 is its two words (R156). -/
theorem sizeLow_sizeHigh {n : Nat} (h : n < 2 ^ 34) : (sizeLow n).toNat + 2 ^ 32 * (sizeHigh n).toNat = n := by
  simp only [sizeLow, sizeHigh, BitVec.toNat_ofNat]
  omega

/-- Two ranges meet exactly when they share a byte (R84, R229). -/
theorem rangesMeet_iff {a n b m : Nat} : rangesMeet a n b m = true ↔ ∃ k, (a ≤ k ∧ k < a + n) ∧ (b ≤ k ∧ k < b + m) := by
  simp only [rangesMeet, Bool.and_eq_true, decide_eq_true_eq]
  constructor
  · rintro ⟨⟨⟨h1, h2⟩, h3⟩, h4⟩
    exact ⟨max a b, by omega, by omega⟩
  · rintro ⟨k, h1, h2⟩; omega

/-- R84's law in the terms of Safety. -/
theorem answerLawful_iff {s : State} {a : Word} {n : Nat} : s.answerLawful a n = true ↔ allocatorMayAnswer s a n := by
  simp only [State.answerLawful, allocatorMayAnswer, fitsMemory, Bool.and_eq_true, decide_eq_true_eq, List.all_eq_true]
  refine and_congr Iff.rfl ⟨fun h b hv ho k hk => ?_, fun h d hd => ?_⟩
  · have := h (s.slot b) (by simp [State.slot])
    simp only [hv, ho, Bool.not_eq_true', Bool.true_and, beq_self_eq_true] at this
    have hm := (rangesMeet_iff (a := a.toNat) (n := n)).2 ⟨k, hk⟩
    rw [this] at hm; cases hm
  · obtain ⟨i, hi, rfl⟩ := Vector.mem_iff_getElem.1 (Vector.mem_toList_iff.1 hd)
    have e : s.slot (BitVec.ofNat 4 i) = s.slots[i] := by
      simp [State.slot, BitVec.toNat_ofNat, Nat.mod_eq_of_lt hi]
    rw [← e]
    rw [Bool.not_eq_true']
    by_contra hc
    simp only [Bool.not_eq_false, Bool.and_eq_true, beq_iff_eq] at hc
    obtain ⟨k, hk⟩ := rangesMeet_iff.1 hc.2
    exact h _ hc.1.1 hc.1.2 k hk

/-- CREATE with a legal MODE, an accepted tuple and a free slot comes to the buffer resolution (R171). -/
theorem createPlan_resolves {s : State} {a : SlotNo} {f : Format} (hd : decodeFmt (s.arg 0) true = .ok f) (hf : acceptedTuple f)
    (hv : (s.slot a).valid = false) (hm : modeLegal (s.arg 2) = true) :
    createPlan a s = resolveBuffer (newDescriptor f (s.arg 1)) (modeCase (s.arg 2)) (modeOwn (s.arg 2))
          (s.arg 3) (s.arg 4) (s.arg 5) := by
  simp [createPlan, hm, State.fmtArg, hd, hv, (valid_iff_acceptedTuple f).2 hf]

/-- A legal MODE word whose case is ALLOC is 3 (R107). -/
theorem mode_alloc {w : Word} (hm : modeLegal w = true) (hc : modeCase w = .alloc) : w = 3 := by
  simp only [modeLegal, hc, Bool.and_eq_true, beq_iff_eq, Bool.or_eq_true, Bool.not_eq_true', modeOwn] at hm
  obtain ⟨h1, h2⟩ := hm
  replace h2 : w.getLsbD 2 = false := by rcases h2 with h | h; exact h; cases h
  have h3 : (w.extractLsb' 0 2).toNat = 3 := by
    have := (w.extractLsb' 0 2).isLt
    unfold modeCase at hc
    split at hc <;> simp_all
    omega
  have h1' := congrArg BitVec.toNat h1
  simp only [BitVec.extractLsb'_toNat, Nat.shiftRight_eq_div_pow] at h1' h3
  rw [← BitVec.testBit_toNat, Nat.testBit, Nat.shiftRight_eq_div_pow] at h2
  simp at h2
  simp at h1' h3
  apply BitVec.eq_of_toNat_eq
  have := w.isLt
  simp
  omega

/-- When CREATE comes to the allocator, and with what request (R84, R174). -/
theorem createPlan_requests {s : State} {a : SlotNo} {d : Slot} (h : createPlan a s = .ok (.allocate d)) :
    requestsAlloc s a d.size := by
  obtain ⟨hv, f, hf, hok, ⟨_, he, _⟩ | ⟨he, hm⟩⟩ := createPlan_ok h
  · cases he
  · cases he
    refine ⟨hv, mode_alloc ?_ hm, f, hf, (valid_iff_acceptedTuple f).1 hok, rfl⟩
    unfold createPlan at h
    split at h
    · assumption
    · cases h

/-- What an abandoned command leaves in the allocator record: nothing, or a pending CREATE's allocation
(R292, log 11). -/
theorem abandon_log (s : State) :
    s.abandon.allocLog = s.allocLog ∨
    ∃ a b n, decode s.cmd = .ok (.create a) ∧ requestsAlloc s a n ∧ allocatorMayAnswer s b n ∧
      s.abandon.allocLog = s.allocLog ++ [.alloc b n] := by
  unfold State.abandon
  split
  · next i hi =>
    cases i with
    | create a =>
      simp only [abandonAlloc]
      split
      · next d hp =>
        split
        · rcases State.allocate_cases _ d.size with ⟨w, _, hl, h⟩ | ⟨_, h⟩ <;> rw [h]
          · exact .inr ⟨a, w, d.size, hi, createPlan_requests (s := s) hp, answerLawful_iff.1 hl, by simp⟩
          · exact .inl (by simp)
        · exact .inl rfl
      · exact .inl rfl
      · exact .inl rfl
    | _ => exact .inl rfl
  · exact .inl rfl

/-- SETMASK touches the plane mask only (R178). -/
theorem withMask_fields (d : Slot) (m : Word) : ∃ pm, d.withMask m = { d with planeMask := pm } := by
  unfold Slot.withMask; split
  · exact ⟨_, rfl⟩
  · exact ⟨d.planeMask, rfl⟩

/-! ### CONVERT's layouts -/

/-- R227 in its parts. -/
theorem sameGeometry_iff {S D : Slot} : sameGeometry S D = true ↔ S.fmt.depth = D.fmt.depth ∧ S.width = D.width ∧ S.height = D.height := by
  simp [sameGeometry, and_assoc]

/-- R228 in its parts. -/
theorem sameLayout_iff {S D : Slot} : sameLayout S D = true ↔ identicalLayout S D := by
  simp [sameLayout, identicalLayout, and_assoc]

/-- R228 in its parts. -/
theorem orderOnly_iff {S D : Slot} : orderOnly S D = true ↔ S.fmt.family = D.fmt.family ∧ S.fmt.bpp = D.fmt.bpp ∧ S.fmt.unit = D.fmt.unit ∧ S.fmt.pad = D.fmt.pad ∧
    ¬ (S.fmt.family = .packed ∧ S.fmt.bpp = 24 ∧ S.fmt.byteOrder ≠ D.fmt.byteOrder) := by
  simp [orderOnly, and_assoc]
  intro _ _ _ _
  tauto

/-- Every strategy but the fallback is for one family (R230). -/
theorem select_family {S D : Slot} (h : (select S D).number ≠ 4) : S.fmt.family = D.fmt.family := by
  unfold select at h
  split at h
  · next hq => simp [sameLayout] at hq; tauto
  · split at h
    · next hq => simp [bothBitmaps] at hq; rw [hq.1.1.1, hq.1.1.2]
    · split at h
      · next hq => simp [orderOnly] at hq; tauto
      · exact absurd rfl h

/-- Strategy 1 is for the same layout (R230). -/
theorem select_one {S D : Slot} : (select S D).number = 1 ↔ sameLayout S D = true := by
  unfold select; split <;> (try split) <;> (try split) <;> simp_all

/-- Slots of one geometry and family have as many scanlines (R208). -/
theorem rowsOf_eq {S D : Slot} (hg : sameGeometry S D = true) (hf : S.fmt.family = D.fmt.family) : rowsOf S = rowsOf D := by
  rw [sameGeometry_iff] at hg
  simp only [rowsOf, hf, hg]

/-- Slots of one geometry and layout have one size. -/
theorem size_eq {S D : Slot} (hS : S.Ok) (hD : D.Ok) (vS : S.valid = true) (vD : D.valid = true)
    (hg : sameGeometry S D = true) (hl : sameLayout S D = true) : S.size = D.size := by
  rw [(hS vS).2.2.1, (hD vD).2.2.1]
  rw [sameGeometry_iff] at hg
  obtain ⟨h1, h2, h3, h4, h5, h6⟩ := sameLayout_iff.1 hl
  simp only [annotate, h1, h2, h4, hg]

/-- R229 as sets of bytes. -/
theorem buffersOverlap_iff {S D : Slot} : buffersOverlap S D = false ↔ buffersDisjoint S D := by
  unfold buffersOverlap buffersDisjoint
  rw [← not_iff_not, Bool.not_eq_false, rangesMeet_iff]
  push Not
  rfl

/-- When a byte lies in the buffer of a slot (R43). -/
theorem covers_iff {d : Slot} {a : Nat} : d.covers a = true ↔ d.valid = true ∧ d.own ≠ .unallocated ∧ d.data.toNat ≤ a ∧ a < d.data.toNat + d.size := by
  simp [Slot.covers, Slot.hasBuffer, and_assoc]

/-- A pixel that passed the buffer check lies in the buffer (R189). -/
theorem pixelBytes_covered {d : Slot} {x y a : Nat} (hv : d.valid = true) (ho : d.own ≠ .unallocated)
    (hp : piecesInside d x y = true) (ha : a ∈ pixelBytes d x y) : d.covers a = true := by
  obtain ⟨q, hq, rfl⟩ := mem_pixelBytes.1 ha
  simp only [piecesInside, List.all_eq_true, decide_eq_true_eq] at hp
  have := hp q hq
  rw [covers_iff]; exact ⟨hv, ho, by omega, by omega⟩

/-! ### Every command that meets slots as R41 to R43 say has a next state -/

/-- No byte of a checked pixel lies outside buffer memory (R81). -/
theorem pixelExists_of_ok {d : Slot} {x y : Nat} (hd : d.Ok) (hv : d.valid = true) (ho : d.own ≠ .unallocated)
    (hp : piecesInside d x y = true) : pixelExists d x y = true := by
  have := (hd hv).2.2.2.2.2.2.2.2 ho
  simp only [piecesInside, List.all_eq_true, decide_eq_true_eq] at hp
  simp only [pixelExists, List.all_eq_true, decide_eq_true_eq]
  intro a ha
  obtain ⟨q, hq, rfl⟩ := mem_pixelBytes.1 ha
  have := hp q hq
  omega

/-- No byte a checked conversion accesses lies outside buffer memory (R81, R209). -/
theorem convertExists_of_plan {sa sb : SlotNo} {s : State} {S D : Slot} {k : Strategy} (hi : ∀ a, (s.slot a).Ok)
    (h : convertPlan sa sb s = .ok (S, D, k)) : convertExists S D k = true := by
  obtain ⟨rfl, rfl, rfl, h1, h2, h3, h4, hg, ho, hf⟩ := convertPlan_ok.1 h
  have bS := (hi sb h1).2.2.2.2.2.2.2.2 h2
  have bD := (hi sa h3).2.2.2.2.2.2.2.2 h4
  suffices hh : (s.slot sb).data.toNat + strategySpan (select (s.slot sb) (s.slot sa)) (rowsOf (s.slot sb)) (s.slot sb).stride (s.slot sb).size ≤ Config.addrSpace ∧ (s.slot sa).data.toNat + strategySpan (select (s.slot sb) (s.slot sa)) (rowsOf (s.slot sb)) (s.slot sa).stride (if (select (s.slot sb) (s.slot sa)).number = 1 then (s.slot sb).size else (s.slot sa).size) ≤ Config.addrSpace by simpa [convertExists, fitsMemory] using hh
  unfold strategySpan
  split
  · next hk =>
    have hfam := select_family (S := s.slot sb) (D := s.slot sa) (by omega)
    have e := rowsOf_eq hg hfam
    rw [← ok_size (hi sb) h1]
    rw [e, ← ok_size (hi sa) h3]
    exact ⟨bS, bD⟩
  · refine ⟨bS, ?_⟩
    split
    · next hk => rw [size_eq (hi sb) (hi sa) h1 h3 hg (select_one.1 hk)]; exact bD
    · exact bD

/-- With such slots `exec` answers a next state. -/
theorem exec_answers {s : State} (hi : ∀ a, (s.slot a).Ok) (i : Instr) : ∃ t, exec i s = .next t := by
  have conc : ∀ r : Except Err State, ∃ t, conclude s r = .next t := by
    intro r; cases r <;> exact ⟨_, rfl⟩
  cases i with
  | create sa =>
    change ∃ t, execCreate sa s = .next t
    unfold execCreate; split <;> exact ⟨_, rfl⟩
  | getpixel sa =>
    change ∃ t, execGetpixel sa s = .next t
    unfold execGetpixel; split
    · exact ⟨_, rfl⟩
    · next d hd =>
      obtain ⟨rfl, hv, _, ho, hp⟩ := pixelTarget_ok.1 hd
      simp only [pixelExists_of_ok (hi sa) hv ho hp, if_true]
      exact ⟨_, rfl⟩
  | putpixel sa =>
    change ∃ t, execPutpixel sa s = .next t
    unfold execPutpixel; split
    · exact ⟨_, rfl⟩
    · next d hd =>
      obtain ⟨rfl, hv, _, ho, hp⟩ := pixelTarget_ok.1 hd
      simp only [pixelExists_of_ok (hi sa) hv ho hp, if_true]
      exact ⟨_, rfl⟩
  | convert sa sb =>
    change ∃ t, execConvert sa sb s = .next t
    unfold execConvert; split
    · exact ⟨_, rfl⟩
    · next S D k hp => 
      simp only [convertExists_of_plan hi hp, if_true]
      exact ⟨_, rfl⟩
  | nop => exact conc (.ok s)
  | validate => exact conc (validateEffect s)
  | geom => exact conc (geomEffect s)
  | annotate a => exact conc (annotateEffect a s)
  | destroy a => exact conc (destroyEffect a s)
  | setmask a => exact conc (setmaskEffect a s)
  | query a => exact conc (queryEffect a s)
  | pixaddr a => exact conc (pixaddrEffect a s)
  | permlookup => exact conc (permlookupEffect s)
  | bytexform => exact conc (bytexformEffect s)

/-! ### The slots and the allocator record -/

/-- All a command can do to the slot file (R170). -/
theorem exec_slot_change {i : Instr} {s t : State} (h : exec i s = .next t) :
    t.slots = s.slots ∨ ∃ sa d, t.slots = (s.setSlot sa d).slots ∧
      ((i = .create sa ∧ (s.slot sa).valid = false ∧ d.valid = true) ∨
       (i = .annotate sa ∧ (s.slot sa).valid = true ∧ d = (s.slot sa).annotated) ∨
       (i = .destroy sa ∧ (s.slot sa).valid = true ∧ d = { s.slot sa with valid := false }) ∨
       (i = .setmask sa ∧ (s.slot sa).valid = true ∧ d = (s.slot sa).withMask (s.arg 0))) := by
  have same : ∀ {r : Except Err State}, (∀ u, r = .ok u → u.slots = s.slots) → conclude s r = .next t →
      t.slots = s.slots := by
    intro r hr hc
    rcases conclude_cases hc with ⟨e, _, rfl⟩ | ⟨u, hu, rfl⟩
    · rfl
    · exact hr u hu
  cases i with
  | nop => exact .inl (same (r := .ok s) (fun u hu => by cases hu; rfl) h)
  | validate =>
    refine .inl (same (fun u hu => ?_) h)
    unfold validateEffect at hu
    split at hu <;> cases hu; rfl
  | geom =>
    refine .inl (same (fun u hu => ?_) h)
    unfold geomEffect at hu
    split at hu
    · cases hu
    · split at hu <;> cases hu; rfl
  | create sa =>
    change execCreate sa s = .next t at h
    unfold execCreate at h
    split at h
    · cases h; exact .inl rfl
    · next d hp =>
      cases h
      obtain ⟨hv, f, _, hf, ⟨d', he, hd, hv'⟩ | ⟨he, _⟩⟩ := createPlan_ok hp
      · cases he; exact .inr ⟨sa, d, rfl, .inl ⟨rfl, hv, hv'⟩⟩
      · cases he
    · next d hp =>
      cases h
      obtain ⟨hv, f, _, hf, ⟨d', he, hd, _⟩ | ⟨he, _⟩⟩ := createPlan_ok hp
      · cases he
      · cases he
        rcases createAllocating_cases sa (newDescriptor f (s.arg 1)) s with ⟨w, _, hl, ht⟩ | ⟨_, ht⟩ <;> rw [ht]
        · exact .inr ⟨sa, { newDescriptor f (s.arg 1) with own := .ownedAllocation, data := w, base := w },
            by simp [State.setSlot], .inl ⟨rfl, hv, rfl⟩⟩
        · exact .inl (by simp)
  | annotate sa =>
    rcases conclude_cases h with ⟨e, _, rfl⟩ | ⟨u, hu, rfl⟩
    · exact .inl rfl
    · simp only [annotateEffect] at hu
      split at hu
      · cases hu
      · next d hd =>
        obtain ⟨rfl, hv⟩ := State.validSlot_ok.1 hd
        cases hu
        exact .inr ⟨sa, _, rfl, .inr (.inl ⟨rfl, hv, rfl⟩)⟩
  | destroy sa =>
    rcases conclude_cases h with ⟨e, _, rfl⟩ | ⟨u, hu, rfl⟩
    · exact .inl rfl
    · simp only [destroyEffect] at hu
      split at hu
      · cases hu
      · next d hd =>
        obtain ⟨rfl, hv⟩ := State.validSlot_ok.1 hd
        cases hu
        exact .inr ⟨sa, _, by simp [State.setSlot], .inr (.inr (.inl ⟨rfl, hv, rfl⟩))⟩
  | setmask sa =>
    rcases conclude_cases h with ⟨e, _, rfl⟩ | ⟨u, hu, rfl⟩
    · exact .inl rfl
    · simp only [setmaskEffect] at hu
      split at hu
      · cases hu
      · next d hd =>
        obtain ⟨rfl, hv⟩ := State.validSlot_ok.1 hd
        cases hu
        exact .inr ⟨sa, _, rfl, .inr (.inr (.inr ⟨rfl, hv, rfl⟩))⟩
  | query sa =>
    refine .inl (same (fun u hu => ?_) h)
    unfold queryEffect at hu
    split at hu
    · cases hu
    · split at hu <;> cases hu; rfl
  | getpixel sa =>
    change execGetpixel sa s = .next t at h
    unfold execGetpixel at h
    split at h
    · cases h; exact .inl rfl
    · dsimp only at h; split at h <;> cases h; exact .inl rfl
  | putpixel sa =>
    change execPutpixel sa s = .next t at h
    unfold execPutpixel at h
    split at h
    · cases h; exact .inl rfl
    · dsimp only at h; split at h <;> cases h; exact .inl rfl
  | pixaddr sa =>
    refine .inl (same (fun u hu => ?_) h)
    unfold pixaddrEffect at hu
    split at hu
    · cases hu
    · split at hu
      · split at hu <;> cases hu; rfl
      · cases hu
  | permlookup =>
    refine .inl (same (fun u hu => ?_) h)
    unfold permlookupEffect at hu
    dsimp only at hu
    split at hu
    · cases hu
    · split at hu <;> cases hu; rfl
  | bytexform =>
    refine .inl (same (fun u hu => ?_) h)
    unfold bytexformEffect at hu
    dsimp only at hu
    split at hu <;> cases hu; rfl
  | convert sa sb =>
    change execConvert sa sb s = .next t at h
    unfold execConvert at h
    split at h
    · cases h; exact .inl rfl
    · split at h <;> cases h; exact .inl rfl

/-- All a step can do to the slot file (R170, R290). -/
theorem step_slot_change {s t : State} (h : step s = .next t) :
    t.slots = s.slots ∨ (resetDue s ∧ t.slots = s.slots.map (fun d => { d with valid := false })) ∨
    ∃ i sa d, executes s i ∧ t.slots = (s.setSlot sa d).slots ∧
      ((i = .create sa ∧ (s.slot sa).valid = false ∧ d.valid = true) ∨
       (i = .annotate sa ∧ (s.slot sa).valid = true ∧ d = (s.slot sa).annotated) ∨
       (i = .destroy sa ∧ (s.slot sa).valid = true ∧ d = { s.slot sa with valid := false }) ∨
       (i = .setmask sa ∧ (s.slot sa).valid = true ∧ d = (s.slot sa).withMask (s.arg 0))) := by
  rcases step_cases h with ⟨he, h⟩ | ⟨hr, rfl⟩ | ⟨_, _, h⟩
  · rcases engineTurn_cases h with ⟨_, h⟩ | ⟨hb, i, hd, h⟩ | ⟨_, r, _, h⟩
    · cases h; exact .inl rfl
    · rcases exec_slot_change h with h | ⟨sa, d, h1, h2⟩
      · exact .inl h
      · exact .inr (.inr ⟨i, sa, d, ⟨he, hb, hd⟩, h1, h2⟩)
    · cases h; exact .inl rfl
  · refine .inr (.inl ⟨hr, ?_⟩)
    simp only [State.deviceReset]
    split
    · rw [(abandon_spec _).1]; rfl
    · rfl
  · exact .inl h.slots

/-- All a command can do to the allocator record (R84, R85). -/
theorem exec_log {i : Instr} {s t : State} (h : exec i s = .next t) :
    t.allocLog = s.allocLog ∨
    (∃ a, i = .destroy a ∧ (s.slot a).valid = true ∧ (s.slot a).own = .ownedAllocation ∧
      t.allocLog = s.allocLog ++ [.free (s.slot a).base] ∧ (t.slot a).valid = false) ∨
    (∃ a b n, i = .create a ∧ requestsAlloc s a n ∧ allocatorMayAnswer s b n ∧
      t.allocLog = s.allocLog ++ [.alloc b n]) := by
  have same : ∀ {r : Except Err State}, (∀ u, r = .ok u → u.allocLog = s.allocLog) → conclude s r = .next t →
      t.allocLog = s.allocLog := by
    intro r hr hc
    rcases conclude_cases hc with ⟨e, _, rfl⟩ | ⟨u, hu, rfl⟩
    · rfl
    · exact hr u hu
  cases i with
  | nop => exact .inl (same (r := .ok s) (fun u hu => by cases hu; rfl) h)
  | validate =>
    refine .inl (same (fun u hu => ?_) h)
    unfold validateEffect at hu
    split at hu <;> cases hu; rfl
  | geom =>
    refine .inl (same (fun u hu => ?_) h)
    unfold geomEffect at hu
    split at hu
    · cases hu
    · split at hu <;> cases hu; rfl
  | create sa =>
    change execCreate sa s = .next t at h
    unfold execCreate at h
    split at h
    · cases h; exact .inl rfl
    · cases h; exact .inl rfl
    · next d hp =>
      cases h
      rcases createAllocating_cases sa d s with ⟨w, _, hl, ht⟩ | ⟨_, ht⟩ <;> rw [ht]
      · exact .inr (.inr ⟨sa, w, d.size, rfl, createPlan_requests hp, answerLawful_iff.1 hl, by simp⟩)
      · exact .inl (by simp)
  | annotate sa =>
    refine .inl (same (fun u hu => ?_) h)
    unfold annotateEffect at hu
    split at hu <;> cases hu; rfl
  | destroy sa =>
    rcases conclude_cases h with ⟨e, _, rfl⟩ | ⟨u, hu, rfl⟩
    · exact .inl rfl
    · simp only [destroyEffect] at hu
      split at hu
      · cases hu
      · next d hd =>
        obtain ⟨rfl, hv⟩ := State.validSlot_ok.1 hd
        cases hu
        cases ho : (s.slot sa).own
        · exact .inl (by simp [State.release, ho])
        · exact .inl (by simp [State.release, ho])
        · exact .inr (.inl ⟨sa, rfl, hv, ho, by simp [State.release, ho, State.free], by simp⟩)
  | setmask sa =>
    refine .inl (same (fun u hu => ?_) h)
    unfold setmaskEffect at hu
    split at hu <;> cases hu; rfl
  | query sa =>
    refine .inl (same (fun u hu => ?_) h)
    unfold queryEffect at hu
    split at hu
    · cases hu
    · split at hu <;> cases hu; rfl
  | getpixel sa =>
    change execGetpixel sa s = .next t at h
    unfold execGetpixel at h
    split at h
    · cases h; exact .inl rfl
    · dsimp only at h; split at h <;> cases h; exact .inl rfl
  | putpixel sa =>
    change execPutpixel sa s = .next t at h
    unfold execPutpixel at h
    split at h
    · cases h; exact .inl rfl
    · dsimp only at h; split at h <;> cases h; exact .inl rfl
  | pixaddr sa =>
    refine .inl (same (fun u hu => ?_) h)
    unfold pixaddrEffect at hu
    split at hu
    · cases hu
    · split at hu
      · split at hu <;> cases hu; rfl
      · cases hu
  | permlookup =>
    refine .inl (same (fun u hu => ?_) h)
    unfold permlookupEffect at hu
    dsimp only at hu
    split at hu
    · cases hu
    · split at hu <;> cases hu; rfl
  | bytexform =>
    refine .inl (same (fun u hu => ?_) h)
    unfold bytexformEffect at hu
    dsimp only at hu
    split at hu <;> cases hu; rfl
  | convert sa sb =>
    change execConvert sa sb s = .next t at h
    unfold execConvert at h
    split at h
    · cases h; exact .inl rfl
    · split at h <;> cases h; exact .inl rfl

end Sys2Proof.Machine
end

