-- ==== Sys2Proof/Laws/Encoding.lean ====
section
/-! SUPPORT. The fields of a command word as numbers, and the FMT word bit by bit (spec/30_encoding.md R102,
R105). -/
namespace Sys2Proof

/-- The command word as a number (R102). -/
theorem encode_toNat (i : Instr) : (encode i).toNat = i.opcode.toNat + 256 * i.slotA.toNat + 4096 * i.slotB.toNat := by
  cases i with
  | create a => revert a; decide
  | annotate a => revert a; decide
  | destroy a => revert a; decide
  | setmask a => revert a; decide
  | query a => revert a; decide
  | getpixel a => revert a; decide
  | putpixel a => revert a; decide
  | pixaddr a => revert a; decide
  | convert a b => revert a b; decide
  | _ => rfl

/-- OP as a number (R102). -/
theorem wordOp_toNat (w : Word) : (wordOp w).toNat = w.toNat % 256 := by simp [wordOp]

/-- SA as a number (R102). -/
theorem wordSA_toNat (w : Word) : (wordSA w).toNat = w.toNat / 256 % 16 := by simp [wordSA, Nat.shiftRight_eq_div_pow]

/-- SB as a number (R102). -/
theorem wordSB_toNat (w : Word) : (wordSB w).toNat = w.toNat / 4096 % 16 := by simp [wordSB, Nat.shiftRight_eq_div_pow]

/-- The reserved half as a number (R102). -/
theorem wordReserved_toNat (w : Word) : (wordReserved w).toNat = w.toNat / 65536 := by
  have := w.isLt
  simp [wordReserved, Nat.shiftRight_eq_div_pow]; omega

/-- When a row without slots is accepted (R103). -/
theorem decodePlain_ok {w : Word} {j i : Instr} (h : decodePlain w j = .ok i) : i = j ∧ wordSA w = 0 ∧ wordSB w = 0 := by
  unfold decodePlain at h
  split at h
  · cases h
  · split at h
    · cases h
    · cases h; simp_all

/-- When a row with SA only is accepted (R103). -/
theorem decodeSA_ok {w : Word} {j : SlotNo → Instr} {i : Instr} (h : decodeSA w j = .ok i) : i = j (wordSA w) ∧ wordSB w = 0 := by
  unfold decodeSA at h
  split at h
  · cases h
  · cases h; simp_all

end Sys2Proof

namespace Sys2Proof.Machine

/-- The FMT word bit by bit (R105). -/
theorem Format.word_getLsbD (f : Format) (j : Nat) : f.word.getLsbD j =
    if j < 6 then f.depth.getLsbD j else if j < 7 then f.byteOrder.bit else if j < 8 then f.bitOrder.bit
    else if j < 14 then f.bpp.getLsbD (j - 8) else if j < 16 then f.family.code.getLsbD (j - 14)
    else if j < 22 then f.unit.getLsbD (j - 16) else if j < 24 then false
    else f.pad.getLsbD (j - 24) := by
  change BitVec.getLsbD (w := 2+6+2+6+2+6+1+1+6) ((0 : BitVec 2) ++ f.pad ++ (0 : BitVec 2) ++ f.unit ++ f.family.code ++ f.bpp
    ++ BitVec.ofBool f.bitOrder.bit ++ BitVec.ofBool f.byteOrder.bit ++ f.depth) j = _
  simp only [BitVec.getLsbD_append, BitVec.getLsbD_ofBool]
  by_cases h1 : j < 6
  · simp [h1]
  by_cases h2 : j < 7
  · have : j - 6 = 0 := by omega
    simp [h1, h2, this]
  by_cases h3 : j < 8
  · have : ¬ j - 6 < 1 := by omega
    have : j - 6 - 1 = 0 := by omega
    simp [*]
  have e1 : ¬ j - 6 < 1 := by omega
  have e2 : ¬ j - 6 - 1 < 1 := by omega
  have q1 : j - 6 - 1 - 1 = j - 8 := by omega
  have q2 : j - 8 - 6 = j - 14 := by omega
  have q3 : j - 14 - 2 = j - 16 := by omega
  have q4 : j - 16 - 6 = j - 22 := by omega
  have q5 : j - 22 - 2 = j - 24 := by omega
  have e3 : (j - 8 < 6) = (j < 14) := by simp; omega
  have e4 : (j - 14 < 2) = (j < 16) := by simp; omega
  have e5 : (j - 16 < 6) = (j < 22) := by simp; omega
  have e6 : (j - 22 < 2) = (j < 24) := by simp; omega
  have e7 : (j - 24 < 6) = (j < 30) := by simp; omega
  simp only [h1, h2, h3, e1, e2, if_false, q1, q2, q3, q4, q5, e3, e4, e5, e6, e7]
  by_cases h8 : j < 30
  · simp only [h8, if_true]
    (repeat' split) <;> simp_all
  · have : 6 ≤ j - 24 := by omega
    simp only [h8, if_false, BitVec.getLsbD_of_ge _ _ this]
    (repeat' split) <;> simp_all

end Sys2Proof.Machine
end

