-- ==== Sys2Proof/Laws/Pixels.lean ====
section
/-! SUPPORT. Pixels of slots that are as R41 to R43 say: where their pieces lie, what GETPIXEL and PUTPIXEL do
with them, and that two pixels share no bit where R199 says so (spec/43_pixel_accessor.md). -/
namespace Sys2Proof.Machine

/-- The pixel sizes of a Packed slot (R152). -/
theorem packed_cases {d : Slot} (hok : d.Ok) (hv : d.valid = true) (hf : d.fmt.family = .packed) :
    d.fmt.bpp = 4 ∨ d.fmt.bpp = 8 ∨ d.fmt.bpp = 16 ∨ d.fmt.bpp = 24 ∨ d.fmt.bpp = 32 := by
  obtain ⟨_, _, h⟩ := valid_packed (hok hv).1 hf
  rcases h with h | h | h | h | h
  · exact .inl (BitVec.eq_of_toNat_eq h.1)
  · exact .inr (.inl (BitVec.eq_of_toNat_eq h.1))
  · exact .inr (.inr (.inl (BitVec.eq_of_toNat_eq h.1)))
  · exact .inr (.inr (.inr (.inl (BitVec.eq_of_toNat_eq h.1))))
  · exact .inr (.inr (.inr (.inr (BitVec.eq_of_toNat_eq h.1))))

/-- The size of a Packed slot (R155). -/
theorem ok_size_packed {d : Slot} (hok : d.Ok) (hv : d.valid = true) (hf : d.fmt.family = .packed) :
    d.size = d.height.toNat * d.stride := by
  rw [ok_size hok hv]; simp [rowsOf, hf]

/-- The size of a Planar slot (R155). -/
theorem ok_size_planar {d : Slot} (hok : d.Ok) (hv : d.valid = true) (hf : d.fmt.family = .planar) :
    d.size = d.height.toNat * d.fmt.depth.toNat * d.stride := by
  rw [ok_size hok hv]; simp [rowsOf, hf]

/-- A Packed pixel in bounds lies in its scanline (R193, R199). -/
theorem packed_offsets {d : Slot} (hok : d.Ok) (hv : d.valid = true) (hf : d.fmt.family = .packed) {x y : Nat}
    (hx : x < d.width.toNat) {q : Piece} (hq : q ∈ locatePacked d x y) :
    y * d.stride ≤ q.off ∧ q.off < y * d.stride + d.stride := by
  have hs := packed_stride (hok hv).1 hf d.width.toNat d.height.toNat
  rw [← (hok hv).2.1] at hs
  unfold locatePacked at hq
  dsimp only at hq
  rcases packed_cases hok hv hf with hb | hb | hb | hb | hb <;> rw [hb] at hq hs
  · simp only [if_true, List.mem_singleton] at hq
    subst hq
    simp only [Nat.shiftRight_eq_div_pow]
    have : (4 : BitVec 6).toNat = 4 := rfl
    rw [this] at hs
    omega
  all_goals
    rw [if_neg (by decide)] at hq
    simp only [List.mem_map, List.mem_range] at hq
    obtain ⟨i, hi, rfl⟩ := hq
    simp at hi hs ⊢
    omega

/-- A Packed pixel in bounds lies in the buffer (R199). -/
theorem packed_inside {d : Slot} (hok : d.Ok) (hv : d.valid = true) (hf : d.fmt.family = .packed) {x y : Nat}
    (hx : x < d.width.toNat) (hy : y < d.height.toNat) : piecesInside d x y = true := by
  simp only [piecesInside, List.all_eq_true, decide_eq_true_eq]
  intro q hq
  rw [locate_packed hf] at hq
  have := (packed_offsets hok hv hf hx hq).2
  rw [ok_size_packed hok hv hf]
  exact Nat.lt_of_lt_of_le this (row_in_buffer hy)

/-- The buffer check of a Planar pixel by its planes (R189). -/
theorem planar_inside_iff {d : Slot} (hf : d.fmt.family = .planar) {x y : Nat} :
    piecesInside d x y = true ↔ ∀ k, planeKept d k → planarOffset d k x y < d.size := by
  simp only [piecesInside, List.all_eq_true, decide_eq_true_eq, locate_planar hf, mem_locatePlanar, planeKept]
  constructor
  · intro h k hk; exact h _ ⟨k, hk.1, hk.2, rfl⟩
  · rintro h q ⟨k, h1, h2, rfl⟩; exact h k ⟨h1, h2⟩

/-- `accessible` is the conjunction of the checks of GETPIXEL and PUTPIXEL. -/
theorem accessible_iff {d : Slot} (hok : d.Ok) {x y : Nat} : accessible d x y ↔
    d.valid = true ∧ inBounds d x y = true ∧ d.own ≠ .unallocated ∧ piecesInside d x y = true := by
  simp only [accessible, inBounds, Bool.and_eq_true, decide_eq_true_eq]
  constructor
  · rintro ⟨hv, ho, hx, hy, hp⟩
    refine ⟨hv, ⟨hx, hy⟩, ho, ?_⟩
    cases hf : d.fmt.family
    · exact (planar_inside_iff hf).2 (hp hf)
    · exact packed_inside hok hv hf hx hy
  · rintro ⟨hv, ⟨hx, hy⟩, ho, hp⟩
    exact ⟨hv, ho, hx, hy, fun hf => (planar_inside_iff hf).1 hp⟩

/-- An accessible pixel passes the checks. -/
theorem accessible_target {s : State} {a : SlotNo} (hok : (s.slot a).Ok) (h : accessible (s.slot a) (s.arg 0).toNat (s.arg 1).toNat) :
    pixelTarget a s = .ok (s.slot a) ∧ pixelExists (s.slot a) (s.arg 0).toNat (s.arg 1).toNat = true := by
  obtain ⟨hv, hb, ho, hp⟩ := (accessible_iff hok).1 h
  exact ⟨pixelTarget_ok.2 ⟨rfl, hv, hb, ho, hp⟩, pixelExists_of_ok hok hv ho hp⟩

/-- No piece of a checked pixel of an unraced buffer is raced on. -/
theorem unraced_pieces {s : State} {d : Slot} (hu : unraced s d) {x y : Nat} (hp : piecesInside d x y = true) :
    ∀ q ∈ locate d x y, d.data.toNat + q.off ∉ s.port.raced := by
  simp only [piecesInside, List.all_eq_true, decide_eq_true_eq] at hp
  intro q hq
  have := hp q hq
  exact hu _ (by omega) (by omega)

/-- Every piece of an existing pixel exists. -/
theorem pieces_exist {d : Slot} {x y : Nat} (h : pixelExists d x y = true) : ∀ q ∈ locate d x y, d.data.toNat + q.off < Config.addrSpace := by
  simp only [pixelExists, List.all_eq_true, decide_eq_true_eq] at h
  intro q hq
  exact h _ (mem_pixelBytes.2 ⟨q, hq, rfl⟩)

/-- The one piece of a 4-bit pixel (R193). -/
theorem locatePacked_four {d : Slot} (h : d.fmt.bpp = 4) (x y : Nat) : locatePacked d x y = [⟨y * d.stride + (x >>> 1), if nibbleHigh d x then 4 else 0, 4, 0⟩] := by
  simp [locatePacked, h]

/-- The pieces of a pixel of whole bytes (R193). -/
theorem locatePacked_bytes {d : Slot} (h : d.fmt.bpp ≠ 4) (x y : Nat) : locatePacked d x y =
   (List.range (d.fmt.bpp.toNat / 8)).map (fun i => ⟨y * d.stride + d.fmt.bpp.toNat / 8 * x + i, 0, 8, packedBit d (d.fmt.bpp.toNat / 8) i⟩) := by
  unfold locatePacked; dsimp only; rw [if_neg h]

/-- The bytes of a Packed pixel (R194). -/
theorem packed_pixelBytes {d : Slot} (hf : d.fmt.family = .packed) (x y k : Nat) :
    k ∈ pixelBytes d x y ↔ ∃ i, i < packedByteCount d ∧ k = packedByteAddr d x y i := by
  rw [mem_pixelBytes, locate_packed hf]
  by_cases hb : d.fmt.bpp = 4
  · rw [locatePacked_four hb]
    simp only [List.mem_singleton, exists_eq_left, packedByteCount, packedByteAddr, hb, if_true, Nat.shiftRight_eq_div_pow]
    constructor
    · rintro rfl; exact ⟨0, by omega, by omega⟩
    · rintro ⟨i, h1, rfl⟩; omega
  · rw [locatePacked_bytes hb]
    simp only [List.mem_map, List.mem_range, packedByteCount, packedByteAddr, hb, if_false]
    constructor
    · rintro ⟨q, ⟨i, h1, rfl⟩, rfl⟩; exact ⟨i, h1, by simp only; omega⟩
    · rintro ⟨i, h1, rfl⟩; exact ⟨_, ⟨i, h1, rfl⟩, by simp only; omega⟩

/-- A plane block carries a bit below `depth` (R188). -/
theorem planeBit_lt {d : Slot} {k : Nat} (h : k < d.fmt.depth.toNat) : planeBit d k < d.fmt.depth.toNat := by
  unfold planeBit; split <;> omega

/-- Two plane blocks carry two bits (R188). -/
theorem planeBit_inj {d : Slot} {k l : Nat} (hk : k < d.fmt.depth.toNat) (hl : l < d.fmt.depth.toNat) (h : planeBit d k = planeBit d l) : k = l := by
  unfold planeBit at h; split at h <;> omega

/-- Every bit below `depth` has its plane block (R188). -/
theorem planeBit_surj {d : Slot} {j : Nat} (h : j < d.fmt.depth.toNat) : ∃ k, k < d.fmt.depth.toNat ∧ planeBit d k = j := by
  unfold planeBit; cases d.fmt.bitOrder
  · exact ⟨j, h, rfl⟩
  · exact ⟨d.fmt.depth.toNat - 1 - j, by omega, by simp only; omega⟩

/-- The bits of a Planar pixel value (R191). -/
theorem planar_value_bit {d : Slot} (m : Memory) (hf : d.fmt.family = .planar) (x y j : Nat) (hj : j < 32) :
    (piecesValue d.data.toNat m (locate d x y)).getLsbD j = true ↔
      ∃ k, planeKept d k ∧ planeBit d k = j ∧ (m.read (d.data.toNat + planarOffset d k x y)).getLsbD (bitPos d x) = true := by
  rw [piecesValue_getLsbD _ _ _ (fun q hq => locate_piece_ok hq) j hj, List.any_eq_true]
  rw [locate_planar hf]
  constructor
  · rintro ⟨q, hq, h⟩
    obtain ⟨k, h1, h2, rfl⟩ := mem_locatePlanar.1 hq
    simp only [Piece.carries, Bool.and_eq_true, decide_eq_true_eq] at h
    obtain ⟨⟨h3, h4⟩, h5⟩ := h
    have : planeBit d k = j := by omega
    refine ⟨k, ⟨h1, h2⟩, this, ?_⟩
    rw [this] at h5; simpa using h5
  · rintro ⟨k, ⟨h1, h2⟩, rfl, h5⟩
    refine ⟨_, mem_locatePlanar.2 ⟨k, h1, h2, rfl⟩, ?_⟩
    simp [Piece.carries, h5]

/-- The bytes of a pixel are those R190 and R194 list. -/
theorem mem_pixelBytes_iff {d : Slot} {x y a : Nat} : a ∈ pixelBytes d x y ↔ isPixelByte d x y a := by
  unfold isPixelByte
  cases hf : d.fmt.family
  · rw [mem_pixelBytes, locate_planar hf]
    constructor
    · rintro ⟨q, hq, rfl⟩
      obtain ⟨k, h1, h2, rfl⟩ := mem_locatePlanar.1 hq
      exact ⟨k, ⟨h1, h2⟩, rfl⟩
    · rintro ⟨k, ⟨h1, h2⟩, rfl⟩
      exact ⟨_, mem_locatePlanar.2 ⟨k, h1, h2, rfl⟩, rfl⟩
  · exact packed_pixelBytes hf x y a

/-- A full plane mask keeps every plane block. -/
theorem planeKept_of_fullMask {d : Slot} (hok : d.Ok) (hv : d.valid = true) (hm : fullMask d) (k : Nat) :
    planeKept d k ↔ k < d.fmt.depth.toNat := by
  refine ⟨fun h => h.1, fun h => ⟨h, ?_⟩⟩
  have := planeBit_lt h
  have := valid_depth (hok hv).1
  rw [hm, BitVec.getLsbD_ofNat, Nat.testBit_two_pow_sub_one]; simp; omega

/-- A Planar slot with a pixel has a scanline. -/
theorem stride_pos {d : Slot} (hok : d.Ok) (hv : d.valid = true) (hf : d.fmt.family = .planar) {x y : Nat}
    (hx : x < d.width.toNat) (hy : y < d.height.toNat) : 0 < d.stride * d.height.toNat := by
  have := planar_stride (hok hv).1 hf d.width.toNat d.height.toNat
  rw [← (hok hv).2.1] at this
  exact Nat.mul_pos (by omega) (by omega)

/-- A deposit bit by bit (R192). -/
theorem deposit_getLsbD {d : Slot} {p : Port} {x y : Nat} (v : Word) (he : pixelExists d x y = true)
    (hpos : d.fmt.family = .planar → 0 < d.stride * d.height.toNat) (a b : Nat) (hr : a ∉ p.raced) (hb : b < 8) :
    ((deposit d x y v p).mem.read a).getLsbD b =
      match (locate d x y).find? (fun q => decide (a = d.data.toNat + q.off) && q.occupies b) with
      | some q => v.getLsbD (q.bit + (b - q.shift))
      | none => (p.mem.read a).getLsbD b :=
  depositPieces_getLsbD _ _ (fun _ hq => locate_piece_ok hq) (pieces_exist he) (locate_pairwise hpos x y) a b hr hb

/-- A deposit to an accessible pixel bit by bit (R192). -/
theorem accessible_deposit_getLsbD {d : Slot} {p : Port} {x y : Nat} (v : Word) (hok : d.Ok) (hacc : accessible d x y) (a b : Nat) (hr : a ∉ p.raced) (hb : b < 8) :
    ((deposit d x y v p).mem.read a).getLsbD b =
      match (locate d x y).find? (fun q => decide (a = d.data.toNat + q.off) && q.occupies b) with
      | some q => v.getLsbD (q.bit + (b - q.shift))
      | none => (p.mem.read a).getLsbD b := by
  obtain ⟨hv, hbd, ho, hp⟩ := (accessible_iff hok).1 hacc
  exact deposit_getLsbD v (pixelExists_of_ok hok hv ho hp) (fun hf => stride_pos hok hv hf hacc.2.2.1 hacc.2.2.2.1) a b hr hb

/-- A search whose only match is `q` finds `q`. -/
theorem find?_of_unique {l : List Piece} {P : Piece → Bool} {q : Piece} (hq : q ∈ l) (hP : P q = true) (hu : ∀ r ∈ l, P r = true → r = q) : l.find? P = some q := by
  cases h : l.find? P with
  | none => rw [List.find?_eq_none] at h; exact absurd hP (h q hq)
  | some r => rw [hu r (List.mem_of_find?_eq_some h) (List.find?_some h)]

/-- A weaker frame. -/
theorem BytesKeptBut.mono {P Q : Nat → Prop} {s t : State} (h : BytesKeptBut P s t) (hPQ : ∀ k, P k → Q k) : BytesKeptBut Q s t :=
  ⟨h.1, fun a ha => h.2 a (fun hp => ha (hPQ a hp))⟩

/-- A byte nobody raced on, after PUTPIXEL. -/
theorem put_read {s : State} {d : Slot} {x y : Nat} {v : Word} {k : Nat} (hk : k ∉ s.port.raced) :
    (({ s with port := deposit d x y v s.port } : State).complete 0).port.mem.read k = (deposit d x y v s.port).mem.read k := by
  simp only [State.complete_port]
  exact Port.settle_read (by rw [(deposit_keeps d x y v s.port).raced]; exact hk)

/-- PUTPIXEL stores to the bytes of its pixel only. -/
theorem put_bytes {s : State} {d : Slot} {x y : Nat} {v : Word} :
    BytesKeptBut (fun k => k ∈ pixelBytes d x y) s (({ s with port := deposit d x y v s.port } : State).complete 0) :=
  State.complete_bytes (deposit_keeps d x y v s.port).raced (fun a ha _ => (deposit_keeps d x y v s.port).other a ha) 0

/-! ### Put and get -/

/-- After a deposit a piece holds its bits of the value (R192). -/
theorem deposit_piece_bit {d : Slot} {p : Port} {x y : Nat} (v : Word) (hok : d.Ok) (hacc : accessible d x y)
    (hr : ∀ q ∈ locate d x y, d.data.toNat + q.off ∉ p.raced) {q : Piece} (hq : q ∈ locate d x y) {j : Nat} (hj : q.carries j = true) :
    ((deposit d x y v p).mem.read (d.data.toNat + q.off)).getLsbD (q.shift + (j - q.bit)) = v.getLsbD j := by
  have hqo := locate_piece_ok hq
  have h1 := hqo.fits
  simp only [Piece.carries, Bool.and_eq_true, decide_eq_true_eq] at hj
  have hpw : (locate d x y).Pairwise (fun q r => q.off ≠ r.off) := locate_pairwise (fun hf => stride_pos hok hacc.1 hf hacc.2.2.1 hacc.2.2.2.1) x y
  rw [accessible_deposit_getLsbD _ hok hacc _ _ (hr q hq) (by omega), find?_of_unique hq]
  · simp only; congr 1; omega
  · simp [Piece.occupies]; omega
  · intro r hr hP
    simp only [Bool.and_eq_true, decide_eq_true_eq] at hP
    by_contra hne
    have : ∀ l : List Piece, l.Pairwise (fun q r => q.off ≠ r.off) → ∀ q ∈ l, ∀ r ∈ l, r ≠ q → q.off ≠ r.off := by
      intro l hl
      induction l with
      | nil => intro q hq; cases hq
      | cons c l ih =>
        obtain ⟨h1, h2⟩ := List.pairwise_cons.1 hl
        intro q hq r hr hne
        rcases List.mem_cons.1 hq with rfl | hq' <;> rcases List.mem_cons.1 hr with rfl | hr'
        · exact absurd rfl hne
        · exact h1 r hr'
        · exact Ne.symm (h1 q hq')
        · exact ih h2 q hq' r hr' hne
    have := this _ hpw q hq r hr hne
    omega

/-- Where the bits of a pixel stand, by its pieces (R185). -/
theorem storesBit_iff {d : Slot} {x y i c j : Nat} :
    storesBit d x y i c j ↔ ∃ q ∈ locate d x y, c = d.data.toNat + q.off ∧ q.occupies j = true ∧ i = q.bit + (j - q.shift) := by
  unfold storesBit
  cases hf : d.fmt.family
  · simp only [locate_planar hf, planeKept]
    constructor
    · rintro ⟨k, ⟨h1, h2⟩, rfl, rfl, rfl⟩
      exact ⟨_, mem_locatePlanar.2 ⟨k, h1, h2, rfl⟩, rfl, by simp [Piece.occupies], by simp⟩
    · rintro ⟨q, hq, rfl, ho, rfl⟩
      obtain ⟨k, h1, h2, rfl⟩ := mem_locatePlanar.1 hq
      simp only [Piece.occupies, Bool.and_eq_true, decide_eq_true_eq] at ho
      exact ⟨k, ⟨h1, h2⟩, rfl, by omega, by simp only; omega⟩
  · simp only [locate_packed hf]
    by_cases h4 : d.fmt.bpp = 4
    · simp only [h4, if_true, locatePacked_four h4, List.mem_singleton, exists_eq_left, packedByteAddr, Piece.occupies,
        Bool.and_eq_true, decide_eq_true_eq, Nat.shiftRight_eq_div_pow]
      have e : (if nibbleHigh d x then 4 else 0) = if x % 2 = 0 ↔ d.fmt.byteOrder = .msbFirst then 4 else 0 := by
        congr 1
        simp [nibbleHigh, Nat.and_one_is_mod]
      rw [e]
      generalize (if x % 2 = 0 ↔ d.fmt.byteOrder = .msbFirst then 4 else 0) = sh
      omega
    · simp only [h4, if_false, locatePacked_bytes h4, List.mem_map, List.mem_range, packedByteAddr, packedByteCount]
      constructor
      · rintro ⟨b, hb, rfl, hj, rfl⟩
        refine ⟨_, ⟨b, hb, rfl⟩, by simp only; omega, by simp [Piece.occupies, hj], ?_⟩
        unfold packedBit; cases d.fmt.byteOrder <;> simp only <;> omega
      · rintro ⟨q, ⟨b, hb, rfl⟩, rfl, ho, rfl⟩
        simp only [Piece.occupies, Bool.and_eq_true, decide_eq_true_eq] at ho
        refine ⟨b, hb, by simp only; omega, by omega, ?_⟩
        unfold packedBit; cases d.fmt.byteOrder <;> simp only <;> omega

/-- A deposit changes no bit that stores no bit of its pixel (R192). -/
theorem deposit_bit_kept {d : Slot} {p : Port} {x y c j : Nat} (v : Word) (hok : d.Ok) (hacc : accessible d x y)
    (hr : c ∉ p.raced) (hj : j < 8) (h : ∀ i, ¬ storesBit d x y i c j) :
    ((deposit d x y v p).mem.read c).getLsbD j = (p.mem.read c).getLsbD j := by
  rw [accessible_deposit_getLsbD v hok hacc c j hr hj, List.find?_eq_none.2]
  intro q hq hP
  simp only [Bool.and_eq_true, decide_eq_true_eq] at hP
  exact h _ (storesBit_iff.2 ⟨q, hq, hP.1, hP.2, rfl⟩)

/-- After a deposit each bit that stores a bit of the pixel holds that bit of the value (R192). -/
theorem deposit_bit_stored {d : Slot} {p : Port} {x y i c j : Nat} (v : Word) (hok : d.Ok) (hacc : accessible d x y)
    (hr : ∀ q ∈ locate d x y, d.data.toNat + q.off ∉ p.raced) (h : storesBit d x y i c j) :
    ((deposit d x y v p).mem.read c).getLsbD j = v.getLsbD i := by
  obtain ⟨q, hq, rfl, ho, rfl⟩ := storesBit_iff.1 h
  simp only [Piece.occupies, Bool.and_eq_true, decide_eq_true_eq] at ho
  have := deposit_piece_bit v hok hacc hr hq (j := q.bit + (j - q.shift)) (by simp [Piece.carries]; omega)
  rw [← this]; congr 1; omega

/-- Some piece of the pixel carries bit `j`. -/
def carried (d : Slot) (x y j : Nat) : Bool := (locate d x y).any (fun q => q.carries j)

/-- What `Extract` gives after `Deposit`, bit by bit (R198). -/
theorem value_after_deposit {d : Slot} {p : Port} {x y : Nat} (v : Word) (hok : d.Ok) (hacc : accessible d x y)
    (hr : ∀ q ∈ locate d x y, d.data.toNat + q.off ∉ p.raced) {j : Nat} (hj : j < 32) :
    (piecesValue d.data.toNat (deposit d x y v p).mem (locate d x y)).getLsbD j = (carried d x y j && v.getLsbD j) := by
  rw [piecesValue_getLsbD _ _ _ (fun q hq => locate_piece_ok hq) j hj, Bool.eq_iff_iff]
  simp only [List.any_eq_true, Bool.and_eq_true, carried]
  constructor
  · rintro ⟨q, hq, hc, hb⟩
    rw [deposit_piece_bit v hok hacc hr hq hc] at hb
    exact ⟨⟨q, hq, hc⟩, hb⟩
  · rintro ⟨⟨q, hq, hc⟩, hb⟩
    exact ⟨q, hq, hc, by rw [deposit_piece_bit v hok hacc hr hq hc]; exact hb⟩

/-- The bits a pixel carries are those R198 names. -/
theorem carried_bits {d : Slot} (hok : d.Ok) (hv : d.valid = true) (x y : Nat) {j : Nat} (hj : j < 32) (v : Word) :
    (carried d x y j && v.getLsbD j) = (storedPart d v).getLsbD j := by
  unfold storedPart
  cases hf : d.fmt.family
  · simp only [BitVec.getLsbD_and]
    rw [Bool.and_comm]; congr 1
    unfold carried
    rw [locate_planar hf, Bool.eq_iff_iff, List.any_eq_true]
    have hpm := (hok hv).2.2.2.1 hf
    constructor
    · rintro ⟨q, hq, hc⟩
      obtain ⟨k, h1, h2, rfl⟩ := mem_locatePlanar.1 hq
      simp [Piece.carries] at hc
      have : planeBit d k = j := by omega
      rw [← this]; exact h2
    · intro h
      have : j < d.fmt.depth.toNat := by
        by_contra hc
        have h2 : d.planeMask.toNat < 2 ^ j := Nat.lt_of_lt_of_le hpm (Nat.pow_le_pow_right (by omega) (by omega))
        have := Nat.testBit_lt_two_pow h2
        rw [← BitVec.testBit_toNat, this] at h; cases h
      obtain ⟨k, hk, rfl⟩ := planeBit_surj this
      exact ⟨_, mem_locatePlanar.2 ⟨k, hk, h, rfl⟩, by simp [Piece.carries]⟩
  · simp only
    have : (BitVec.ofNat 32 (v.toNat % 2 ^ d.fmt.bpp.toNat)).getLsbD j = (decide (j < d.fmt.bpp.toNat) && v.getLsbD j) := by
      rw [BitVec.getLsbD_ofNat, Nat.testBit_mod_two_pow, BitVec.testBit_toNat]
      simp [hj]
    rw [this]; congr 1
    unfold carried
    rw [locate_packed hf]
    rcases packed_cases hok hv hf with h | h | h | h | h
    · rw [locatePacked_four h, h]
      simp [Piece.carries]
    all_goals
      rw [locatePacked_bytes (by rw [h]; decide), h, Bool.eq_iff_iff]
      simp only [List.any_eq_true, List.mem_map, List.mem_range, decide_eq_true_eq]
      constructor
      · rintro ⟨q, ⟨i, hi, rfl⟩, hc⟩
        simp only [Piece.carries, Bool.and_eq_true, packedBit] at hc
        simp at hi hc ⊢
        split at hc <;> omega
      · intro hj'
        simp at hj'
        cases hbo : d.fmt.byteOrder
        · refine ⟨_, ⟨j / 8, by simp; omega, rfl⟩, ?_⟩
          simp [Piece.carries, packedBit, hbo]; omega
        · refine ⟨_, ⟨d.fmt.bpp.toNat / 8 - 1 - j / 8, by rw [h]; simp <;> omega, by rw [h]⟩, ?_⟩
          simp [Piece.carries, packedBit, hbo]; omega

/-- What `Extract` gives after `Deposit` (R198). -/
theorem storedPart_value {d : Slot} {p : Port} {x y : Nat} (v : Word) (hok : d.Ok) (hacc : accessible d x y)
    (hr : ∀ q ∈ locate d x y, d.data.toNat + q.off ∉ p.raced) :
    piecesValue d.data.toNat (deposit d x y v p).mem (locate d x y) = storedPart d v := by
  apply BitVec.eq_of_getLsbD_eq
  intro j hj
  rw [value_after_deposit v hok hacc hr hj, carried_bits hok hacc.1 _ _ hj]

/-- `Extract` depends on the bytes of the pieces alone. -/
theorem piecesValue_congr {data : Nat} {m m' : Memory} {l : List Piece} (h : ∀ q ∈ l, m.read (data + q.off) = m'.read (data + q.off)) :
    piecesValue data m l = piecesValue data m' l := by
  induction l with
  | nil => rfl
  | cons q l ih =>
    simp only [piecesValue, h q (by simp), ih (fun r hr => h r (List.mem_cons_of_mem _ hr))]

/-- `pixelIn` where nobody races. -/
theorem pixelIn_eq {s : State} {d : Slot} {x y : Nat} (h : ∀ q ∈ locate d x y, d.data.toNat + q.off ∉ s.port.raced) :
    pixelIn s d x y = piecesValue d.data.toNat s.port.mem (locate d x y) := by
  unfold pixelIn extract
  rw [extractPieces_of_not_raced h]

/-! ### Pixels that share no bit (R199) -/

/-- XOR with 0, 1 or 3 stays below a multiple of 1, 2 or 4. -/
theorem xor_lt_of_dvd {i f n : Nat} (hf : f = 0 ∨ f = 1 ∨ f = 3) (hn : (f + 1) ∣ n) (hi : i < n) : i ^^^ f < n := by
  obtain ⟨c, rfl⟩ := hn
  rcases hf with rfl | rfl | rfl
  · simpa using hi
  · have e : i ^^^ 1 = 2 * (i / 2) + ((i % 2) ^^^ 1) := by
      have h1 : (i ^^^ 1) / 2 = i / 2 := by rw [← Nat.shiftRight_one, Nat.shiftRight_xor_distrib]; simp [Nat.shiftRight_one]
      have h2 : (i ^^^ 1) % 2 = (i % 2) ^^^ 1 := by
        have := Nat.xor_mod_two_pow (n := 1) (a := i) (b := 1); simpa using this
      omega
    rcases Nat.mod_two_eq_zero_or_one i with h | h <;> rw [h] at e <;> simp at e <;> omega
  · have e : i ^^^ 3 = 4 * (i / 4) + ((i % 4) ^^^ 3) := by
      have h1 : (i ^^^ 3) / 4 = i / 4 := by
        have : (4:Nat) = 2 ^ 2 := rfl
        rw [this, ← Nat.shiftRight_eq_div_pow, ← Nat.shiftRight_eq_div_pow, Nat.shiftRight_xor_distrib]; simp
      have h2 : (i ^^^ 3) % 4 = (i % 4) ^^^ 3 := by
        have := Nat.xor_mod_two_pow (n := 2) (a := i) (b := 3); simpa using this
      omega
    have : i % 4 < 4 := Nat.mod_lt _ (by omega)
    have h3 : (i % 4) ^^^ 3 < 4 := Nat.xor_lt_two_pow (n := 2) this (by omega)
    omega

/-- A stride is a multiple of the pad in bytes (R154). -/
theorem stride_dvd {d : Slot} (hok : d.Ok) (hv : d.valid = true) : (d.fmt.pad.toNat / 8) ∣ d.stride := by
  have := (annotate_isStride (hok hv).1 d.width.toNat d.height.toNat).1
  rw [← (hok hv).2.1] at this
  rcases valid_pad (hok hv).1 with h | h | h <;> rw [h] at this ⊢ <;> omega

/-- `F` of a unit class is its byte count less 1 (R201). -/
theorem classOfUnit_flip {n : Nat} (h : n = 8 ∨ n = 16 ∨ n = 32) : (classOfUnit n).flip = n / 8 - 1 := by
  rcases h with h | h | h <;> subst h <;> decide

/-- `F(EC(d))` of a Planar slot in numbers (R201). -/
theorem planar_flip {d : Slot} (hv : d.fmt.valid = true) (hf : d.fmt.family = .planar) :
    d.fmt.effectiveClass.flip = classFlip d := by
  obtain ⟨_, _, _, hu, _⟩ := valid_planar hv hf
  unfold Format.effectiveClass classFlip
  cases d.fmt.byteOrder
  · rfl
  · exact classOfUnit_flip hu

/-- `F(EC(d))` of a Packed slot of whole or half bytes other than three (R201). -/
theorem packed_flip {d : Slot} (hv : d.fmt.valid = true) (hf : d.fmt.family = .packed) (hb : d.fmt.bpp ≠ 24) :
    d.fmt.effectiveClass.flip = classFlip d := by
  obtain ⟨_, _, h⟩ := valid_packed hv hf
  have hu : d.fmt.unit.toNat = 8 ∨ d.fmt.unit.toNat = 16 ∨ d.fmt.unit.toNat = 32 := by
    rcases h with h | h | h | h | h
    · exact .inl h.2
    · exact .inl h.2
    · exact .inr (.inl h.2)
    · exact absurd (BitVec.eq_of_toNat_eq h.1) hb
    · exact .inr (.inr h.2)
  unfold Format.effectiveClass classFlip
  cases d.fmt.byteOrder
  · rfl
  · exact classOfUnit_flip hu

/-- Where R199 says so, a Planar byte stays in its scanline. -/
theorem planar_byte_inside {d : Slot} (hok : d.Ok) (hv : d.valid = true) (hf : d.fmt.family = .planar) (hn : neverAliases d)
    {x : Nat} (hx : x < d.width.toNat) : (x >>> 3) ^^^ d.fmt.effectiveClass.flip < d.stride := by
  have hs := planar_stride (hok hv).1 hf d.width.toNat d.height.toNat
  rw [← (hok hv).2.1] at hs
  have hx3 : x >>> 3 < d.stride := by rw [Nat.shiftRight_eq_div_pow]; omega
  obtain ⟨_, _, _, hun, hpad⟩ := valid_planar (hok hv).1 hf
  have hd := stride_dvd hok hv
  unfold Format.effectiveClass
  cases hbo : d.fmt.byteOrder
  · simpa [classOfUnit, UnitClass.flip] using hx3
  · simp only
    rw [classOfUnit_flip hun]
    rcases hn with h | h | h
    · rw [hf] at h; cases h
    · rw [hbo] at h; cases h
    · apply xor_lt_of_dvd _ _ hx3
      · omega
      · refine Nat.dvd_trans ?_ hd
        rcases hun with hu | hu | hu <;> rcases hpad with hp | hp | hp <;> rw [hu, hp] at h ⊢ <;> first | decide | omega

/-- Where R199 says so, every pixel in bounds lies in the buffer. -/
theorem inside_of_neverAliases {d : Slot} (hok : d.Ok) (hv : d.valid = true) (hn : neverAliases d) {x y : Nat}
    (hx : x < d.width.toNat) (hy : y < d.height.toNat) : piecesInside d x y = true := by
  cases hf : d.fmt.family
  · rw [planar_inside_iff hf]
    intro k hk
    have h1 := planar_byte_inside hok hv hf hn hx
    rw [ok_size_planar hok hv hf]
    have : k * d.height.toNat + y < d.height.toNat * d.fmt.depth.toNat := by
      have := row_in_buffer (stride := d.height.toNat) hk.1
      rw [Nat.mul_comm d.height.toNat]; omega
    have h2 := row_in_buffer (stride := d.stride) this
    simp only [planarOffset]
    have : k * d.stride * d.height.toNat + y * d.stride = (k * d.height.toNat + y) * d.stride := by ring
    omega
  · exact packed_inside hok hv hf hx hy

/-- Where R199 says so, two pixels share no bit. -/
theorem pieces_apart {d : Slot} (hok : d.Ok) (hv : d.valid = true) (hn : neverAliases d) {x y x' y' : Nat}
    (hx : x < d.width.toNat) (hy : y < d.height.toNat) (hx' : x' < d.width.toNat) (hy' : y' < d.height.toNat)
    (hne : (x', y') ≠ (x, y)) {q r : Piece} (hq : q ∈ locate d x y) (hr : r ∈ locate d x' y') (ho : r.off = q.off) (b : Nat) :
    ¬ (q.occupies b = true ∧ r.occupies b = true) := by
  have hdm : ∀ {A B a b n : Nat}, a < n → b < n → A * n + a = B * n + b → A = B ∧ a = b := by
    intro A B a b n ha hb h
    have h1 : (A * n + a) / n = A := by rw [Nat.mul_comm, Nat.mul_add_div (by omega)]; simp [Nat.div_eq_of_lt ha]
    have h2 : (B * n + b) / n = B := by rw [Nat.mul_comm, Nat.mul_add_div (by omega)]; simp [Nat.div_eq_of_lt hb]
    have : A = B := by rw [← h1, ← h2, h]
    subst this; omega
  rintro ⟨h1, h2⟩
  simp only [Piece.occupies, Bool.and_eq_true, decide_eq_true_eq] at h1 h2
  apply hne
  cases hf : d.fmt.family
  · rw [locate_planar hf] at hq hr
    obtain ⟨k, k1, k2, rfl⟩ := mem_locatePlanar.1 hq
    obtain ⟨l, l1, l2, rfl⟩ := mem_locatePlanar.1 hr
    simp only at h1 h2 ho
    have hbp : bitPos d x = bitPos d x' := by omega
    have e1 := planar_byte_inside hok hv hf hn hx
    have e2 := planar_byte_inside hok hv hf hn hx'
    simp only [planarOffset] at ho
    have ho' : (l * d.height.toNat + y') * d.stride + ((x' >>> 3) ^^^ d.fmt.effectiveClass.flip) = (k * d.height.toNat + y) * d.stride + ((x >>> 3) ^^^ d.fmt.effectiveClass.flip) := by
      have : ∀ a b : Nat, (a * d.height.toNat + b) * d.stride = a * d.stride * d.height.toNat + b * d.stride := by intros; ring
      rw [this, this]; exact ho
    obtain ⟨hA, hB⟩ := hdm e2 e1 ho'
    obtain ⟨_, hyy⟩ := hdm hy' hy hA
    have hxx : x' >>> 3 = x >>> 3 := by
      have := congrArg (· ^^^ d.fmt.effectiveClass.flip) hB
      simpa [xor_xor_cancel] using this
    have h7 : ∀ z : Nat, z &&& 7 = z % 8 := fun z => Nat.and_two_pow_sub_one_eq_mod z 3
    rw [Nat.shiftRight_eq_div_pow, Nat.shiftRight_eq_div_pow] at hxx
    simp only [bitPos, h7] at hbp
    have : x' = x := by split at hbp <;> omega
    rw [this, hyy]
  · rw [locate_packed hf] at hq hr
    have b1 := packed_offsets hok hv hf hx hq
    have b2 := packed_offsets hok hv hf hx' hr
    have hyy : y' = y := by
      rcases Nat.lt_trichotomy y y' with h | h | h
      · have := row_in_buffer (stride := d.stride) h; omega
      · exact h.symm
      · have := row_in_buffer (stride := d.stride) h; omega
    subst hyy
    by_cases hb : d.fmt.bpp = 4
    · rw [locatePacked_four hb, List.mem_singleton] at hq hr
      subst hq; subst hr
      simp only [Nat.shiftRight_eq_div_pow, nibbleHigh, Nat.and_one_is_mod] at h1 h2 ho
      have : x' = x := by
        rcases Nat.mod_two_eq_zero_or_one x with m | m <;> rcases Nat.mod_two_eq_zero_or_one x' with m' | m' <;>
          cases hbo : d.fmt.byteOrder <;> simp [m, m', hbo] at h1 h2 <;> omega
      rw [this]
    · rw [locatePacked_bytes hb] at hq hr
      obtain ⟨i, hi, rfl⟩ := List.mem_map.1 hq
      obtain ⟨j, hj, rfl⟩ := List.mem_map.1 hr
      simp only [List.mem_range] at hi hj ho
      have : x' * (d.fmt.bpp.toNat / 8) + j = x * (d.fmt.bpp.toNat / 8) + i := by
        rw [Nat.mul_comm x', Nat.mul_comm x]; omega
      rw [(hdm hj hi this).1]

/-- Where R199 says so, a deposit leaves every other pixel (R198). -/
theorem deposit_other_pixel {d : Slot} {p : Port} {x y x' y' : Nat} (v : Word) (hok : d.Ok) (hn : neverAliases d)
    (hacc : accessible d x y) (hx' : x' < d.width.toNat) (hy' : y' < d.height.toNat) (hne : (x', y') ≠ (x, y))
    (hr : ∀ q ∈ locate d x' y', d.data.toNat + q.off ∉ p.raced) :
    piecesValue d.data.toNat (deposit d x y v p).mem (locate d x' y') = piecesValue d.data.toNat p.mem (locate d x' y') := by
  apply BitVec.eq_of_getLsbD_eq
  intro j hj
  rw [piecesValue_getLsbD _ _ _ (fun q hq => locate_piece_ok hq) j hj, piecesValue_getLsbD _ _ _ (fun q hq => locate_piece_ok hq) j hj]
  rw [Bool.eq_iff_iff, List.any_eq_true, List.any_eq_true]
  refine exists_congr fun r => and_congr_right fun hr' => ?_
  rw [Bool.and_eq_true, Bool.and_eq_true]
  refine and_congr_right fun hc => ?_
  have hro := (locate_piece_ok hr').fits
  simp only [Piece.carries, Bool.and_eq_true, decide_eq_true_eq] at hc
  rw [accessible_deposit_getLsbD v hok hacc _ _ (hr r hr') (by omega)]
  have : (locate d x y).find? (fun q => decide (d.data.toNat + r.off = d.data.toNat + q.off) && q.occupies (r.shift + (j - r.bit))) = none := by
    rw [List.find?_eq_none]
    intro q hq hP
    simp only [Bool.and_eq_true, decide_eq_true_eq] at hP
    refine pieces_apart hok hacc.1 hn hacc.2.2.1 hacc.2.2.2.1 hx' hy' hne hq hr' (by omega) _ ⟨hP.2, ?_⟩
    simp [Piece.occupies]; omega
  rw [this]

end Sys2Proof.Machine
end

