-- ==== Sys2Proof/Laws/Convert.lean ====
section
/-! SUPPORT. CONVERT once its checks have passed, and its fallback loop (spec/45_conversion.md). -/
namespace Sys2Proof.Machine

/-- A convertible pair passes the checks (R225). -/
theorem convertible_plan {s : State} {a b : SlotNo} (hc : convertible (s.slot b) (s.slot a))
    (hf : (select (s.slot b) (s.slot a)).number = 4 → fallbackInside (s.slot b) (s.slot a) = true) :
    convertPlan a b s = .ok (s.slot b, s.slot a, select (s.slot b) (s.slot a)) := by
  obtain ⟨h1, h2, h3, h4, h5, h6, h7, h8⟩ := hc
  exact convertPlan_ok.2 ⟨rfl, rfl, rfl, h1, h2, h3, h4, sameGeometry_iff.2 ⟨h5, h6, h7⟩, buffersOverlap_iff.2 h8, hf⟩

/-- CONVERT once its checks have passed (R225, R231). -/
theorem exec_convert {s : State} {a b : SlotNo} (oa : (s.slot a).Ok) (ob : (s.slot b).Ok) (hc : convertible (s.slot b) (s.slot a))
    (hf : (select (s.slot b) (s.slot a)).number = 4 → fallbackInside (s.slot b) (s.slot a) = true) :
    exec (.convert a b) s = .next ((({ s with port := runStrategy (s.slot b) (s.slot a) (select (s.slot b) (s.slot a)) s.port } : State).setRes 0
      (BitVec.ofNat 32 (select (s.slot b) (s.slot a)).number)).setRes 1 (select (s.slot b) (s.slot a)).word |>.complete 0) := by
  have hp := convertible_plan hc hf
  have he : convertExists (s.slot b) (s.slot a) (select (s.slot b) (s.slot a)) = true := by
    obtain ⟨h1, h2, h3, h4, h5, h6, h7, h8⟩ := hc
    have bS := (ob h1).2.2.2.2.2.2.2.2 h2
    have bD := (oa h3).2.2.2.2.2.2.2.2 h4
    have hg : sameGeometry (s.slot b) (s.slot a) = true := sameGeometry_iff.2 ⟨h5, h6, h7⟩
    suffices hh : (s.slot b).data.toNat + strategySpan (select (s.slot b) (s.slot a)) (rowsOf (s.slot b)) (s.slot b).stride (s.slot b).size ≤ Config.addrSpace ∧ (s.slot a).data.toNat + strategySpan (select (s.slot b) (s.slot a)) (rowsOf (s.slot b)) (s.slot a).stride (if (select (s.slot b) (s.slot a)).number = 1 then (s.slot b).size else (s.slot a).size) ≤ Config.addrSpace by simpa [convertExists, fitsMemory] using hh
    unfold strategySpan
    split
    · next hk =>
      have e := rowsOf_eq hg (select_family (S := s.slot b) (D := s.slot a) (by omega))
      rw [← ok_size ob h1]
      rw [e, ← ok_size oa h3]
      exact ⟨bS, bD⟩
    · refine ⟨bS, ?_⟩
      split
      · next hk => rw [size_eq ob oa h1 h3 hg (select_one.1 hk)]; exact bD
      · exact bD
  change execConvert a b s = _
  unfold execConvert
  rw [hp]
  simp only [he, if_true]
  rfl

/-- CONVERT stores where its strategy writes only. -/
theorem convert_bytes {s : State} {S D : Slot} {k : Strategy} {v w : Word} :
    BytesKeptBut (strategyWrites S D k) s ((({ s with port := runStrategy S D k s.port } : State).setRes 0 v).setRes 1 w |>.complete 0) :=
  State.complete_bytes (runStrategy_keeps S D k s.port).raced (fun a ha _ => (runStrategy_keeps S D k s.port).other a ha) 0

/-- A byte nobody raced on, after CONVERT. -/
theorem convert_read {s : State} {S D : Slot} {k : Strategy} {v w : Word} {c : Nat} (hc : c ∉ s.port.raced) :
   ((({ s with port := runStrategy S D k s.port } : State).setRes 0 v).setRes 1 w |>.complete 0).port.mem.read c = (runStrategy S D k s.port).mem.read c := by
  simp only [State.complete_port, State.setRes_port]
  exact Port.settle_read (by rw [(runStrategy_keeps S D k s.port).raced]; exact hc)

/-- A strategy writes inside the destination buffer only (R209, R236). -/
theorem writes_covered {s : State} {a b : SlotNo} (oa : (s.slot a).Ok) (ob : (s.slot b).Ok) (hc : convertible (s.slot b) (s.slot a))
    (hf : (select (s.slot b) (s.slot a)).number = 4 → fallbackInside (s.slot b) (s.slot a) = true) (c : Nat)
    (h : strategyWrites (s.slot b) (s.slot a) (select (s.slot b) (s.slot a)) c) : (s.slot a).covers c = true := by
  obtain ⟨h1, h2, h3, h4, h5, h6, h7, h8⟩ := hc
  have hg : sameGeometry (s.slot b) (s.slot a) = true := sameGeometry_iff.2 ⟨h5, h6, h7⟩
  unfold strategyWrites at h
  split at h
  · next hk =>
    rw [size_eq ob oa h1 h3 hg (select_one.1 hk)] at h
    exact covers_iff.2 ⟨h3, h4, h⟩
  · next hk =>
    rw [rowsOf_eq hg (select_family (by omega)), ← ok_size oa h3] at h
    exact covers_iff.2 ⟨h3, h4, h⟩
  · next hk =>
    rw [rowsOf_eq hg (select_family (by omega)), ← ok_size oa h3] at h
    exact covers_iff.2 ⟨h3, h4, h⟩
  · next n1 n2 n3 =>
    have : (select (s.slot b) (s.slot a)).number = 4 := by
      rcases select_number (s.slot b) (s.slot a) with h | h | h | h <;> tauto
    have := hf this
    obtain ⟨x, y, hx, hy, h⟩ := h
    simp only [fallbackInside, List.all_eq_true, List.mem_range, Bool.and_eq_true] at this
    exact pixelBytes_covered h3 h4 (this y hy x hx).2 h

/-- Packed slots of one pixel size, pad and width have one stride (R155). -/
theorem packed_stride_eq {S D : Slot} (oS : S.Ok) (oD : D.Ok) (vS : S.valid = true) (vD : D.valid = true) (hw : S.width = D.width)
   (fS : S.fmt.family = .packed) (fD : D.fmt.family = .packed) (hb : S.fmt.bpp = D.fmt.bpp) (hp : S.fmt.pad = D.fmt.pad) : S.stride = D.stride := by
  rw [(oS vS).2.1, (oD vD).2.1]
  simp [annotate, fS, fD, hw, hb, hp]

/-- The storage unit of a Packed pixel size (R152). -/
theorem unit_of_packed {d : Slot} (hok : d.Ok) (hv : d.valid = true) (hf : d.fmt.family = .packed) :
    (d.fmt.bpp = 4 ∧ d.fmt.unit = 8) ∨ (d.fmt.bpp = 8 ∧ d.fmt.unit = 8) ∨ (d.fmt.bpp = 16 ∧ d.fmt.unit = 16) ∨ (d.fmt.bpp = 24 ∧ d.fmt.unit = 24) ∨ (d.fmt.bpp = 32 ∧ d.fmt.unit = 32) := by
  obtain ⟨_, _, h⟩ := valid_packed (hok hv).1 hf
  have e : ∀ {n : Nat} {x : BitVec 6}, x.toNat = n → x = BitVec.ofNat 6 n := by intro n x h; rw [← h]; simp
  rcases h with h | h | h | h | h
  · exact .inl ⟨e h.1, e h.2⟩
  · exact .inr (.inl ⟨e h.1, e h.2⟩)
  · exact .inr (.inr (.inl ⟨e h.1, e h.2⟩))
  · exact .inr (.inr (.inr (.inl ⟨e h.1, e h.2⟩)))
  · exact .inr (.inr (.inr (.inr ⟨e h.1, e h.2⟩)))

/-- What every pixel of the fallback needs: both buffers are disjoint, hold every pixel, and nobody raced on a
byte of them (R229, R236). -/
structure FallbackReady (S D : Slot) (p0 : Port) : Prop where
  ok : D.Ok
  pair : convertible S D
  inside : ∀ x y, x < S.width.toNat → y < S.height.toNat → piecesInside S x y = true ∧ piecesInside D x y = true
  unracedS : ∀ a, S.data.toNat ≤ a → a < S.data.toNat + S.size → a ∉ p0.raced
  unracedD : ∀ a, D.data.toNat ≤ a → a < D.data.toNat + D.size → a ∉ p0.raced

/-- The value the source holds at a pixel before the fallback runs. -/
def sourceValue (S : Slot) (p0 : Port) (x y : Nat) : Word := piecesValue S.data.toNat p0.mem (locate S x y)

/-- A run of the fallback has left the source as it was. -/
structure SourceKept (S : Slot) (p0 p : Port) : Prop where
  raced : p.raced = p0.raced
  src : ∀ x y, x < S.width.toNat → y < S.height.toNat →
    piecesValue S.data.toNat p.mem (locate S x y) = sourceValue S p0 x y

section
variable {S D : Slot} {p0 p : Port} {x y : Nat}

theorem FallbackReady.source_lt (h : FallbackReady S D p0) (hx : x < S.width.toNat) (hy : y < S.height.toNat) :
    ∀ q ∈ locate S x y, q.off < S.size := by
  simpa [piecesInside] using (h.inside x y hx hy).1

theorem FallbackReady.dest_lt (h : FallbackReady S D p0) (hx : x < S.width.toNat) (hy : y < S.height.toNat) :
    ∀ q ∈ locate D x y, q.off < D.size := by
  simpa [piecesInside] using (h.inside x y hx hy).2

theorem FallbackReady.dest_accessible (h : FallbackReady S D p0) (hx : x < S.width.toNat) (hy : y < S.height.toNat) :
    accessible D x y := by
  obtain ⟨_, _, v2, w2, _, g2, g3, _⟩ := h.pair
  exact (accessible_iff h.ok).2 ⟨v2, by simp only [inBounds, ← g2, ← g3, hx, hy, decide_true, Bool.and_self], w2,
    (h.inside x y hx hy).2⟩

theorem FallbackReady.dest_unraced (h : FallbackReady S D p0) (hp : p.raced = p0.raced) (hx : x < S.width.toNat)
    (hy : y < S.height.toNat) : ∀ q ∈ locate D x y, D.data.toNat + q.off ∉ p.raced := by
  intro q hq
  have := h.dest_lt hx hy q hq
  rw [hp]; exact h.unracedD _ (by omega) (by omega)

/-- One pixel of the fallback deposits the source's value (R236). -/
theorem SourceKept.pixel_eq (h : SourceKept S p0 p) (r : FallbackReady S D p0) (hx : x < S.width.toNat)
    (hy : y < S.height.toNat) : fallbackPixel S D x y p = deposit D x y (sourceValue S p0 x y) p := by
  have hval : extract S x y p = (sourceValue S p0 x y, p) := by
    unfold extract
    rw [extractPieces_of_not_raced, h.src x y hx hy]
    intro q hq
    have := r.source_lt hx hy q hq
    rw [h.raced]; exact r.unracedS _ (by omega) (by omega)
  unfold fallbackPixel; rw [hval]

/-- One pixel of the fallback keeps the source (R229, R236). -/
theorem SourceKept.pixel (h : SourceKept S p0 p) (r : FallbackReady S D p0) (hx : x < S.width.toNat)
    (hy : y < S.height.toNat) : SourceKept S p0 (fallbackPixel S D x y p) := by
  have hk := deposit_keeps D x y (sourceValue S p0 x y) p
  rw [h.pixel_eq r hx hy]
  refine ⟨hk.raced.trans h.raced, fun x' y' hx' hy' => ?_⟩
  rw [← h.src x' y' hx' hy']
  refine piecesValue_congr fun q hq => hk.other _ fun hin => ?_
  obtain ⟨c, hc, he⟩ := mem_pixelBytes.1 hin
  have a1 := r.source_lt hx' hy' q hq
  have a2 := r.dest_lt hx hy c hc
  exact r.pair.2.2.2.2.2.2.2 (S.data.toNat + q.off) ⟨⟨by omega, by omega⟩, by omega, by omega⟩
end

/-- Where the fallback stands, pixel by pixel: every pixel done holds what the destination stores of the source's
value (R236). -/
structure FallbackDone (S D : Slot) (p0 p : Port) (done : Nat → Nat → Prop) : Prop where
  kept : SourceKept S p0 p
  dst : ∀ x y, done x y → x < S.width.toNat → y < S.height.toNat →
    piecesValue D.data.toNat p.mem (locate D x y) = storedPart D (sourceValue S p0 x y)

/-- One pixel of the fallback into a destination that never aliases (R199, R236). -/
theorem FallbackDone.pixel {S D : Slot} {p0 p : Port} {done : Nat → Nat → Prop} (r : FallbackReady S D p0)
    (nD : neverAliases D) (h : FallbackDone S D p0 p done) {x y : Nat} (hx : x < S.width.toNat)
    (hy : y < S.height.toNat) :
    FallbackDone S D p0 (fallbackPixel S D x y p) (fun x' y' => done x' y' ∨ (x' = x ∧ y' = y)) := by
  refine ⟨h.kept.pixel r hx hy, fun x' y' hd hx' hy' => ?_⟩
  rw [h.kept.pixel_eq r hx hy]
  have hrD := fun {x y} => r.dest_unraced (x := x) (y := y) h.kept.raced
  by_cases he : x' = x ∧ y' = y
  · obtain ⟨rfl, rfl⟩ := he
    exact storedPart_value _ r.ok (r.dest_accessible hx hy) (hrD hx hy)
  · obtain ⟨_, _, _, _, _, g2, g3, _⟩ := r.pair
    rcases hd with hd | hd
    · rw [← h.dst x' y' hd hx' hy']
      exact deposit_other_pixel _ r.ok nD (r.dest_accessible hx hy) (by rw [← g2]; exact hx') (by rw [← g3]; exact hy')
        (by simpa using he) (hrD hx' hy')
    · exact absurd hd he

/-- Where the fallback stands, bit by bit, aliasing or not: a bit no pixel done stores to is as it was, a bit that
one stores to holds the bit of the last of them (R192, R236). -/
structure FallbackBits (S D : Slot) (p0 p : Port) (done : Nat → Nat → Prop) : Prop where
  kept : SourceKept S p0 p
  untouched : ∀ c j, j < 8 → c ∉ p0.raced → (∀ x y i, done x y → ¬ storesBit D x y i c j) →
    (p.mem.read c).getLsbD j = (p0.mem.read c).getLsbD j
  last : ∀ x y i c j, x < S.width.toNat → y < S.height.toNat → done x y → storesBit D x y i c j →
    (∀ x' y' i', done x' y' → comesLater x y x' y' → ¬ storesBit D x' y' i' c j) →
    (p.mem.read c).getLsbD j = (sourceValue S p0 x y).getLsbD i

/-- One pixel of the fallback, later than those done (R236). -/
theorem FallbackBits.pixel {S D : Slot} {p0 p : Port} {done : Nat → Nat → Prop} (r : FallbackReady S D p0)
    (h : FallbackBits S D p0 p done) {x y : Nat} (hx : x < S.width.toNat) (hy : y < S.height.toNat)
    (hl : ∀ x' y', done x' y' → comesLater x' y' x y) :
    FallbackBits S D p0 (fallbackPixel S D x y p) (fun x' y' => done x' y' ∨ (x' = x ∧ y' = y)) := by
  have hacc := r.dest_accessible hx hy
  refine ⟨h.kept.pixel r hx hy, fun c j hj hc hn => ?_, fun x' y' i c j hx' hy' hd hs hn => ?_⟩ <;>
    rw [h.kept.pixel_eq r hx hy]
  · rw [deposit_bit_kept _ r.ok hacc (by rw [h.kept.raced]; exact hc) hj fun i => hn x y i (.inr ⟨rfl, rfl⟩)]
    exact h.untouched c j hj hc fun x' y' i hd => hn x' y' i (.inl hd)
  · by_cases he : x' = x ∧ y' = y
    · obtain ⟨rfl, rfl⟩ := he
      exact deposit_bit_stored _ r.ok hacc (r.dest_unraced h.kept.raced hx hy) hs
    · have hd' : done x' y' := hd.resolve_right he
      obtain ⟨q, hq, hcq, ho, _⟩ := storesBit_iff.1 hs
      have hf := (locate_piece_ok hq).fits
      simp only [Piece.occupies, Bool.and_eq_true, decide_eq_true_eq] at ho
      rw [deposit_bit_kept _ r.ok hacc (by rw [hcq]; exact r.dest_unraced h.kept.raced hx' hy' q hq) (by omega)
        fun i' => hn x y i' (.inr ⟨rfl, rfl⟩) (hl x' y' hd')]
      exact h.last x' y' i c j hx' hy' hd' hs fun x'' y'' i' hd'' => hn x'' y'' i' (.inl hd'')

/-- A property of the port and the pixels done that each pixel keeps holds of the whole fallback, in the loop's
order: `y` outer, `x` inner (R236). -/
theorem fallback_induct {S D : Slot} {p0 : Port} {P : Port → (Nat → Nat → Prop) → Prop} (h0 : P p0 fun _ _ => False)
    (step : ∀ p x y, x < S.width.toNat → y < S.height.toNat →
      P p (fun x' y' => x' < S.width.toNat ∧ y' < S.height.toNat ∧ comesLater x' y' x y) →
      P (fallbackPixel S D x y p) (fun x' y' =>
        (x' < S.width.toNat ∧ y' < S.height.toNat ∧ comesLater x' y' x y) ∨ (x' = x ∧ y' = y))) :
    P (fallback S D p0) (fun x y => x < S.width.toNat ∧ y < S.height.toNat) := by
  have row : ∀ y, y < S.height.toNat → ∀ n, n ≤ S.width.toNat → ∀ p,
      P p (fun x' y' => x' < S.width.toNat ∧ y' < y) →
      P ((List.range n).foldl (fun p x => fallbackPixel S D x y p) p)
        (fun x' y' => x' < S.width.toNat ∧ (y' < y ∨ (y' = y ∧ x' < n))) := by
    intro y hy n
    induction n with
    | zero => intro _ p h; simpa using h
    | succ n ih =>
      intro hn p h
      rw [List.range_succ, List.foldl_append]
      have e : (fun x' y' => x' < S.width.toNat ∧ (y' < y ∨ (y' = y ∧ x' < n))) =
          fun x' y' => x' < S.width.toNat ∧ y' < S.height.toNat ∧ comesLater x' y' n y := by
        funext x' y'; simp only [comesLater, eq_iff_iff]; omega
      have h2 := step _ n y hn hy (e ▸ ih (by omega) p h)
      refine (congrArg (P _) ?_).mp h2
      funext x' y'; simp only [comesLater, eq_iff_iff]; omega
  have all : ∀ m, m ≤ S.height.toNat →
      P ((List.range m).foldl (fun p y => fallbackRow S D y p) p0) (fun x' y' => x' < S.width.toNat ∧ y' < m) := by
    intro m
    induction m with
    | zero => intro _; simpa using h0
    | succ m ih =>
      intro hm
      rw [List.range_succ, List.foldl_append]
      refine (congrArg (P _) ?_).mp (row m hm _ (le_refl _) _ (ih (by omega)))
      funext x' y'; simp only [eq_iff_iff]; omega
  exact all _ (le_refl _)

end Sys2Proof.Machine
end

