-- ==== Sys2Proof/Laws/PerInstr.lean ====
section
/-! SUPPORT. Statements about every command, one lemma per constructor. -/
namespace Sys2Proof.Laws.EncodesWellFormed

/-- The word a command is written as is well formed in R103's own terms. -/
def Statement (i : Instr) : Prop := wellFormedWord (encode i) = true

theorem nop : Statement .nop := by unfold Statement; decide
theorem validate : Statement .validate := by unfold Statement; decide
theorem geom : Statement .geom := by unfold Statement; decide
theorem create (sa : SlotNo) : Statement (.create sa) := by unfold Statement; revert sa; decide
theorem annotate (sa : SlotNo) : Statement (.annotate sa) := by unfold Statement; revert sa; decide
theorem destroy (sa : SlotNo) : Statement (.destroy sa) := by unfold Statement; revert sa; decide
theorem setmask (sa : SlotNo) : Statement (.setmask sa) := by unfold Statement; revert sa; decide
theorem query (sa : SlotNo) : Statement (.query sa) := by unfold Statement; revert sa; decide
theorem getpixel (sa : SlotNo) : Statement (.getpixel sa) := by unfold Statement; revert sa; decide
theorem putpixel (sa : SlotNo) : Statement (.putpixel sa) := by unfold Statement; revert sa; decide
theorem pixaddr (sa : SlotNo) : Statement (.pixaddr sa) := by unfold Statement; revert sa; decide
theorem permlookup : Statement .permlookup := by unfold Statement; decide
theorem bytexform : Statement .bytexform := by unfold Statement; decide
theorem convert (sa sb : SlotNo) : Statement (.convert sa sb) := by unfold Statement; revert sa sb; decide

end Sys2Proof.Laws.EncodesWellFormed
end

