-- ==== Sys2Proof/Tests/Slice0.lean ====
section
/-! SUPPORT. Our own tests. Expected values come from the vectors of spec/95_test_vectors.md, named in each
comment, or are worked out by hand from the rule named. Then, for each statement with hypotheses, a state and
operands that meet them, one for each clause at a boundary. -/
namespace Sys2Proof.Tests
open Sys2Proof Sys2Proof.Machine

/-! ### Helpers -/

/-- A field of the next state, if there is one. -/
def after {α : Type} (o : Host.Outcome State Fault Refusal) (f : State → α) : Option α :=
  match o with
  | .next t => some (f t)
  | .fault _ => none
  | .refused _ => none

/-- A slot over a borrowed buffer, from the words CREATE takes. -/
def view (fmt wh data : Word) : Slot :=
  match decodeFmt fmt true with
  | .ok f => createdSlot f wh .borrowedView data 0
  | .error _ => .atReset

/-- A state with three argument words, one or two slots and some bytes. -/
def bench (a0 a1 a2 : Word) (d1 d2 : Slot) (m : Memory) : State :=
  { ((((State.reset.setArg 0 a0).setArg 1 a1).setArg 2 a2).setSlot 1 d1).setSlot 2 d2 with port := ⟨m, [], [], 0⟩ }

/-- One step on the command word `w`. -/
def run (s : State) (w : Nat) : Host.Outcome State Fault Refusal := step (s.withFetchWord 32 w)

/-- One step on the turn `t`. -/
def turn (t : Turn) (s : State) : State := { s with agenda := [t] }

/-- Some bytes of the next state. -/
def bytesAt (a : Nat) (l : List Nat) (t : State) : List Byte := l.map fun i => t.port.mem.read (a + i)

/-- ERR and RES of the next state. -/
def results (t : State) : BitVec 4 × List Word := (t.status.err, t.res.toList)

/-- ERR of the next state. -/
def errOf (t : State) : BitVec 4 := t.status.err

/-! ### WellFormed: an ill-formed word for each check (R103) -/

theorem test_wf_rejects_unknown_opcode : wellFormedWord 0x0000000E = false := by decide
theorem test_wf_rejects_reserved_bits : wellFormedWord 0x00010000 = false := by decide
theorem test_wf_rejects_unused_sa : wellFormedWord 0x00000101 = false := by decide
theorem test_wf_rejects_unused_sb : wellFormedWord 0x00001003 = false := by decide
theorem test_wf_accepts_convert : wellFormedWord 0x0000FF0D = true := by decide

/-! ### Decoding: words written out from the table of R111, bits SB, SA, OP -/

theorem test_decode_nop : decode 0b0000_0000_0000_0000 = .ok .nop := by decide
theorem test_decode_validate : decode 0b0000_0000_0000_0001 = .ok .validate := by decide
theorem test_decode_geom : decode 0b0000_0000_0000_0010 = .ok .geom := by decide
theorem test_decode_create : decode 0b0000_0001_0000_0011 = .ok (.create 1) := by decide
theorem test_decode_annotate : decode 0b0000_1000_0000_0100 = .ok (.annotate 8) := by decide
theorem test_decode_destroy : decode 0b0000_0011_0000_0101 = .ok (.destroy 3) := by decide
theorem test_decode_setmask : decode 0b0000_0101_0000_0110 = .ok (.setmask 5) := by decide
theorem test_decode_query : decode 0b0000_1111_0000_0111 = .ok (.query 15) := by decide
theorem test_decode_getpixel : decode 0b0000_0010_0000_1000 = .ok (.getpixel 2) := by decide
theorem test_decode_putpixel : decode 0b0000_0100_0000_1001 = .ok (.putpixel 4) := by decide
theorem test_decode_pixaddr : decode 0b0000_1001_0000_1010 = .ok (.pixaddr 9) := by decide
theorem test_decode_permlookup : decode 0b0000_0000_0000_1011 = .ok .permlookup := by decide
theorem test_decode_bytexform : decode 0b0000_0000_0000_1100 = .ok .bytexform := by decide
/-- R116: SA = 3 is the destination, SB = 2 the source. -/
theorem test_decode_convert : decode 0b0010_0011_0000_1101 = .ok (.convert 3 2) := by decide
theorem test_table_word_refused : decodeTableWord 32 0x0000000E = none := by decide

/-! ### One step on each command (spec/95_test_vectors.md) -/

/-- V-CC2: STATUS reads 0x00000002. -/
theorem test_nop : after (run State.reset 0) (fun t => t.status.word) = some 0x00000002 := by decide
/-- V-CC3: STATUS reads 0x00000E8A. -/
theorem test_illegal_word : after (run State.reset 0x0E) (fun t => t.status.word) = some 0x00000E8A := by decide
/-- V-VA14. -/
theorem test_validate_accepts :
    after (run (bench 0x08206018 0 0 .atReset .atReset []) 1) results = some (0, [1, 0, 0]) := by decide
/-- V-VA19. -/
theorem test_validate_reserved :
    after (run (bench 0x08484808 0 0 .atReset .atReset []) 1) results = some (8, [0, 0, 0]) := by decide
/-- V-GE6. -/
theorem test_geom_largest :
    after (run (bench 0x20206020 0xFFFFFFFF 0 .atReset .atReset []) 2) results = some (0, [262140, 0xFFF80004, 3]) := by
  decide
/-- V-GE9. -/
theorem test_geom_rejects :
    after (run (bench 0x08004101 0x00010008 0 .atReset .atReset []) 2) errOf = some 1 := by decide
/-- V-DE7: STORAGE with OWN. -/
theorem test_create_owned :
    after (run (((bench 0x08084808 0x00010008 6 .atReset .atReset []).setArg 4 0xA000).setArg 5 16) 0x303)
      (fun t => ((t.slot 3).own, (t.slot 3).data, (t.slot 3).base, (t.slot 3).size)) =
        some (.ownedAllocation, 0xA000, 0xA000, 8) := by decide
/-- V-DE5: the range passes 2^32. -/
theorem test_create_too_small :
    after (run (((bench 0x08084808 0x00010008 1 .atReset .atReset []).setArg 3 0xFFFFFFFC).setArg 5 8) 0x203)
      (fun t => (t.status.err, (t.slot 2).valid)) = some (3, false) := by decide
/-- V-DE18, after V-DE17. -/
theorem test_annotate :
    after (run (bench 0 0 0 { view 0x101004C3 0x00010010 0 with planeMask := 5 } .atReset []) 0x104)
      (fun t => (t.slot 1).planeMask) = some 7 := by decide
/-- V-DE13: `Free(0xA000)` once. -/
theorem test_destroy_frees :
    after (run (bench 0 0 0 { view 0x08084808 0x00010008 0xA000 with own := .ownedAllocation, base := 0xA000 }
      .atReset []) 0x105) (fun t => ((t.slot 1).valid, t.allocLog)) = some (false, [.free 0xA000]) := by decide
/-- V-DE14. -/
theorem test_destroy_twice :
    after (run State.reset 0x105) (fun t => (t.status.err, t.status.fault)) = some (7, true) := by decide
/-- V-DE17. -/
theorem test_setmask :
    after (run (bench 0xFFFFFFFD 0 0 (view 0x101004C3 0x00010010 0) .atReset []) 0x106)
      (fun t => (t.slot 1).planeMask) = some 5 := by decide
/-- V-DE16: SEL 0. -/
theorem test_query_size :
    after (run (bench 0 0 0 (view 0x101004C3 0x00010010 0) .atReset []) 0x107) results = some (0, [2, 6, 0]) := by
  decide
/-- V-EP7: SEL is checked before the slot. -/
theorem test_query_selector :
    after (run (bench 5 0 0 .atReset .atReset []) 0x107) errOf = some 8 := by decide
/-- V-PA11, after V-PA10: pixel (0, 0) is 6. -/
theorem test_getpixel_planar :
    after (run (bench 0 0 0 (view 0x101004C3 0x00010010 0x100) .atReset
      [(0x101, 0x80), (0x103, 0x80), (0x104, 0x40)]) 0x108) results = some (0, [6, 0, 0]) := by decide
/-- V-PA21: the aliasing format, offset 3 lies outside the two bytes. -/
theorem test_getpixel_outside :
    after (run (bench 0 0 0 (view 0x082001C1 0x00020008 0x100) .atReset []) 0x108) errOf = some 7 := by decide
/-- V-PA3: the low nibble only, the value cut to 4 bits. -/
theorem test_putpixel_nibble :
    after (run (bench 1 0 0xFF (view 0x08084444 0x00010004 0x100) .atReset [(0x100, 0x12), (0x101, 0x34)]) 0x109)
      (bytesAt 0x100 [0, 1]) = some [0x1F, 0x34] := by decide
/-- V-PA6, first pixel. -/
theorem test_putpixel_24 :
    after (run (bench 0 0 0x112233 (view 0x08185818 0x00010002 0x100) .atReset []) 0x109)
      (bytesAt 0x100 [0, 1, 2, 3]) = some [0x33, 0x22, 0x11, 0] := by decide
/-- V-PA14. -/
theorem test_pixaddr_planar :
    after (run (bench 9 0 0 (view 0x202001C1 0x00020010 0x100) .atReset []) 0x10A) results =
      some (0, [2, 0x106, 0]) := by decide
/-- V-PA17. -/
theorem test_pixaddr_packed :
    after (run (bench 1 0 0 (view 0x08084444 0x00010004 0x100) .atReset []) 0x10A) results =
      some (0, [0, 0x100, 0]) := by decide
/-- V-PE3. -/
theorem test_permlookup : after (run (bench 0x16 0 0 .atReset .atReset []) 11) results = some (0, [3, 0, 0]) := by
  decide
/-- V-PE7. -/
theorem test_permlookup_class : after (run (bench 0x03 0 0 .atReset .atReset []) 11) errOf = some 8 := by decide
/-- V-BX6. -/
theorem test_bytexform :
    after (run (bench 0x312 0 0 .atReset .atReset []) 12) results = some (0, [0x84, 0, 0]) := by decide
/-- V-BX7. -/
theorem test_bytexform_reserved : after (run (bench 0x400 0 0 .atReset .atReset []) 12) errOf = some 8 := by decide
/-- V-CV4: source in slot 2, destination in slot 1. -/
theorem test_convert_swaps :
    after (run (bench 0 0 0 (view 0x20206060 0x00010001 0x200) (view 0x20206020 0x00010001 0x100)
      [(0x100, 0x44), (0x101, 0x33), (0x102, 0x22), (0x103, 0x11)]) 0x210D)
      (fun t => (results t, bytesAt 0x200 [0, 1, 2, 3] t)) =
        some ((0, [3, 3, 0]), [0x11, 0x22, 0x33, 0x44]) := by decide
/-- V-CV9, cut to its first pixel: Packed to Planar, strategy 4. -/
theorem test_convert_fallback :
    after (run (bench 0 0 0 (view 0x08080888 0x00010001 0x200) (view 0x08084808 0x00010001 0x100)
      [(0x100, 0xA5)]) 0x210D) (fun t => (results t, bytesAt 0x200 [0, 1, 2, 7] t)) =
      some ((0, [4, 0, 0]), [0x80, 0x00, 0x80, 0x80]) := by decide

/-! ### Host turns -/

/-- V-CC6, the window at 0x40000000. -/
theorem test_arg_collision :
    after (hostRegWrite 0x40000000 0x40000014 4 5 (State.reset.launch 0x210D)) (fun t => (t.arg 0, t.status.collision)) =
      some (0, true) := by decide
/-- V-CC8: the registers, the window at 0x40000000. -/
theorem test_soft_reset :
    after (hostRegWrite 0x40000000 0x40000008 4 2 { bench 7 0 0 .atReset .atReset [] with irqEn := true })
      (fun t => (t.irqEn, t.status.word, t.arg 0)) = some (false, 0, 0) := by decide
/-- R31: no register stands below the window or above it. -/
theorem test_window_bounds :
    regAt 0x40000000 0x3FFFFFFC 4 = none ∧ regAt 0x40000000 0x40000000 4 = some .id ∧
      regAt 0x40000000 0x4000003C 4 = some .reserved ∧ regAt 0x40000000 0x40000040 4 = none := by decide

/-! ### Witnesses: for each statement with hypotheses, a state and operands that meet them together

Where a statement has clauses, each clause's hypotheses are met, at a boundary where it has one. Statements
not named here have no hypotheses but typing: their quantified variables are free. -/

/-- A state in which the command word `w` is pending and the engine moves next. -/
def pending (w : Word) (s : State) : State := s.launch w

/-- A format 8-bit Packed, FMT word 0x08084808. -/
def packed8 : Format := ⟨.packed, 8, 8, 8, 8, .lsbFirst, .lsbFirst⟩

/-- `packed8` is one of R152's tuples. -/
theorem packed8_accepted : acceptedTuple packed8 := by
  change acceptedTuple ⟨.packed, 8, 8, 8, 8, .lsbFirst, .lsbFirst⟩
  unfold acceptedTuple; decide

/-- A state for CREATE: FMT, WH and MODE words, then DATA, BASE and BYTES. -/
def creating (fmt wh mode data base bytes : Word) : State :=
  (((bench fmt wh mode .atReset .atReset []).setArg 3 data).setArg 4 base).setArg 5 bytes

/-- A Packed slot whose 8 bytes are the last of buffer memory. -/
def topSlot : Slot := view 0x08084808 0x00010008 0xFFFFFFF8

/-- A Planar slot, depth 3, 16 by 1, MSB first in both orders. -/
def planarSlot : Slot := view 0x101004C3 0x00010010 0x100

/-- A buffer memory range nobody raced on. -/
theorem unraced_of_nil {s : State} {d : Slot} (h : s.port.raced = []) : unraced s d := by
  intro a _ _ ha; rw [h] at ha; cases ha

/-- `planarSlot` meets the invariant. -/
theorem planarSlot_ok : planarSlot.Ok := by decide

/-- Every pixel of `planarSlot` is accessible. -/
theorem planarSlot_accessible (x : Nat) (hx : x = 0 ∨ x = 15) : accessible planarSlot x 0 := by
  refine ⟨by decide, by decide, ?_, by decide, ?_⟩
  · rcases hx with rfl | rfl <;> decide
  · intro _ k hk
    have : k < 3 := hk.1
    rcases hx with rfl | rfl <;> interval_cases k <;> decide

/-- Every pixel of `topSlot`'s only row is accessible. -/
theorem topSlot_accessible : accessible topSlot 7 0 :=
  ⟨by decide, by decide, by decide, by decide, fun h => absurd h (by decide)⟩

theorem witness_OnlyWellFormedWordsAreCommands :
    engineDue (pending 0x0000000E .reset) ∧ (pending 0x0000000E .reset).status.busy = true ∧
      wellFormedWord (pending 0x0000000E .reset).cmd = false := ⟨rfl, by decide, by decide⟩

theorem witness_FmtWordDecodes :
    (0x00400000 : Word).extractLsb' 22 2 ≠ 0 ∧ (0x80000000 : Word).extractLsb' 30 2 ≠ 0 ∧
    (0x00008000 : Word).extractLsb' 22 2 = 0 ∧ (0x00008000 : Word).extractLsb' 30 2 = 0 ∧
    2 ≤ ((0x00008000 : Word).extractLsb' 14 2).toNat ∧
    (0x3F3F7FFF : Word).extractLsb' 22 2 = 0 ∧ (0x3F3F7FFF : Word).extractLsb' 30 2 = 0 ∧
    ((0x3F3F7FFF : Word).extractLsb' 14 2).toNat < 2 := by decide

theorem witness_StepRunsTheDecodedCommand :
    (engineDue (pending 0x0000230D .reset) ∧ (pending 0x0000230D .reset).status.busy = true ∧
      decode (pending 0x0000230D .reset).cmd = .ok (.convert 3 2)) ∧
    engineDue .reset ∧ State.reset.status.busy = false := ⟨⟨rfl, by decide, by decide⟩, rfl, by decide⟩

/-- A state whose next turn is `t`, while BUSY is 0. -/
def idle (t : Turn) : State := turn t .reset

/-- A state whose next turn is `t`, while BUSY is 1. -/
def busy (t : Turn) : State := turn t (pending 0 .reset)

theorem witness_CmdWriteLaunches :
    ((idle (.regWrite (Config.regBase + 0x10) 4 3)).agenda = [.regWrite (Config.regBase + 0x10) 4 3] ∧
      (idle (.regWrite (Config.regBase + 0x10) 4 3)).status.busy = false) ∧
    (busy (.regWrite (Config.regBase + 0x10) 4 3)).agenda = [.regWrite (Config.regBase + 0x10) 4 3] ∧
      (busy (.regWrite (Config.regBase + 0x10) 4 3)).status.busy = true := ⟨⟨rfl, rfl⟩, rfl, rfl⟩

theorem witness_ArgRegistersBelongToTheHost :
    ((idle (.regWrite (Config.regBase + 0x28) 4 3)).agenda =
        .regWrite (Config.regBase + (0x14 + 4 * (5 : Fin 6).val)) 4 3 :: [] ∧
      (idle (.regWrite (Config.regBase + 0x28) 4 3)).status.busy = false) ∧
    ((busy (.regWrite (Config.regBase + 0x28) 4 3)).agenda =
        .regWrite (Config.regBase + (0x14 + 4 * (5 : Fin 6).val)) 4 3 :: [] ∧
      (busy (.regWrite (Config.regBase + 0x28) 4 3)).status.busy = true) ∧
    (idle (.regRead (Config.regBase + 0x14) 4)).agenda =
      .regRead (Config.regBase + (0x14 + 4 * (0 : Fin 6).val)) 4 :: [] ∧
    ∃ t, exec .nop .reset = .next t := ⟨⟨rfl, rfl⟩, ⟨rfl, rfl⟩, rfl, _, rfl⟩

theorem witness_IdAndCapsAreHardwired :
    (idle (.regRead (Config.regBase + 0x00) 4)).agenda = [.regRead (Config.regBase + 0x00) 4] ∧
    (idle (.regWrite (Config.regBase + 0x00) 4 1)).agenda = [.regWrite (Config.regBase + 0x00) 4 1] ∧
    (idle (.regRead (Config.regBase + 0x04) 4)).agenda = [.regRead (Config.regBase + 0x04) 4] ∧
    (idle (.regWrite (Config.regBase + 0x04) 4 1)).agenda = [.regWrite (Config.regBase + 0x04) 4 1] :=
  ⟨rfl, rfl, rfl, rfl⟩

theorem witness_StatusReadsAndClears :
    (idle (.regRead (Config.regBase + 0x0C) 4)).agenda = [.regRead (Config.regBase + 0x0C) 4] ∧
    (idle (.regWrite (Config.regBase + 0x0C) 4 6)).agenda = [.regWrite (Config.regBase + 0x0C) 4 6] := ⟨rfl, rfl⟩

/-- With RES2 read while BUSY is 1: four bytes fixed that make 0x44332211. -/
theorem witness_OtherRegisterAccesses :
    (idle (.regRead (Config.regBase + 0x08) 4)).agenda = [.regRead (Config.regBase + 0x08) 4] ∧
    (idle (.regRead (Config.regBase + 0x10) 4)).agenda = [.regRead (Config.regBase + 0x10) 4] ∧
    ((idle (.regRead (Config.regBase + 0x34) 4)).agenda =
        .regRead (Config.regBase + (0x2C + 4 * (2 : Fin 3).val)) 4 :: [] ∧
      (idle (.regRead (Config.regBase + 0x34) 4)).status.busy = false) ∧
    (∃ s : State, s.agenda = .regRead (Config.regBase + (0x2C + 4 * (2 : Fin 3).val)) 4 :: [] ∧ s.status.busy = true ∧
      s.port.draws = (0x44332211 : Word).extractLsb' 0 8 :: (0x44332211 : Word).extractLsb' 8 8 ::
        (0x44332211 : Word).extractLsb' 16 8 :: (0x44332211 : Word).extractLsb' 24 8 :: []) ∧
    (idle (.regRead (Config.regBase + 0x38) 4)).agenda = [.regRead (Config.regBase + 0x38) 4] ∧
    (idle (.regWrite (Config.regBase + 0x3C) 4 1)).agenda = [.regWrite (Config.regBase + 0x3C) 4 1] ∧
    ((0xFFFFFFFD : Word).getLsbD 1 = false ∧
      (idle (.regWrite (Config.regBase + 0x08) 4 0xFFFFFFFD)).agenda =
        [.regWrite (Config.regBase + 0x08) 4 0xFFFFFFFD]) :=
  ⟨rfl, rfl, ⟨rfl, rfl⟩,
    ⟨{ busy (.regRead (Config.regBase + 0x34) 4) with port := ⟨[], [], [0x11, 0x22, 0x33, 0x44], 0⟩ }, rfl, rfl, by decide⟩,
    rfl, rfl, by decide, rfl⟩

/-- The last word of the window, the first address above it, and a halfword. -/
theorem witness_OnlyWordAccessesHaveMeaning :
    ((idle (.regRead (Config.regBase + 60) 4)).agenda = .regRead (Config.regBase + 60) 4 :: [] ∧
      ∃ offset, Config.regBase + 60 = Config.regBase + offset ∧ 4 = 4 ∧ offset % 4 = 0 ∧ offset < 64) ∧
    ((idle (.regWrite (Config.regBase + 64) 4 0)).agenda = .regWrite (Config.regBase + 64) 4 0 :: [] ∧
      ¬ ∃ offset, Config.regBase + 64 = Config.regBase + offset ∧ 4 = 4 ∧ offset % 4 = 0 ∧ offset < 64) ∧
    (idle (.regRead Config.regBase 2)).agenda = .regRead Config.regBase 2 :: [] ∧
      ¬ ∃ offset, Config.regBase = Config.regBase + offset ∧ 2 = 4 ∧ offset % 4 = 0 ∧ offset < 64 := by
  refine ⟨⟨rfl, 60, rfl, rfl, rfl, by decide⟩, ⟨rfl, ?_⟩, rfl, ?_⟩
  · rintro ⟨o, h, _, _, h4⟩; omega
  · rintro ⟨o, _, h, _⟩; omega

/-- No slot of the machine after reset is valid. -/
theorem reset_slots_ok : ∀ a : SlotNo, (State.reset.slot a).Ok := by intro a; revert a; decide

theorem witness_HostBytesOutsideTheInFlightSet :
    (∀ b : SlotNo, (State.reset.slot b).Ok) ∧
    ((turn (.memRead 0xFFFFFFFF) .reset).inFlight (0xFFFFFFFF : Word).toNat = false ∧
      (turn (.memRead 0xFFFFFFFF) .reset).agenda = [.memRead 0xFFFFFFFF]) ∧
    (turn (.memWrite 0xFFFFFFFF 1) .reset).inFlight (0xFFFFFFFF : Word).toNat = false ∧
      (turn (.memWrite 0xFFFFFFFF 1) .reset).agenda = [.memWrite 0xFFFFFFFF 1] :=
  ⟨reset_slots_ok, by decide⟩

/-- A PUTPIXEL of pixel (7, 0) is pending: the last byte of buffer memory is in flight; the next draw is fixed. -/
def racing (t : Turn) : State :=
  turn t { pending 0x109 (bench 7 0 0 topSlot .atReset []) with port := ⟨[], [], [0x5A], 0⟩ }

theorem witness_HostRacesOnInFlightBytes :
    ((racing (.memRead 0xFFFFFFFF)).inFlight (0xFFFFFFFF : Word).toNat = true ∧
      (racing (.memRead 0xFFFFFFFF)).agenda = [.memRead 0xFFFFFFFF] ∧
      (racing (.memRead 0xFFFFFFFF)).port.draws = 0x5A :: []) ∧
    (racing (.memWrite 0xFFFFFFFF 1)).inFlight (0xFFFFFFFF : Word).toNat = true ∧
      (racing (.memWrite 0xFFFFFFFF 1)).agenda = [.memWrite 0xFFFFFFFF 1] := by decide

theorem witness_IrqFollowsEnableAndDone :
    (∃ t, exec .nop .reset = .next t) ∧
    ((idle (.regWrite (Config.regBase + 0x10) 4 0)).agenda = [.regWrite (Config.regBase + 0x10) 4 0] ∧
      (idle (.regWrite (Config.regBase + 0x10) 4 0)).status.busy = false ∧
      ∃ t, step (idle (.regWrite (Config.regBase + 0x10) 4 0)) = .next t) ∧
    ((idle (.regWrite (Config.regBase + 0x0C) 4 2)).agenda = [.regWrite (Config.regBase + 0x0C) 4 2] ∧
      (2 : Word).getLsbD 1 = true ∧ ∃ t, step (idle (.regWrite (Config.regBase + 0x0C) 4 2)) = .next t) ∧
    ((idle (.regWrite (Config.regBase + 0x08) 4 1)).agenda = [.regWrite (Config.regBase + 0x08) 4 1] ∧
      (1 : Word).getLsbD 1 = false ∧ ∃ t, step (idle (.regWrite (Config.regBase + 0x08) 4 1)) = .next t) ∧
    resetDue (idle .hardReset) ∧ ∃ t, step (idle .hardReset) = .next t :=
  ⟨⟨_, rfl⟩, ⟨rfl, rfl, _, step_regWrite rfl rfl⟩, ⟨rfl, rfl, _, step_regWrite rfl rfl⟩,
    ⟨rfl, rfl, _, step_regWrite rfl rfl⟩, .inl rfl, _, rfl⟩

/-- A hard reset with no command pending, and a soft one with a CREATE pending. -/
theorem witness_ResetForgetsTheDevice :
    (resetDue (idle .hardReset) ∧ (idle .hardReset).status.busy = false) ∧
    resetDue (turn (.regWrite (Config.regBase + 0x08) 4 2) (pending 0x103 .reset)) ∧
      (turn (.regWrite (Config.regBase + 0x08) 4 2) (pending 0x103 .reset)).status.busy = true :=
  ⟨⟨.inl rfl, rfl⟩, .inr ⟨2, rfl, rfl⟩, rfl⟩

/-- The machine after reset, with a command pending. -/
theorem inv_pending (w : Word) : (pending w .reset).Inv := by
  refine ⟨fun a => reset_slots_ok a, rfl, fun a ha => (by cases ha), .inl ?_, ?_⟩
  · change (0 : BitVec 4) ≤ 5; decide
  · change (0 : BitVec 4) = 5 ∨ (0 : BitVec 4) = 7 ∨ (0 : BitVec 4) = 8 → false = true; decide

theorem witness_EveryStepKeepsTheInvariant :
    (pending 0x00000101 .reset).Inv ∧ ∃ t, step (pending 0x00000101 .reset) = .next t :=
  ⟨inv_pending _, _, rfl⟩

theorem witness_NoStepLeavesBufferMemory : (pending 0x00000008 .reset).Inv := inv_pending _

theorem witness_PendingCommandCompletes :
    (pending 0x00000008 .reset).Inv ∧ engineDue (pending 0x00000008 .reset) ∧
      (pending 0x00000008 .reset).status.busy = true := ⟨inv_pending _, rfl, rfl⟩

theorem witness_EveryCommandEndsInTheCompletionUpdate : ∃ t, exec (.convert 1 2) .reset = .next t ∧
    t.status.err ≠ 0 := ⟨_, rfl, by decide⟩

theorem witness_ErrorsAreAllOrNothing : ∃ t, exec (.destroy 15) .reset = .next t ∧ t.status.err ≠ 0 :=
  ⟨_, rfl, by decide⟩

/-- FAULT is set and the host clears DONE. -/
theorem witness_FaultIsSticky :
    ∃ s t, step s = .next t ∧ s.status.fault = true ∧ ¬ resetDue s :=
  ⟨{ idle (.regWrite (Config.regBase + 0x0C) 4 0xFFFFFFFF) with status := ⟨false, true, false, true, 7, 5⟩ }, _,
    step_regWrite rfl rfl, rfl, by
      rintro (h | ⟨v, _, h⟩)
      · cases h
      · simp only [idle, turn, List.headD_cons, Turn.regWrite.injEq] at h; omega⟩

/-- A CREATE makes slot 2 valid, a DESTROY makes slot 1 invalid, a SETMASK changes a plane mask. -/
theorem witness_OnlyCreateAndDestroyChangeDescriptors :
    (∃ t, step (pending 0x203 (creating 0x08084808 0x00010008 0 0 0 0)) = .next t ∧
      ((creating 0x08084808 0x00010008 0 0 0 0).slot 2).valid = false ∧ (t.slot 2).valid = true) ∧
    (∃ t, step (pending 0x105 (bench 0 0 0 planarSlot .atReset [])) = .next t ∧
      ((bench 0 0 0 planarSlot .atReset []).slot 1).valid = true ∧ (t.slot 1).valid = false) ∧
    ∃ t, step (pending 0x106 (bench 5 0 0 planarSlot .atReset [])) = .next t ∧
      ((bench 5 0 0 planarSlot .atReset []).slot 1).valid = true ∧ (t.slot 1).valid = true ∧
      (t.slot 1).planeMask ≠ ((bench 5 0 0 planarSlot .atReset []).slot 1).planeMask :=
  ⟨⟨_, rfl, by decide, by decide⟩, ⟨_, rfl, by decide, by decide⟩, _, rfl, by decide, by decide, by decide⟩

/-- A machine about to allocate 8 bytes for slot 1, slot 2 an OwnedAllocation at [0x100, 0x108), the allocator's
answer `p`. -/
def allocating (p : Word) : State :=
  { (creating 0x08084808 0x00010008 3 0 0 0).setSlot 2
      { view 0x08084808 0x00010008 0x100 with own := .ownedAllocation, base := 0x100 } with allocAnswers := [some p] }

/-- A DESTROY of an OwnedAllocation slot; a CREATE answered with the byte after the other allocation, executed and
abandoned by a hard reset; and one answered with that allocation's last byte, which R84's law forbids. -/
theorem witness_OnlyDestroyFreesAndOnlyCreateAllocates :
    (∃ t, step (pending 0x105 (bench 0 0 0 { planarSlot with own := .ownedAllocation, base := 0x100 } .atReset [])) =
      .next t ∧ t.allocLog = [.free 0x100]) ∧
    (∃ t, step (pending 0x103 (allocating 0x108)) = .next t ∧ t.allocLog = [.alloc 0x108 8]) ∧
    (∃ t, step { pending 0x103 (allocating 0x108) with agenda := [.hardReset], port := ⟨[], [], [1], 0⟩ } = .next t ∧
      t.allocLog = [.alloc 0x108 8]) ∧
    ∃ t, step (pending 0x103 (allocating 0x107)) = .next t ∧ t.allocLog = [] :=
  ⟨⟨_, rfl, by decide⟩, ⟨_, rfl, by decide⟩, ⟨_, rfl, by decide⟩, _, rfl, by decide⟩

/-- A PUTPIXEL changes the last byte of buffer memory. -/
theorem witness_EngineWritesStayInTheNamedBuffer :
    ∃ t, (bench 7 0 9 topSlot .atReset []).Inv ∧ exec (.putpixel 1) (bench 7 0 9 topSlot .atReset []) = .next t ∧
      0xFFFFFFFF ∉ (bench 7 0 9 topSlot .atReset []).port.raced ∧
      t.port.mem.read 0xFFFFFFFF ≠ (bench 7 0 9 topSlot .atReset []).port.mem.read 0xFFFFFFFF := by
  refine ⟨_, ⟨?_, rfl, ?_, .inl (by decide), by decide⟩, rfl, by decide, by decide⟩
  · intro a; revert a; decide
  · intro a ha; cases ha

/-- Slot 15 is invalid; for QUERY at the last legal selector. -/
theorem witness_InvalidSlotIsAContractViolation :
    ((bench 3 0 0 topSlot .atReset []).slot 15).valid = false ∧ ((bench 3 0 0 topSlot .atReset []).arg 0).toNat ≤ 3 := by
  decide

/-- An accepted tuple, one that is not, and a word that does not decode: for VALIDATE and for GEOM. -/
theorem witness_ValidateReportsAcceptedTuples :
    (decodeFmt 0x20202020 false = .ok ⟨.planar, 32, 32, 32, 32, .lsbFirst, .lsbFirst⟩ ∧
      acceptedTuple ⟨.planar, 32, 32, 32, 32, .lsbFirst, .lsbFirst⟩) ∧
    (decodeFmt 0x08084809 false = .ok ⟨.packed, 9, 8, 8, 8, .lsbFirst, .lsbFirst⟩ ∧
      ¬ acceptedTuple ⟨.packed, 9, 8, 8, 8, .lsbFirst, .lsbFirst⟩) ∧
    decodeFmt 0x08088808 false = .error .unsupportedFormat := by unfold acceptedTuple; decide

theorem witness_GeomReportsStrideAndExactSize :
    (decodeFmt 0x20002020 true = .ok ⟨.planar, 32, 32, 32, 32, .lsbFirst, .lsbFirst⟩ ∧
      acceptedTuple ⟨.planar, 32, 32, 32, 32, .lsbFirst, .lsbFirst⟩) ∧
    (decodeFmt 0x08084809 true = .ok ⟨.packed, 9, 8, 8, 8, .lsbFirst, .lsbFirst⟩ ∧
      ¬ acceptedTuple ⟨.packed, 9, 8, 8, 8, .lsbFirst, .lsbFirst⟩) ∧
    decodeFmt 0x40084808 true = .error .illegalCommand := by unfold acceptedTuple; decide

/-- The largest Planar and the largest Packed format. -/
theorem witness_StrideAndSizeBounds :
    (Format.valid ⟨.planar, 32, 32, 32, 32, .lsbFirst, .lsbFirst⟩ = true) ∧
    Format.valid ⟨.packed, 32, 32, 32, 32, .lsbFirst, .lsbFirst⟩ = true := by decide

theorem witness_CreateDefersTheBuffer :
    decodeFmt ((creating 0x08084808 0x00010008 0 0 0 0).arg 0) true = .ok packed8 ∧ acceptedTuple packed8 ∧
      ((creating 0x08084808 0x00010008 0 0 0 0).slot 1).valid = false ∧
      (creating 0x08084808 0x00010008 0 0 0 0).arg 2 = 0 := ⟨by decide, packed8_accepted, by decide⟩

/-- The declared size is exactly the computed one and the buffer ends at the top of memory. -/
theorem witness_CreateBorrowsTheBuffer :
    decodeFmt ((creating 0x08084808 0x00010008 1 0xFFFFFFF8 0 8).arg 0) true = .ok packed8 ∧ acceptedTuple packed8 ∧
      ((creating 0x08084808 0x00010008 1 0xFFFFFFF8 0 8).slot 1).valid = false ∧
      (creating 0x08084808 0x00010008 1 0xFFFFFFF8 0 8).arg 2 = 1 ∧
      computedSize packed8 ((creating 0x08084808 0x00010008 1 0xFFFFFFF8 0 8).arg 1) ≤
        ((creating 0x08084808 0x00010008 1 0xFFFFFFF8 0 8).arg 5).toNat ∧
      ((creating 0x08084808 0x00010008 1 0xFFFFFFF8 0 8).arg 3).toNat +
        computedSize packed8 ((creating 0x08084808 0x00010008 1 0xFFFFFFF8 0 8).arg 1) ≤ 2 ^ 32 :=
  ⟨by decide, packed8_accepted, by decide⟩

/-- Both modes, with a declared size of 0 and with one of exactly 8. -/
theorem witness_CreateTakesStorage :
    decodeFmt 0x08084808 true = .ok packed8 ∧ acceptedTuple packed8 ∧
      ∀ s ∈ [creating 0x08084808 0x00010008 2 0 0xFFFFFFF8 0, creating 0x08084808 0x00010008 6 0 0xFFFFFFF8 8],
        s.arg 0 = 0x08084808 ∧ (s.slot 1).valid = false ∧
        (s.arg 5 = 0 ∨ computedSize packed8 (s.arg 1) ≤ (s.arg 5).toNat) ∧
        (s.arg 4).toNat + computedSize packed8 (s.arg 1) ≤ 2 ^ 32 ∧ (s.arg 2 = 2 ∨ s.arg 2 = 6) :=
  ⟨by decide, packed8_accepted, by decide⟩

/-- The allocator answers with the last 8 bytes of memory. -/
theorem witness_CreateAllocates :
    ∃ s : State, decodeFmt (s.arg 0) true = .ok packed8 ∧ acceptedTuple packed8 ∧ (s.slot 1).valid = false ∧
      s.arg 2 = 3 ∧ s.allocAnswers = some 0xFFFFFFF8 :: [] ∧
      allocatorMayAnswer s 0xFFFFFFF8 (computedSize packed8 (s.arg 1)) := by
  refine ⟨{ creating 0x08084808 0x00010008 3 0 0 0 with allocAnswers := [some 0xFFFFFFF8] }, by decide,
    packed8_accepted, by decide, by decide, rfl, by decide, ?_⟩
  intro b hv
  exfalso; revert b; decide

/-- One state for each clause. -/
theorem witness_CreateReportsTheFirstFailingCheck :
    8 ≤ ((creating 0 0 8 0 0 0).arg 2).toNat ∧
    (((creating 0 0 7 0 0 0).arg 2).getLsbD 2 = true ∧ ((creating 0 0 7 0 0 0).arg 2).extractLsb' 0 2 ≠ 2) ∧
    (((creating 0x08088808 0 6 0 0 0).arg 2).toNat ∈ [0, 1, 2, 3, 6] ∧
      decodeFmt ((creating 0x08088808 0 6 0 0 0).arg 0) true = .error .unsupportedFormat) ∧
    (decodeFmt ((bench 0x08084808 0 0 topSlot .atReset []).arg 0) true = .ok packed8 ∧
      ((bench 0x08084808 0 0 topSlot .atReset []).arg 2).toNat ∈ [0, 1, 2, 3, 6] ∧
      ((bench 0x08084808 0 0 topSlot .atReset []).slot 1).valid = true) ∧
    acceptedTuple packed8 ∧
    (decodeFmt ((creating 0x08084809 0 0 0 0 0).arg 0) true = .ok ⟨.packed, 9, 8, 8, 8, .lsbFirst, .lsbFirst⟩ ∧
      ¬ acceptedTuple ⟨.packed, 9, 8, 8, 8, .lsbFirst, .lsbFirst⟩) ∧
    (∀ s ∈ [creating 0x08084808 0x00010008 1 0 0 7, creating 0x08084808 0x00010008 1 0xFFFFFFF9 0 8,
        creating 0x08084808 0x00010008 2 0 0 7, creating 0x08084808 0x00010008 6 0 0xFFFFFFF9 0],
      decodeFmt (s.arg 0) true = .ok packed8 ∧ (s.slot 1).valid = false ∧
      (s.arg 2 = 1 ∧ ((s.arg 5).toNat < computedSize packed8 (s.arg 1) ∨
          2 ^ 32 < (s.arg 3).toNat + computedSize packed8 (s.arg 1)) ∨
        (s.arg 2 = 2 ∨ s.arg 2 = 6) ∧ ((s.arg 5 ≠ 0 ∧ (s.arg 5).toNat < computedSize packed8 (s.arg 1)) ∨
          2 ^ 32 < (s.arg 4).toNat + computedSize packed8 (s.arg 1)))) ∧
    ((creating 0x08084808 0x00010008 3 0 0 0).arg 2 = 3 ∧
      ∃ rest, ({ creating 0x08084808 0x00010008 3 0 0 0 with allocAnswers := [none] } : State).allocAnswers =
        none :: rest) := by
  exact ⟨by decide, by decide, by decide, by decide, packed8_accepted, ⟨by decide, by unfold acceptedTuple; decide⟩,
    by decide, by decide, [], rfl⟩

/-- A Planar and a Packed slot: for ANNOTATE, SETMASK and QUERY. -/
theorem witness_AnnotateRestoresTheFullMask :
    (((bench 0 0 0 planarSlot topSlot []).slot 1).valid = true ∧ ((bench 0 0 0 planarSlot topSlot []).slot 1).Ok) ∧
    ((bench 0 0 0 planarSlot topSlot []).slot 2).valid = true ∧ ((bench 0 0 0 planarSlot topSlot []).slot 2).Ok :=
  ⟨⟨by decide, by decide⟩, by decide, by decide⟩

theorem witness_DestroyReleasesTheSlot :
    (((bench 0 0 0 { planarSlot with own := .ownedAllocation, base := 0x100 } topSlot []).slot 1).valid = true ∧
      ((bench 0 0 0 { planarSlot with own := .ownedAllocation, base := 0x100 } topSlot []).slot 1).own =
        .ownedAllocation) ∧
    ((bench 0 0 0 planarSlot topSlot []).slot 2).valid = true ∧
      ((bench 0 0 0 planarSlot topSlot []).slot 2).own ≠ .ownedAllocation := by decide

/-- Depth 3, and the boundary depth 32. -/
theorem witness_SetmaskNarrowsThePlaneMask :
    ∀ a ∈ [(1 : SlotNo), 2], ((bench 5 0 0 planarSlot (view 0x20202020 0x00010008 0) []).slot a).valid = true ∧
      ((bench 5 0 0 planarSlot (view 0x20202020 0x00010008 0) []).slot a).fmt.depth.toNat ≤ 32 ∧
      ((bench 5 0 0 planarSlot (view 0x20202020 0x00010008 0) []).slot a).fmt.family = .planar := by decide

theorem witness_QueryReadsTheSlot :
    3 < ((bench 4 0 0 planarSlot topSlot []).arg 0).toNat ∧
    (∀ sel : Word, (bench sel 0 0 planarSlot topSlot []).arg 0 = sel ∧
      (bench sel 0 0 planarSlot topSlot []).slot 1 = planarSlot) ∧
    (3 : Word).toNat ≤ 3 ∧ planarSlot.valid = true ∧ planarSlot.Ok :=
  ⟨by decide, fun _ => ⟨rfl, rfl⟩, by decide, by decide, planarSlot_ok⟩

/-- The last pixel of `topSlot`: for GETPIXEL, PUTPIXEL and the round trip. -/
theorem witness_GetpixelReadsAPackedPixel :
    ((bench 7 0 9 topSlot .atReset []).slot 1).Ok ∧ ((bench 7 0 9 topSlot .atReset []).slot 1).fmt.family = .packed ∧
      accessible ((bench 7 0 9 topSlot .atReset []).slot 1) ((bench 7 0 9 topSlot .atReset []).arg 0).toNat
        ((bench 7 0 9 topSlot .atReset []).arg 1).toNat ∧
      unraced (bench 7 0 9 topSlot .atReset []) ((bench 7 0 9 topSlot .atReset []).slot 1) :=
  ⟨by decide, by decide, topSlot_accessible, unraced_of_nil rfl⟩

theorem witness_GetpixelGathersAPlanarPixel :
    ((bench 15 0 5 planarSlot .atReset []).slot 1).Ok ∧
      ((bench 15 0 5 planarSlot .atReset []).slot 1).fmt.family = .planar ∧
      accessible ((bench 15 0 5 planarSlot .atReset []).slot 1) ((bench 15 0 5 planarSlot .atReset []).arg 0).toNat
        ((bench 15 0 5 planarSlot .atReset []).arg 1).toNat ∧
      unraced (bench 15 0 5 planarSlot .atReset []) ((bench 15 0 5 planarSlot .atReset []).slot 1) :=
  ⟨by decide, by decide, planarSlot_accessible 15 (.inr rfl), unraced_of_nil rfl⟩

/-- The hypotheses are among those of `GetpixelReadsAPackedPixel`. -/
theorem witness_PutpixelWritesAPackedPixel :
    ((bench 7 0 9 topSlot .atReset []).slot 1).Ok ∧ ((bench 7 0 9 topSlot .atReset []).slot 1).fmt.family = .packed ∧
      accessible ((bench 7 0 9 topSlot .atReset []).slot 1) ((bench 7 0 9 topSlot .atReset []).arg 0).toNat
        ((bench 7 0 9 topSlot .atReset []).arg 1).toNat :=
  ⟨by decide, by decide, topSlot_accessible⟩

theorem witness_PutpixelScattersAPlanarPixel :
    ((bench 0 0 5 planarSlot .atReset []).slot 1).Ok ∧
      ((bench 0 0 5 planarSlot .atReset []).slot 1).fmt.family = .planar ∧
      accessible ((bench 0 0 5 planarSlot .atReset []).slot 1) ((bench 0 0 5 planarSlot .atReset []).arg 0).toNat
        ((bench 0 0 5 planarSlot .atReset []).arg 1).toNat ∧
      planeKept ((bench 0 0 5 planarSlot .atReset []).slot 1) 2 :=
  ⟨by decide, by decide, planarSlot_accessible 0 (.inl rfl), by decide, by decide⟩

theorem witness_PutThenGetRoundTrip :
    ((bench 15 0 5 planarSlot .atReset []).slot 1).Ok ∧
      accessible ((bench 15 0 5 planarSlot .atReset []).slot 1) ((bench 15 0 5 planarSlot .atReset []).arg 0).toNat
        ((bench 15 0 5 planarSlot .atReset []).arg 1).toNat ∧
      unraced (bench 15 0 5 planarSlot .atReset []) ((bench 15 0 5 planarSlot .atReset []).slot 1) :=
  ⟨by decide, planarSlot_accessible 15 (.inr rfl), unraced_of_nil rfl⟩

/-- The pixels (15, 0) and (0, 0) of `planarSlot`. -/
theorem witness_PutpixelLeavesOtherPixels :
    ((bench 15 0 5 planarSlot .atReset []).slot 1).Ok ∧ neverAliases ((bench 15 0 5 planarSlot .atReset []).slot 1) ∧
      accessible ((bench 15 0 5 planarSlot .atReset []).slot 1) ((bench 15 0 5 planarSlot .atReset []).arg 0).toNat
        ((bench 15 0 5 planarSlot .atReset []).arg 1).toNat ∧
      unraced (bench 15 0 5 planarSlot .atReset []) ((bench 15 0 5 planarSlot .atReset []).slot 1) ∧
      (∃ t, exec (.putpixel 1) (bench 15 0 5 planarSlot .atReset []) = .next t) ∧
      accessible ((bench 15 0 5 planarSlot .atReset []).slot 1) 0 0 ∧
      ((0, 0) : Nat × Nat) ≠ (((bench 15 0 5 planarSlot .atReset []).arg 0).toNat,
        ((bench 15 0 5 planarSlot .atReset []).arg 1).toNat) :=
  ⟨by decide, by unfold neverAliases; decide, planarSlot_accessible 15 (.inr rfl), unraced_of_nil rfl, ⟨_, rfl⟩,
    planarSlot_accessible 0 (.inl rfl), by decide⟩

/-- The first pixel right of the image, and the first row below it. -/
theorem witness_InaccessiblePixelIsAContractViolation :
    (((bench 8 0 0 topSlot .atReset []).slot 1).Ok ∧ ((bench 8 0 0 topSlot .atReset []).slot 1).valid = true ∧
      ¬ accessible ((bench 8 0 0 topSlot .atReset []).slot 1) ((bench 8 0 0 topSlot .atReset []).arg 0).toNat
        ((bench 8 0 0 topSlot .atReset []).arg 1).toNat) ∧
    ((bench 8 0 0 topSlot .atReset []).slot 1).width.toNat ≤ ((bench 8 0 0 topSlot .atReset []).arg 0).toNat ∧
    ((bench 0 1 0 topSlot .atReset []).slot 1).valid = true ∧
    ((bench 0 1 0 topSlot .atReset []).slot 1).height.toNat ≤ ((bench 0 1 0 topSlot .atReset []).arg 1).toNat :=
  ⟨⟨by decide, by decide, fun h => absurd h.2.2.1 (by decide)⟩, by decide⟩

/-- The last plane, and the first the slot has not. -/
theorem witness_PixaddrLocatesAPlanarPixel :
    acceptedTuple planarSlot.fmt ∧
    (∀ k : Word, (bench 15 0 k planarSlot .atReset []).slot 1 = planarSlot) ∧
    (planarSlot.valid = true ∧ planarSlot.fmt.family = .planar ∧ 15 < planarSlot.width.toNat ∧
      0 < planarSlot.height.toNat) ∧
    ((bench 15 0 2 planarSlot .atReset []).arg 2).toNat < planarSlot.fmt.depth.toNat ∧
    planarSlot.fmt.depth.toNat ≤ ((bench 15 0 3 planarSlot .atReset []).arg 2).toNat := by
  refine ⟨?_, fun _ => rfl, by decide, by decide, by decide⟩
  change acceptedTuple ⟨.planar, 3, 4, 16, 16, .msbFirst, .msbFirst⟩
  unfold acceptedTuple; decide

/-- An 8-bit and a 4-bit slot. -/
theorem witness_PixaddrLocatesAPackedPixel :
    ∀ d ∈ [topSlot, view 0x08084444 0x00010008 0x100], ((bench 7 0 0 d .atReset []).slot 1).valid = true ∧
      ((bench 7 0 0 d .atReset []).slot 1).Ok ∧ ((bench 7 0 0 d .atReset []).slot 1).fmt.family = .packed ∧
      ((bench 7 0 0 d .atReset []).arg 0).toNat < ((bench 7 0 0 d .atReset []).slot 1).width.toNat ∧
      ((bench 7 0 0 d .atReset []).arg 1).toNat < ((bench 7 0 0 d .atReset []).slot 1).height.toNat := by decide

/-- The last entry of the last table. -/
theorem witness_PermlookupReadsTheNineTables :
    (2 < 3 ∧ 2 < 3 ∧ 3 < 4) ∧ (bench 58 0 0 .atReset .atReset []).arg 0 = BitVec.ofNat 32 (2 + 4 * 2 + 16 * 3) := by
  decide

theorem witness_IllegalPermAndXfWords :
    64 ≤ ((bench 64 0 0 .atReset .atReset []).arg 0).toNat ∧
    ((bench 3 0 0 .atReset .atReset []).arg 0).toNat % 4 = 3 ∧
    ((bench 12 0 0 .atReset .atReset []).arg 0).toNat / 4 % 4 = 3 ∧
    1024 ≤ ((bench 1024 0 0 .atReset .atReset []).arg 0).toNat := by decide

theorem witness_BytexformMovesTheBits : ((bench 1023 0 0 .atReset .atReset []).arg 0).toNat < 1024 := by decide

/-- What the CONVERT statements ask of a destination in slot 1 and a source in slot 2 whose buffers are apart. -/
theorem convertible_of {S D : Slot} (hS : S.valid = true ∧ S.own ≠ .unallocated)
    (hD : D.valid = true ∧ D.own ≠ .unallocated) (hg : S.fmt.depth = D.fmt.depth ∧ S.width = D.width ∧ S.height = D.height)
    (ho : buffersOverlap S D = false) : convertible S D :=
  ⟨hS.1, hS.2, hD.1, hD.2, hg.1, hg.2.1, hg.2.2, buffersOverlap_iff.1 ho⟩

/-- The destination's buffer begins where the source's ends. -/
theorem witness_ConvertCopiesIdenticalLayouts :
    ∃ s : State, (s.slot 1).Ok ∧ (s.slot 2).Ok ∧ convertible (s.slot 2) (s.slot 1) ∧ unraced s (s.slot 2) ∧
      unraced s (s.slot 1) ∧ identicalLayout (s.slot 2) (s.slot 1) :=
  ⟨bench 0 0 0 topSlot (view 0x08084808 0x00010008 0xFFFFFFF0) [], by decide, by decide,
    convertible_of (by decide) (by decide) (by decide) (by decide), unraced_of_nil rfl, unraced_of_nil rfl,
    by unfold identicalLayout; decide⟩

/-- Strategy 2: bitmaps of unlike stride; strategy 3: 32-bit pixels of the other byte order (V-CV4). -/
theorem witness_ConvertBulkCopiesThroughTheMask :
    ∀ p ∈ [(view 0x20200101 0x00010010 0x100, view 0x082001C1 0x00010010 0x200, 2),
        (view 0x20206060 0x00010001 0x200, view 0x20206020 0x00010001 0x100, 3)],
      ∃ s : State, s.slot 1 = p.1 ∧ s.slot 2 = p.2.1 ∧ (s.slot 1).Ok ∧ (s.slot 2).Ok ∧
        convertible (s.slot 2) (s.slot 1) ∧ unraced s (s.slot 2) ∧ unraced s (s.slot 1) ∧
        (select (s.slot 2) (s.slot 1)).number = p.2.2 := by
  intro p hp
  simp only [List.mem_cons, List.not_mem_nil, or_false] at hp
  rcases hp with rfl | rfl
  · exact ⟨bench 0 0 0 (view 0x20200101 0x00010010 0x100) (view 0x082001C1 0x00010010 0x200) [], by decide, by decide,
      by decide, by decide, convertible_of (by decide) (by decide) (by decide) (by decide), unraced_of_nil rfl,
      unraced_of_nil rfl, by decide⟩
  · exact ⟨bench 0 0 0 (view 0x20206060 0x00010001 0x200) (view 0x20206020 0x00010001 0x100) [], by decide, by decide,
      by decide, by decide, convertible_of (by decide) (by decide) (by decide) (by decide), unraced_of_nil rfl,
      unraced_of_nil rfl, by decide⟩

/-- A pair for each clause: identical; bitmaps; unlike byte order at 8, 24 and Planar depth 3; none of these;
two families; two pixel sizes; 24-bit; Planar of two pads. -/
theorem witness_SelectTakesTheCheapestStrategy :
    identicalLayout topSlot topSlot ∧
    (¬ identicalLayout (view 0x082001C1 0 0) (view 0x20200101 0 0) ∧
      bitmapPair (view 0x082001C1 0 0) (view 0x20200101 0 0) ∧ acceptedTuple (view 0x082001C1 0 0).fmt ∧
      acceptedTuple (view 0x20200101 0 0).fmt) ∧
    (¬ identicalLayout (view 0x08185818 0 0) (view 0x08185898 0 0) ∧
      ¬ bitmapPair (view 0x08185818 0 0) (view 0x08185898 0 0) ∧
      orderPair (view 0x08185818 0 0) (view 0x08185898 0 0) ∧ (view 0x08185818 0 0).fmt.family = .packed ∧
      (view 0x08185818 0 0).fmt.bpp = 24) ∧
    (¬ identicalLayout (view 0x10100403 0 0) planarSlot ∧ ¬ bitmapPair (view 0x10100403 0 0) planarSlot ∧
      orderPair (view 0x10100403 0 0) planarSlot ∧ (view 0x10100403 0 0).fmt.family = .planar ∧
      acceptedTuple (view 0x10100403 0 0).fmt ∧ acceptedTuple planarSlot.fmt) ∧
    (¬ identicalLayout topSlot planarSlot ∧ ¬ bitmapPair topSlot planarSlot ∧ ¬ orderPair topSlot planarSlot ∧
      topSlot.fmt.family ≠ planarSlot.fmt.family) ∧
    (topSlot.fmt.family = .packed ∧ (view 0x20206020 0 0).fmt.family = .packed ∧
      topSlot.fmt.bpp ≠ (view 0x20206020 0 0).fmt.bpp) ∧
    ((view 0x08185818 0 0).fmt.family = .packed ∧ (view 0x08185858 0 0).fmt.family = .packed ∧
      (view 0x08185818 0 0).fmt.bpp = 24 ∧ (view 0x08185858 0 0).fmt.bpp = 24 ∧
      (view 0x08185818 0 0).fmt.byteOrder ≠ (view 0x08185858 0 0).fmt.byteOrder) ∧
    (planarSlot.fmt.family = .planar ∧ (view 0x201004C3 0 0).fmt.family = .planar ∧ 1 < planarSlot.fmt.depth.toNat ∧
      planarSlot.fmt.pad ≠ (view 0x201004C3 0 0).fmt.pad) := by
  have acc : ∀ f : Format, f.valid = true → acceptedTuple f := fun f h => (valid_iff_acceptedTuple f).1 h
  unfold identicalLayout bitmapPair orderPair
  exact ⟨by decide, ⟨by decide, by decide, acc _ (by decide), acc _ (by decide)⟩, by decide,
    ⟨by decide, by decide, by decide, by decide, acc _ (by decide), acc _ (by decide)⟩, by decide, by decide, by decide,
    by decide⟩

/-- Strategy 3, Packed: V-CV4's slots. Strategy 2: bitmaps of unlike stride and orders. Strategy 3, Planar: depth 3,
unlike byte order alone, then unlike bit order alone. -/
theorem witness_ConvertBulkCopyPixelValues :
    (∃ s t : State, (s.slot 1).Ok ∧ (s.slot 2).Ok ∧ convertible (s.slot 2) (s.slot 1) ∧ unraced s (s.slot 2) ∧
      unraced s (s.slot 1) ∧ (select (s.slot 2) (s.slot 1)).number = 3 ∧ exec (.convert 1 2) s = .next t ∧
      0 < (s.slot 2).width.toNat ∧ 0 < (s.slot 2).height.toNat ∧ (s.slot 2).fmt.family = .packed) ∧
    ∀ p ∈ [(view 0x20200101 0x00010010 0x100, view 0x101001C1 0x00010010 0x200, 2),
        (view 0x10100403 0x00010010 0x100, view 0x10100443 0x00010010 0x200, 3),
        (view 0x10100403 0x00010010 0x100, view 0x10100483 0x00010010 0x200, 3)],
      ∃ s t : State, s.slot 1 = p.1 ∧ s.slot 2 = p.2.1 ∧ (s.slot 1).Ok ∧ (s.slot 2).Ok ∧
        convertible (s.slot 2) (s.slot 1) ∧ unraced s (s.slot 2) ∧ unraced s (s.slot 1) ∧
        (select (s.slot 2) (s.slot 1)).number = p.2.2 ∧ exec (.convert 1 2) s = .next t ∧
        0 < (s.slot 2).width.toNat ∧ 0 < (s.slot 2).height.toNat ∧ (s.slot 2).fmt.family = .planar ∧
        neverAliases (s.slot 2) ∧ neverAliases (s.slot 1) ∧ fullMask (s.slot 2) ∧ fullMask (s.slot 1) := by
  refine ⟨⟨bench 0 0 0 (view 0x20206060 0x00010001 0x200) (view 0x20206020 0x00010001 0x100) [], _, by decide, by decide,
    convertible_of (by decide) (by decide) (by decide) (by decide), unraced_of_nil rfl, unraced_of_nil rfl, by decide,
    rfl, by decide, by decide, by decide⟩, ?_⟩
  intro p hp
  simp only [List.mem_cons, List.not_mem_nil, or_false] at hp
  unfold neverAliases fullMask
  rcases hp with rfl | rfl | rfl
  · exact ⟨bench 0 0 0 (view 0x20200101 0x00010010 0x100) (view 0x101001C1 0x00010010 0x200) [], _, by decide, by decide,
      by decide, by decide, convertible_of (by decide) (by decide) (by decide) (by decide), unraced_of_nil rfl,
      unraced_of_nil rfl, by decide, rfl, by decide, by decide, by decide, by decide, by decide, by decide, by decide⟩
  · exact ⟨bench 0 0 0 (view 0x10100403 0x00010010 0x100) (view 0x10100443 0x00010010 0x200) [], _, by decide, by decide,
      by decide, by decide, convertible_of (by decide) (by decide) (by decide) (by decide), unraced_of_nil rfl,
      unraced_of_nil rfl, by decide, rfl, by decide, by decide, by decide, by decide, by decide, by decide, by decide⟩
  · exact ⟨bench 0 0 0 (view 0x10100403 0x00010010 0x100) (view 0x10100483 0x00010010 0x200) [], _, by decide, by decide,
      by decide, by decide, convertible_of (by decide) (by decide) (by decide) (by decide), unraced_of_nil rfl,
      unraced_of_nil rfl, by decide, rfl, by decide, by decide, by decide, by decide, by decide, by decide, by decide⟩

/-- V-CV9's slots, the destination's mask keeping plane block 7 alone: a byte of an excluded plane, a padding bit
of the kept one, and the bit the first pixel stores. -/
theorem witness_ConvertFallbackKeepsPixels :
    ∃ s : State, (s.slot 1).Ok ∧ (s.slot 2).Ok ∧ convertible (s.slot 2) (s.slot 1) ∧ unraced s (s.slot 2) ∧
      unraced s (s.slot 1) ∧ (select (s.slot 2) (s.slot 1)).number = 4 ∧
      (∀ x y, x < (s.slot 2).width.toNat → y < (s.slot 2).height.toNat →
        piecesInside (s.slot 2) x y = true ∧ piecesInside (s.slot 1) x y = true) ∧ neverAliases (s.slot 1) ∧
      (∀ x y i, x < (s.slot 2).width.toNat → y < (s.slot 2).height.toNat → ¬ storesBit (s.slot 1) x y i 0x206 7) ∧
      (∀ x y i, x < (s.slot 2).width.toNat → y < (s.slot 2).height.toNat → ¬ storesBit (s.slot 1) x y i 0x207 5) ∧
      storesBit (s.slot 1) 0 0 0 0x207 7 ∧
      ∀ x y i, x < (s.slot 2).width.toNat → y < (s.slot 2).height.toNat → comesLater 0 0 x y →
        ¬ storesBit (s.slot 1) x y i 0x207 7 := by
  refine ⟨bench 0 0 0 { view 0x08080888 0x00010002 0x200 with planeMask := 1 } (view 0x08084808 0x00010002 0x100) [],
    by decide, by decide, convertible_of (by decide) (by decide) (by decide) (by decide), unraced_of_nil rfl,
    unraced_of_nil rfl, by decide, ?_, by unfold neverAliases; decide, ?_, ?_,
    storesBit_iff.2 ⟨⟨7, 7, 1, 0⟩, by decide, by decide, by decide, by decide⟩, ?_⟩
  · intro x y hx hy
    change x < 2 at hx
    change y < 1 at hy
    interval_cases x <;> interval_cases y <;> decide
  · intro x y i hx hy h
    change x < 2 at hx
    change y < 1 at hy
    obtain rfl : y = 0 := by omega
    obtain ⟨q, hq, hc, ho, -⟩ := storesBit_iff.1 h
    revert q
    interval_cases x <;> decide
  · intro x y i hx hy h
    change x < 2 at hx
    change y < 1 at hy
    obtain rfl : y = 0 := by omega
    obtain ⟨q, hq, hc, ho, -⟩ := storesBit_iff.1 h
    revert q
    interval_cases x <;> decide
  · intro x y i hx hy hl h
    change x < 2 at hx
    change y < 1 at hy
    obtain rfl : y = 0 := by omega
    obtain rfl : x = 1 := by unfold comesLater at hl; omega
    obtain ⟨q, hq, hc, ho, -⟩ := storesBit_iff.1 h
    revert q
    decide

/-- One pair for each clause: V-CV13's, V-CV10's, V-CV11's slots, and an aliasing Planar destination whose
pixels lie outside it. -/
theorem witness_ConvertReportsTheFirstFailingCheck :
    ((bench 0 0 0 { topSlot with own := .unallocated } topSlot []).slot 1).own = .unallocated ∧
    (∃ s : State, (s.slot 1).valid = true ∧ (s.slot 2).valid = true ∧ (s.slot 1).own ≠ .unallocated ∧
      (s.slot 2).own ≠ .unallocated ∧ (s.slot 2).height ≠ (s.slot 1).height) ∧
    (∃ s : State, (s.slot 1).valid = true ∧ (s.slot 2).valid = true ∧ (s.slot 1).own ≠ .unallocated ∧
      (s.slot 2).own ≠ .unallocated ∧ (s.slot 2).fmt.depth = (s.slot 1).fmt.depth ∧
      (s.slot 2).width = (s.slot 1).width ∧ (s.slot 2).height = (s.slot 1).height ∧
      ¬ buffersDisjoint (s.slot 2) (s.slot 1)) ∧
    ∃ s : State, convertible (s.slot 2) (s.slot 1) ∧ (select (s.slot 2) (s.slot 1)).number = 4 ∧
      ∃ x y, x < (s.slot 2).width.toNat ∧ y < (s.slot 2).height.toNat ∧
        (piecesInside (s.slot 2) x y = false ∨ piecesInside (s.slot 1) x y = false) := by
  refine ⟨by decide,
    ⟨bench 0 0 0 (view 0x08084808 0x00020004 0x200) (view 0x08084808 0x00010004 0x100) [], by decide, by decide,
      by decide, by decide, by decide⟩,
    ⟨bench 0 0 0 (view 0x08084808 0x00010004 0x103) (view 0x08084808 0x00010004 0x100) [], by decide, by decide,
      by decide, by decide, by decide, by decide, by decide, fun h => h 0x103 (by decide)⟩,
    bench 0 0 0 (view 0x08200441 0x00010008 0x200) (view 0x08084401 0x00010008 0x100) [],
      convertible_of (by decide) (by decide) (by decide) (by decide), by decide, 0, 0, by decide, by decide, .inr (by decide)⟩

end Sys2Proof.Tests
end

/-! PROOFS. The statements about the state, the register window, the in-flight set, reset and the invariant
(spec/10_state.md, spec/20_memory.md R92, spec/70_reset_and_hazards.md), with the facts they share. -/
namespace Sys2Proof.Machine

/-! ### The invariant, turn by turn -/

/-- The invariant does not speak of the agenda. -/
theorem State.Inv.afterTurn {s : State} (h : s.Inv) : (afterTurn s).Inv := by
  obtain ⟨hslots, hwf, hraced, herr, hfault⟩ := h
  exact ⟨hslots, hwf, fun a ha => (inFlight_agenda s _ a).trans (hraced a ha), herr, hfault⟩

/-- While BUSY is 0 nobody has raced on a byte (R92). -/
theorem State.Inv.raced_eq_nil {s : State} (h : s.Inv) (hb : s.status.busy = false) : s.port.raced = [] := by
  obtain ⟨_, _, hraced, _⟩ := h
  refine List.eq_nil_iff_forall_not_mem.2 fun a ha => ?_
  simpa [inFlight_of_idle hb] using hraced a ha

/-- The completion update leaves the invariant, whatever the effects before it, if they made slots as R41 says. -/
theorem inv_of_complete {s u : State} {e : BitVec 4} (hf : CommandFrame s u) (hwf : s.port.mem.wf = true)
    (hslots : ∀ a, (u.slot a).Ok) (he : e ≤ 5 ∨ e = 7 ∨ e = 8) : (u.complete e).Inv := by
  refine ⟨hslots, Port.settle_wf (hf.wf hwf), by simp, he, fun hfault => ?_⟩
  have hcode : codeSetsFault e = true := by rw [codeSetsFault_eq]; exact decide_eq_true hfault
  simp [Status.complete, hcode]

/-- Every command keeps the invariant. -/
theorem exec_keeps_inv {i : Instr} {s t : State} (h : s.Inv) (hx : exec i s = .next t) : t.Inv := by
  obtain ⟨hslots, hwf, _⟩ := h
  have hslots' := exec_slots hx hslots
  obtain ⟨u, e, rfl, hf, he⟩ := exec_next hx
  exact inv_of_complete hf hwf hslots' he

/-- The engine's turn keeps the invariant, with a command pending, an ill-formed word, or none. -/
theorem engineTurn_keeps_inv {s t : State} (h : s.Inv) (ht : engineTurn s = .next t) : t.Inv := by
  rcases engineTurn_cases ht with ⟨_, hnext⟩ | ⟨_, i, _, hx⟩ | ⟨_, r, _, hnext⟩
  · cases hnext; exact h
  · exact exec_keeps_inv h hx
  · cases hnext
    obtain ⟨hslots, hwf, _⟩ := h
    exact inv_of_complete (.refl s) hwf hslots (by decide)

/-- A host turn that is no reset keeps the invariant. -/
theorem HostStep.keeps_inv {s t : State} (hs : HostStep s t) (h : s.Inv) : t.Inv := by
  obtain ⟨hslots, hwf, hraced, herr, hfault⟩ := h
  refine ⟨fun a => ?_, hs.wf hwf, hs.raced hraced, ?_, ?_⟩
  · rw [State.slot_eq_of_slots_eq a hs.slots]; exact hslots a
  · rw [hs.err]; exact herr
  · rw [hs.err, hs.fault]; exact hfault

/-! ### Reset (R290 to R292) -/

section
variable (s : State)

/-- What a reset turn starts from: the pending command, if there is one, is abandoned (R292). -/
def State.abandonPending : State := if s.status.busy then s.abandon else s

@[simp] theorem State.deviceReset_port : s.deviceReset.port = s.abandonPending.port := rfl
@[simp] theorem State.deviceReset_allocLog : s.deviceReset.allocLog = s.abandonPending.allocLog := rfl
@[simp] theorem State.deviceReset_allocAnswers :
    s.deviceReset.allocAnswers = s.abandonPending.allocAnswers := rfl
@[simp] theorem State.deviceReset_agenda : s.deviceReset.agenda = s.abandonPending.agenda := rfl

variable {s}

theorem State.abandonPending_of_idle (h : s.status.busy = false) : s.abandonPending = s := by
  simp [State.abandonPending, h]

theorem State.abandonPending_of_busy (h : s.status.busy = true) : s.abandonPending = s.abandon := by
  simp [State.abandonPending, h]

end

/-- A reset leaves a machine that meets the invariant. -/
theorem State.Inv.deviceReset {s : State} (h : s.Inv) : s.deviceReset.Inv := by
  have hwf : s.port.mem.wf = true := h.2.1
  obtain ⟨_, hstatus, _, _, _, hinvalid⟩ := deviceReset_regs s
  have hport : s.abandonPending.port.raced = [] ∧ s.abandonPending.port.mem.wf = true := by
    cases hb : s.status.busy with
    | false => rw [State.abandonPending_of_idle hb]; exact ⟨h.raced_eq_nil hb, hwf⟩
    | true =>
      obtain ⟨_, hraced, hmem⟩ := abandon_spec s
      rw [State.abandonPending_of_busy hb]; exact ⟨hraced, hmem hwf⟩
  refine ⟨fun a => ok_of_invalid (hinvalid a), hport.2, ?_, ?_, ?_⟩
  · simp [hport.1]
  · rw [hstatus]; exact .inl (by decide)
  · rw [hstatus]; decide

/-- Settles O19: by the three kinds of turn a step can take, the engine's, a reset, another host turn. -/
theorem everyStepKeepsTheInvariant : Obligations.EveryStepKeepsTheInvariant := by
  intro s t h hs
  rcases step_cases hs with ⟨_, hengine⟩ | ⟨_, rfl⟩ | ⟨_, _, hhost⟩
  · exact engineTurn_keeps_inv h.afterTurn hengine
  · exact h.afterTurn.deviceReset
  · exact hhost.keeps_inv h

/-- Settles O16: the values of `State.reset`, six ARG and three RES registers and sixteen slots, evaluated. -/
theorem resetValues : Obligations.ResetValues := by
  exact ⟨rfl, by decide, rfl, by decide, by decide, by decide, rfl⟩

/-- Settles O18: no slot is valid, no byte is listed or raced on, and STATUS.ERR is 0. -/
theorem resetMeetsTheInvariant : Obligations.ResetMeetsTheInvariant := by
  obtain ⟨_, _, _, _, _, hinvalid, _⟩ := resetValues
  exact ⟨fun a => ok_of_invalid (hinvalid a), rfl, by simp [State.reset], .inl (by decide), by decide⟩

/-! ### Where a command stores -/

section
variable {s t u : State}

theorem validateEffect_port (h : validateEffect s = .ok u) : u.port = s.port := by
  unfold validateEffect at h
  split at h <;> cases h; rfl

theorem geomEffect_port (h : geomEffect s = .ok u) : u.port = s.port := by
  unfold geomEffect at h
  split at h
  · cases h
  · split at h <;> cases h; rfl

theorem annotateEffect_port {sa : SlotNo} (h : annotateEffect sa s = .ok u) : u.port = s.port := by
  unfold annotateEffect at h
  split at h <;> cases h; rfl

theorem destroyEffect_port {sa : SlotNo} (h : destroyEffect sa s = .ok u) : u.port = s.port := by
  unfold destroyEffect at h
  split at h <;> cases h; simp

theorem setmaskEffect_port {sa : SlotNo} (h : setmaskEffect sa s = .ok u) : u.port = s.port := by
  unfold setmaskEffect at h
  split at h <;> cases h; rfl

theorem queryEffect_port {sa : SlotNo} (h : queryEffect sa s = .ok u) : u.port = s.port := by
  unfold queryEffect at h
  split at h
  · cases h
  · split at h <;> cases h; rfl

theorem pixaddrEffect_port {sa : SlotNo} (h : pixaddrEffect sa s = .ok u) : u.port = s.port := by
  unfold pixaddrEffect at h
  split at h
  · cases h
  · split at h
    · split at h <;> cases h; rfl
    · cases h

theorem permlookupEffect_port (h : permlookupEffect s = .ok u) : u.port = s.port := by
  unfold permlookupEffect at h
  dsimp only at h
  split at h
  · cases h
  · split at h <;> cases h; rfl

theorem bytexformEffect_port (h : bytexformEffect s = .ok u) : u.port = s.port := by
  unfold bytexformEffect at h
  dsimp only at h
  split at h <;> cases h; rfl

/-- A command that ends from a state with the port it started with stores nowhere. -/
theorem complete_stores_nowhere (h : u.port = s.port) (e : BitVec 4) : BytesKeptBut nowhere s (u.complete e) :=
  State.complete_bytes (by rw [h]) (fun _ _ _ => by rw [h]) e

/-- A command whose effect leaves the port alone stores nowhere. -/
theorem conclude_stores_nowhere {r : Except Err State} (hr : ∀ u, r = .ok u → u.port = s.port)
    (h : conclude s r = .next t) : BytesKeptBut nowhere s t := by
  rcases conclude_cases h with ⟨e, _, rfl⟩ | ⟨u, hu, rfl⟩
  · exact complete_stores_nowhere rfl _
  · exact complete_stores_nowhere (hr u hu) _

end

/-- Where a command may store: the buffer of the slot PUTPIXEL or CONVERT names as target, the buffer CREATE has
just allocated, nowhere else (R180, R209, R84). -/
def storesTo (i : Instr) (s t : State) (a : Nat) : Prop :=
  match i with
  | .putpixel sa | .convert sa _ => (s.slot sa).covers a = true
  | .create sa => (t.slot sa).covers a = true ∧ (t.slot sa).own = .ownedAllocation
  | .nop | .validate | .geom | .annotate _ | .destroy _ | .setmask _ | .query _ => False
  | .getpixel _ | .pixaddr _ | .permlookup | .bytexform => False

theorem BytesKeptBut.of_nowhere {W : Nat → Prop} {s t : State} (h : BytesKeptBut nowhere s t) : BytesKeptBut W s t :=
  h.mono fun _ => False.elim

/-- CREATE stores to a fresh allocation only (R84, R299). -/
theorem execCreate_stores {sa : SlotNo} {s t : State} (h : execCreate sa s = .next t) :
    BytesKeptBut (storesTo (.create sa) s t) s t := by
  unfold execCreate at h
  split at h
  · cases h; exact (complete_stores_nowhere rfl _).of_nowhere
  · cases h; exact (complete_stores_nowhere rfl _).of_nowhere
  · next d hplan =>
    cases h
    have hvalid : d.valid = true := by
      obtain ⟨_, f, _, _, ⟨_, he, _⟩ | ⟨he, _⟩⟩ := createPlan_ok hplan <;> cases he
      rfl
    rcases createAllocating_cases sa d s with ⟨w, _, _, ht⟩ | ⟨_, ht⟩ <;> rw [ht]
    · refine State.complete_bytes (s.nextAnswer_frame.raced ▸ by simp) (fun a ha _ => ?_) _
      have hout : a ∉ rangeOf w.toNat d.size := by
        rw [mem_rangeOf]
        intro hin
        exact ha (by simp [storesTo, covers_iff, hvalid, hin])
      simp [Port.scramble_read hout]
    · exact (State.complete_bytes (W := nowhere) s.nextAnswer_frame.raced (fun _ _ _ => by simp) _).of_nowhere

/-- GETPIXEL stores nowhere (R195). -/
theorem execGetpixel_stores {sa : SlotNo} {s t : State} (h : execGetpixel sa s = .next t) :
    BytesKeptBut nowhere s t := by
  unfold execGetpixel at h
  split at h
  · cases h; exact complete_stores_nowhere rfl _
  · dsimp only at h
    split at h <;> cases h
    have hk := fun d x y => extract_keeps nowhere d x y s.port
    exact State.complete_bytes (hk _ _ _).raced (fun a ha _ => (hk _ _ _).other a ha) _

/-- PUTPIXEL stores inside the target's buffer (R189). -/
theorem execPutpixel_stores {sa : SlotNo} {s t : State} (h : execPutpixel sa s = .next t) :
    BytesKeptBut (fun a => (s.slot sa).covers a = true) s t := by
  unfold execPutpixel at h
  split at h
  · cases h; exact (complete_stores_nowhere rfl _).of_nowhere
  · next d htarget =>
    obtain ⟨rfl, hvalid, _, hown, hinside⟩ := pixelTarget_ok.1 htarget
    dsimp only at h
    split at h <;> cases h
    exact put_bytes.mono fun a ha => pixelBytes_covered hvalid hown hinside ha

/-- CONVERT stores inside the destination's buffer (R209, R236). -/
theorem execConvert_stores {sa sb : SlotNo} {s t : State} (hok : ∀ a, (s.slot a).Ok)
    (h : execConvert sa sb s = .next t) : BytesKeptBut (fun a => (s.slot sa).covers a = true) s t := by
  unfold execConvert at h
  split at h
  · cases h; exact (complete_stores_nowhere rfl _).of_nowhere
  · next S D k hplan =>
    obtain ⟨rfl, rfl, rfl, vS, oS, vD, oD, hgeom, hover, hinside⟩ := convertPlan_ok.1 hplan
    obtain ⟨hdepth, hwidth, hheight⟩ := sameGeometry_iff.1 hgeom
    split at h <;> cases h
    exact convert_bytes.mono fun a ha => writes_covered (hok sa) (hok sb)
      ⟨vS, oS, vD, oD, hdepth, hwidth, hheight, buffersOverlap_iff.1 hover⟩ hinside a ha

/-- Every command stores where `storesTo` says and nowhere else. -/
theorem exec_stores {i : Instr} {s t : State} (hok : ∀ a, (s.slot a).Ok) (h : exec i s = .next t) :
    BytesKeptBut (storesTo i s t) s t := by
  cases i with
  | nop => exact (conclude_stores_nowhere (r := .ok s) (fun u hu => by cases hu; rfl) h).of_nowhere
  | validate => exact (conclude_stores_nowhere (fun _ => validateEffect_port) h).of_nowhere
  | geom => exact (conclude_stores_nowhere (fun _ => geomEffect_port) h).of_nowhere
  | create sa => exact execCreate_stores h
  | annotate sa => exact (conclude_stores_nowhere (fun _ => annotateEffect_port) h).of_nowhere
  | destroy sa => exact (conclude_stores_nowhere (fun _ => destroyEffect_port) h).of_nowhere
  | setmask sa => exact (conclude_stores_nowhere (fun _ => setmaskEffect_port) h).of_nowhere
  | query sa => exact (conclude_stores_nowhere (fun _ => queryEffect_port) h).of_nowhere
  | getpixel sa => exact (execGetpixel_stores h).of_nowhere
  | putpixel sa => exact execPutpixel_stores h
  | pixaddr sa => exact (conclude_stores_nowhere (fun _ => pixaddrEffect_port) h).of_nowhere
  | permlookup => exact (conclude_stores_nowhere (fun _ => permlookupEffect_port) h).of_nowhere
  | bytexform => exact (conclude_stores_nowhere (fun _ => bytexformEffect_port) h).of_nowhere
  | convert sa sb => exact execConvert_stores hok h

/-- Settles O27: a byte that changed and that nobody raced on is one `exec_stores` allows. -/
theorem engineWritesStayInTheNamedBuffer : Obligations.EngineWritesStayInTheNamedBuffer := by
  intro i s t hinv hx a hraced hchanged
  obtain ⟨_, hkept⟩ := exec_stores hinv.1 hx
  have hstored : storesTo i s t a := by
    by_contra hn
    exact hchanged (hkept a hn hraced)
  cases i with
  | putpixel sa => exact .inl ⟨sa, .inl rfl, hstored⟩
  | convert sa sb => exact .inl ⟨sa, .inr ⟨sb, rfl⟩, hstored⟩
  | create sa => exact .inr ⟨sa, rfl, hstored⟩
  | _ => exact hstored.elim

/-! ### The ARG registers (R33) -/

/-- No command writes CTRL, CMD, an ARG register, the agenda or what the host last read. -/
theorem exec_hostSideKept {i : Instr} {s t : State} (h : exec i s = .next t) : HostSideKept s t := by
  obtain ⟨u, e, rfl, hf, _⟩ := exec_next h
  exact State.complete_hostSide hf e

/-- Settles O8: the window resolves the offset to ARGi, and no command writes it. -/
theorem argRegistersBelongToTheHost : Obligations.ArgRegistersBelongToTheHost := by
  refine ⟨fun s i v rest h => ⟨fun hidle => ?_, fun hbusy => ?_⟩, fun s i rest h => ?_, fun i s t hx => ?_⟩
  · refine ⟨({ s with agenda := rest } : State).setArg i v, ?_, rfl, fun j => ?_⟩
    · rw [step_regWrite h (regAtOffset_arg i)]; simp [writeReg, hidle]
    · rw [State.arg_setArg]; simp only [eq_comm]; rfl
  · rw [step_regWrite h (regAtOffset_arg i)]; simp [writeReg, hbusy, Status.collide]
  · rw [step_regRead h (regAtOffset_arg i)]; rfl
  · obtain ⟨_, _, hargs, _⟩ := exec_hostSideKept hx
    exact hargs

/-! ### The in-flight set (R92) -/

/-- The bytes a pending GETPIXEL or PUTPIXEL has in flight are those of an accessible pixel (R92, log 10). -/
theorem mem_pendingPixelBytes {s : State} {sa : SlotNo} {a : Nat} (hok : (s.slot sa).Ok) :
    a ∈ pendingPixelBytes sa s ↔ accessible (s.slot sa) (s.arg 0).toNat (s.arg 1).toNat ∧
      isPixelByte (s.slot sa) (s.arg 0).toNat (s.arg 1).toNat a := by
  unfold pendingPixelBytes
  split
  · next d htarget =>
    obtain ⟨rfl, hchecks⟩ := pixelTarget_ok.1 htarget
    rw [mem_pixelBytes_iff, accessible_iff hok, and_iff_right hchecks]
  · next e herror =>
    refine ⟨fun ha => (List.not_mem_nil ha).elim, fun ⟨hacc, _⟩ => ?_⟩
    rw [(accessible_target hok hacc).1] at herror
    cases herror

/-- The model's in-flight set is the one R92 gives. -/
theorem inFlightOf_iff {s : State} (hok : ∀ b, (s.slot b).Ok) (i : Instr) (a : Nat) :
    inFlightOf i s a = true ↔ inFlightByRule i s a := by
  cases i with
  | getpixel sa => exact List.contains_iff_mem.trans (mem_pendingPixelBytes (hok sa))
  | putpixel sa => exact List.contains_iff_mem.trans (mem_pendingPixelBytes (hok sa))
  | convert sa sb => simp only [inFlightOf, inFlightByRule, Bool.or_eq_true, covers_iff, inBuffer]
  | _ => exact iff_of_false Bool.false_ne_true id

/-- When a byte is in flight (R92): BUSY is 1 and the pending word decodes to a command that has it in flight. -/
theorem inFlight_iff {s : State} {a : Nat} :
    s.inFlight a = true ↔ s.status.busy = true ∧ ∃ i, decode s.cmd = .ok i ∧ inFlightOf i s a = true := by
  rw [State.inFlight, Bool.and_eq_true]
  refine and_congr_right fun _ => ?_
  split
  · next i hi => simp [hi]
  · next r hr => simp [hr]

/-- Settles O13: the in-flight set by `inFlight_iff`, and outside it a host access is a memory access. -/
theorem hostBytesOutsideTheInFlightSet : Obligations.HostBytesOutsideTheInFlightSet := by
  refine ⟨fun s a hok => ?_, fun s a rest hout => ⟨fun h => ?_, fun v h => ?_⟩⟩
  · simp only [inFlight_iff, inFlightOf_iff hok]
  · rw [step_cons h]
    simp [takeTurn, hostMemRead, inFlight_agenda, hout]
  · refine ⟨{ s with agenda := rest, port := s.port.write a.toNat v }, ?_, rfl, fun b => ?_⟩
    · rw [step_cons h]
      simp [takeTurn, hostMemWrite, inFlight_agenda, hout]
    · simp [Memory.read_write, a.isLt]

/-! ### What an abandoned command leaves (R292) -/

/-- An abandoned CREATE leaves the host's side alone, granted or not (log 11). -/
theorem abandonAlloc_frame (i : Instr) (s : State) : CommandFrame s (abandonAlloc i s) := by
  cases i with
  | create sa =>
    simp only [abandonAlloc]
    split
    · next d _ =>
      have hdraw : CommandFrame s { s with port := s.port.draw.2 } :=
        ⟨rfl, rfl, rfl, rfl, rfl, rfl, by simp, by simp⟩
      split
      · exact hdraw.trans (State.allocate_frame _ d.size)
      · exact hdraw
    · exact .refl s
    · exact .refl s
  | _ => exact .refl s

/-- An abandoned CREATE changes no byte: a leaked allocation keeps what it held (log 11). -/
@[simp] theorem abandonAlloc_mem (i : Instr) (s : State) : (abandonAlloc i s).port.mem = s.port.mem := by
  cases i with
  | create sa =>
    simp only [abandonAlloc]
    split
    · split <;> simp
    · rfl
    · rfl
  | _ => rfl

theorem abandon_agenda (s : State) : s.abandon.agenda = s.agenda := by
  unfold State.abandon
  split
  · exact (abandonAlloc_frame _ _).agenda
  · rfl

/-- A reset with a command pending changes bytes of its in-flight write set and raced bytes only (R292, log 9). -/
theorem abandon_read {s : State} {a : Nat} (hraced : a ∉ s.port.raced)
    (hwrites : ∀ i, decode s.cmd = .ok i → a ∉ inFlightWrites i s) :
    s.abandon.port.mem.read a = s.port.mem.read a := by
  unfold State.abandon
  split
  · next i hi =>
    rw [abandonAlloc_mem, Port.settle_read (by simpa using hraced), Port.scramble_read (hwrites i hi)]
  · exact Port.settle_read hraced

/-- A reset keeps the rest of the agenda. -/
theorem abandonPending_agenda (s : State) : s.abandonPending.agenda = s.agenda := by
  cases hb : s.status.busy with
  | false => rw [State.abandonPending_of_idle hb]
  | true => rw [State.abandonPending_of_busy hb, abandon_agenda]

/-- Settles O17: the registers by `deviceReset_regs`, memory and allocator by what the pending command leaves. -/
theorem resetForgetsTheDevice : Obligations.ResetForgetsTheDevice := by
  intro s hreset
  obtain ⟨hirq, hstatus, hcmd, hargs, hres, hinvalid⟩ := deviceReset_regs (afterTurn s)
  refine ⟨(afterTurn s).deviceReset, step_reset hreset, hirq, by rw [hstatus]; decide, hcmd, fun i => ?_,
    fun i => ?_, hinvalid, (State.deviceReset_agenda _).trans (abandonPending_agenda _), fun hidle => ?_, fun hbusy => ?_⟩
  · simp [State.arg, hargs]
  · simp [hres]
  · rw [AllocatorKept, State.deviceReset_port, State.deviceReset_allocLog, State.deviceReset_allocAnswers,
      State.abandonPending_of_idle (s := afterTurn s) hidle]
    exact ⟨rfl, rfl, rfl⟩
  · rw [State.deviceReset_port, State.deviceReset_allocLog, State.abandonPending_of_busy (s := afterTurn s) hbusy]
    refine ⟨fun a hraced hwrites => abandon_read (s := afterTurn s) hraced hwrites, ?_⟩
    rcases abandon_log (afterTurn s) with hlog | ⟨sa, b, n, hdecode, ⟨_, hmode, _⟩, _, hlog⟩
    · exact .inl hlog
    · exact .inr ⟨sa, b, n, hdecode, hmode, hlog⟩

/-! ### ANNOTATE (R176) -/

/-- ANNOTATE of a slot as R41 says gives back the full plane mask and no other field. -/
theorem annotated_of_ok {d : Slot} (hok : d.Ok) (hv : d.valid = true) :
    d.annotated = { d with planeMask := match d.fmt.family with
      | .planar => BitVec.ofNat 32 (2 ^ d.fmt.depth.toNat - 1)
      | .packed => 0 } := by
  obtain ⟨_, hstride, hsize, _⟩ := hok hv
  have hmask : (annotate d.fmt d.width.toNat d.height.toNat).planeMask = match d.fmt.family with
      | .planar => BitVec.ofNat 32 (2 ^ d.fmt.depth.toNat - 1)
      | .packed => 0 := by
    unfold annotate
    cases d.fmt.family <;> rfl
  simp only [Slot.annotated, ← hstride, ← hsize, hmask]

/-- Settles O38: by `annotated_of_ok`, the mask is the one field ANNOTATE changes in a slot as R41 says. -/
theorem annotateRestoresTheFullMask : Obligations.AnnotateRestoresTheFullMask := by
  intro s a hv hok
  have heffect : annotateEffect a s = .ok (s.setSlot a (s.slot a).annotated) := by
    simp [annotateEffect, State.validSlot_ok.2 ⟨rfl, hv⟩]
  have hexec : exec (.annotate a) s = .next ((s.setSlot a (s.slot a).annotated).complete 0) := by
    change conclude s (annotateEffect a s) = _
    rw [heffect]; rfl
  refine ⟨_, hexec, State.complete_endedWith ((CommandFrame.refl s).setSlot _ _) 0, ⟨?_, fun b hb => ?_⟩, rfl,
    ⟨rfl, rfl⟩, complete_stores_nowhere rfl 0⟩
  · rw [State.complete_slot, State.slot_setSlot_self]; exact annotated_of_ok hok hv
  · rw [State.complete_slot, State.slot_setSlot_other _ _ _ _ hb.symm]

/-! ### The other registers (R31 to R39) -/

/-- Settles O9: ID and CAPS stand at offsets 0x00 and 0x04, and `writeReg` leaves the state at either. -/
theorem idAndCapsAreHardwired : Obligations.IdAndCapsAreHardwired := by
  refine ⟨fun s rest h => ?_, fun s v rest h => ?_, fun s rest h => ⟨capsWord, ?_, by decide⟩, fun s v rest h => ?_⟩
  · rw [step_regRead h (r := .id) rfl]; rfl
  · rw [step_regWrite h (r := .id) rfl]; rfl
  · rw [step_regRead h (r := .caps) rfl]; rfl
  · rw [step_regWrite h (r := .caps) rfl]; rfl

/-- STATUS as the host reads it, bit by bit (R38). -/
theorem Status.word_getLsbD (st : Status) (j : Nat) : st.word.getLsbD j =
    if j < 1 then st.busy else if j < 2 then st.done else if j < 3 then st.collision else if j < 4 then st.fault
    else if j < 8 then st.err.getLsbD (j - 4) else st.lastOp.getLsbD (j - 8) := by
  change BitVec.getLsbD (w := 16 + 8 + 4 + 1 + 1 + 1 + 1) ((0 : BitVec 16) ++ st.lastOp ++ st.err
    ++ BitVec.ofBool st.fault ++ BitVec.ofBool st.collision ++ BitVec.ofBool st.done ++ BitVec.ofBool st.busy) j = _
  simp only [BitVec.getLsbD_append, BitVec.getLsbD_ofBool]
  rcases j with _ | _ | _ | _ | j
  · simp
  · simp
  · simp
  · simp
  · have h3 : ¬ j + 1 + 1 + 1 + 1 < 3 := by omega
    have h4 : ¬ j + 1 + 1 + 1 + 1 < 4 := by omega
    have h8 : j + 1 + 1 + 1 + 1 < 8 ↔ j < 4 := by omega
    by_cases herr : j < 4
    · simp [h3, h4, h8, herr]
    · by_cases hop : j - 4 < 8
      · simp [h3, h4, h8, herr, hop]
      · simp [h3, h4, h8, herr, BitVec.getLsbD_of_ge st.lastOp (j - 4) (by omega)]

/-- STATUS as the host reads it, field by field (R38). -/
theorem Status.word_fields (st : Status) :
    st.word.getLsbD 0 = st.busy ∧ st.word.getLsbD 1 = st.done ∧ st.word.getLsbD 2 = st.collision ∧
      st.word.getLsbD 3 = st.fault ∧ st.word.extractLsb' 4 4 = st.err ∧ st.word.extractLsb' 8 8 = st.lastOp ∧
      st.word.extractLsb' 16 16 = 0 := by
  have high : ∀ j, 4 ≤ j →
      st.word.getLsbD j = if j < 8 then st.err.getLsbD (j - 4) else st.lastOp.getLsbD (j - 8) := by
    intro j hj
    rw [Status.word_getLsbD, if_neg (by omega), if_neg (by omega), if_neg (by omega), if_neg (by omega)]
  refine ⟨st.word_getLsbD 0, st.word_getLsbD 1, st.word_getLsbD 2, st.word_getLsbD 3,
    BitVec.eq_of_getLsbD_eq fun i hi => ?_, BitVec.eq_of_getLsbD_eq fun i hi => ?_,
    BitVec.eq_of_getLsbD_eq fun i hi => ?_⟩
  · rw [BitVec.getLsbD_extractLsb', high _ (by omega), if_pos (by omega), Nat.add_sub_cancel_left]; simp [hi]
  · rw [BitVec.getLsbD_extractLsb', high _ (by omega), if_neg (by omega), Nat.add_sub_cancel_left]; simp [hi]
  · rw [BitVec.getLsbD_extractLsb', high _ (by omega), if_neg (by omega), BitVec.getLsbD_of_ge _ _ (by omega)]; simp

/-- Settles O10: the read returns `Status.word`, whose fields `Status.word_fields` gives. -/
theorem statusReadsAndClears : Obligations.StatusReadsAndClears := by
  refine ⟨fun s rest h => ⟨s.status.word, ?_, s.status.word_fields⟩, fun s v rest h => ?_⟩
  · rw [step_regRead h (r := .status) rfl]; rfl
  · rw [step_regWrite h (r := .status) rfl]; rfl

/-- Drawing a word touches the draws alone. -/
theorem Port.drawWord_eq (p : Port) :
    p.drawWord.2 = { p with draws := p.drawWord.2.draws, drawn := p.drawWord.2.drawn } := by
  have hmem := Port.drawWord_mem p
  have hraced := Port.drawWord_raced p
  rw [← hmem, ← hraced]

/-- A drawn word whose four bytes the environment has fixed, the low byte first (log 3). -/
theorem Port.drawWord_of_draws {p : Port} {v : Word} {more : List Byte}
    (h : p.draws = v.extractLsb' 0 8 :: v.extractLsb' 8 8 :: v.extractLsb' 16 8 :: v.extractLsb' 24 8 :: more) :
    p.drawWord = (v, { p with draws := more }) := by
  simp only [Port.drawWord, Port.draw, h, word_of_bytes]

/-- CTRL reads IRQ_EN in bit 0 (R37). -/
theorem ctrlWord_eq (b : Bool) : ctrlWord b = if b then 1 else 0 := by cases b <;> rfl

/-- Settles O11: register by register; RES while BUSY is 1 is the one read that draws. -/
theorem otherRegisterAccesses : Obligations.OtherRegisterAccesses := by
  intro s rest
  refine ⟨fun h => ?_, fun h => ?_, fun i h => ⟨fun hidle => ?_, fun hbusy => ⟨?_, fun v more hdraws => ?_⟩⟩,
    fun a ha h => ?_, fun a v ha h => ?_, fun v hv h => ?_⟩
  · rw [step_regRead h (r := .ctrl) rfl, ← ctrlWord_eq]; rfl
  · rw [step_regRead h (r := .cmd) rfl]; rfl
  · rw [step_regRead h (regAtOffset_res i)]; simp [readReg, hidle]
  · refine ⟨_, step_regRead h (regAtOffset_res i), ?_⟩
    simp only [readReg, hbusy, if_true]
    rw [Port.drawWord_eq]
  · rw [step_regRead h (regAtOffset_res i)]
    simp [readReg, hbusy, Port.drawWord_of_draws hdraws]
  · have hreg : regAtOffset a 4 = some .reserved := by rcases ha with rfl | rfl <;> rfl
    rw [step_regRead h hreg]; rfl
  · rcases ha with rfl | rfl | rfl | rfl | rfl <;> rw [step_regWrite h rfl] <;> rfl
  · rw [step_regWrite h (r := .ctrl) rfl]; simp only [writeReg, hv]; rfl

/-- The addresses of the window's aligned words (R31, R75). -/
theorem window_iff {base addr bytes : Nat} :
    (∃ offset, addr = base + offset ∧ bytes = 4 ∧ offset % 4 = 0 ∧ offset < 64) ↔
      ∃ r, regAt base addr bytes = some r := by
  rw [regAt_some]
  constructor
  · rintro ⟨offset, rfl, hbytes, halign, hlt⟩; omega
  · rintro ⟨hbytes, hle, halign, hlt⟩; exact ⟨addr - base, by omega, hbytes, halign, by omega⟩

/-- A host register access completes where a register stands and is refused elsewhere (R75). -/
theorem step_regAccess {s : State} {addr bytes : Nat} {v : Word} {rest : List Turn}
    (h : s.agenda = .regRead addr bytes :: rest ∨ s.agenda = .regWrite addr bytes v :: rest) :
    ((∃ r, regAt Config.regBase addr bytes = some r) → ∃ t, step s = .next t) ∧
    ((¬ ∃ r, regAt Config.regBase addr bytes = some r) → step s = .refused .nonWordAccess) := by
  cases hreg : regAt Config.regBase addr bytes with
  | none => rcases h with h | h <;> simp [step_cons h, takeTurn, hostRegRead, hostRegWrite, hreg]
  | some r => rcases h with h | h <;> simp [step_cons h, takeTurn, hostRegRead, hostRegWrite, hreg]

/-- Settles O12: an access has a next state exactly where `regAt` finds a register. -/
theorem onlyWordAccessesHaveMeaning : Obligations.OnlyWordAccessesHaveMeaning := by
  intro s addr bytes v rest h
  rw [window_iff]
  exact step_regAccess h

/-! ### Invalid slots (R44, R268) -/

section
variable {s : State} {a : SlotNo} (h : (s.slot a).valid = false)
include h

theorem validSlot_of_invalid : s.validSlot a = .error .contractViolation := State.validSlot_error.2 ⟨rfl, h⟩

theorem annotateEffect_of_invalid : annotateEffect a s = .error .contractViolation := by
  simp [annotateEffect, validSlot_of_invalid h]

theorem destroyEffect_of_invalid : destroyEffect a s = .error .contractViolation := by
  simp [destroyEffect, validSlot_of_invalid h]

theorem setmaskEffect_of_invalid : setmaskEffect a s = .error .contractViolation := by
  simp [setmaskEffect, validSlot_of_invalid h]

theorem pixaddrEffect_of_invalid : pixaddrEffect a s = .error .contractViolation := by
  simp [pixaddrEffect, validSlot_of_invalid h]

theorem pixelTarget_of_invalid : pixelTarget a s = .error .contractViolation := by
  simp [pixelTarget, validSlot_of_invalid h]

theorem allocatedSlot_of_invalid : s.allocatedSlot a = .error .contractViolation := by
  simp [State.allocatedSlot, validSlot_of_invalid h]

/-- QUERY with a legal selector comes to the slot check (R179, R266). -/
theorem queryEffect_of_invalid (hsel : (s.arg 0).toNat ≤ 3) : queryEffect a s = .error .contractViolation := by
  have hwords : ∃ r, queryWords (s.slot a) (s.arg 0) = some r := by
    unfold queryWords
    generalize (s.arg 0).toNat = n at hsel
    interval_cases n <;> exact ⟨_, rfl⟩
  obtain ⟨⟨r0, r1, r2⟩, hr⟩ := hwords
  simp [queryEffect, hr, validSlot_of_invalid h]

/-- CONVERT from an invalid slot (R226). -/
theorem convertPlan_of_invalid_source (b : SlotNo) : convertPlan b a s = .error .contractViolation := by
  simp [convertPlan, allocatedSlot_of_invalid h]

/-- CONVERT to an invalid slot: the source's check, which comes first, can only raise the same error (R226). -/
theorem convertPlan_of_invalid_destination (b : SlotNo) : convertPlan a b s = .error .contractViolation := by
  cases hb : s.allocatedSlot b with
  | error e =>
    obtain rfl := State.allocatedSlot_error hb
    simp [convertPlan, hb]
  | ok S => simp [convertPlan, hb, allocatedSlot_of_invalid h]

end

/-- Settles O28: each of the eight commands ends in `raise ContractViolation` at its slot check. -/
theorem invalidSlotIsAContractViolation : Obligations.InvalidSlotIsAContractViolation := by
  intro s a b h i hi
  refine ⟨s.raise .contractViolation, ?_, s.raise_endedInError .contractViolation⟩
  rcases hi with rfl | rfl | rfl | ⟨rfl, hsel⟩ | rfl | rfl | rfl | rfl | rfl
  · simp only [exec, execAnnotate, annotateEffect_of_invalid h, conclude]
  · simp only [exec, execDestroy, destroyEffect_of_invalid h, conclude]
  · simp only [exec, execSetmask, setmaskEffect_of_invalid h, conclude]
  · simp only [exec, execQuery, queryEffect_of_invalid h hsel, conclude]
  · simp only [exec, execGetpixel, pixelTarget_of_invalid h]
  · simp only [exec, execPutpixel, pixelTarget_of_invalid h]
  · simp only [exec, execPixaddr, pixaddrEffect_of_invalid h, conclude]
  · simp only [exec, execConvert, convertPlan_of_invalid_destination h]
  · simp only [exec, execConvert, convertPlan_of_invalid_source h]

end Sys2Proof.Machine

/-! PROOFS. The statements about buffer memory and the allocator port (spec/20_memory.md R81, R84, R85, R92;
spec/42_descriptor.md R174, R177), with the facts they share. -/
namespace Sys2Proof.Machine

/-! ### No turn faults (R81) -/

/-- With slots as R41 to R43 say no turn of the engine faults: no command does, nor an ill-formed word. -/
theorem engineTurn_safe {s : State} (hslots : ∀ a, (s.slot a).Ok) : safeOutcome (engineTurn s) := by
  rcases engineTurn_cases (s := s) rfl with ⟨_, hidle⟩ | ⟨_, i, _, hexec⟩ | ⟨_, _, _, hillegal⟩
  · rw [hidle]; exact trivial
  · obtain ⟨t, hnext⟩ := exec_answers hslots i
    rw [← hexec, hnext]; exact trivial
  · rw [hillegal]; exact trivial

/-- The engine's turn is the one turn that could fault; a host's register access is at worst refused (R75). -/
theorem takeTurn_safe {s : State} (hslots : ∀ a, (s.slot a).Ok) (t : Turn) : safeOutcome (takeTurn t s) := by
  cases t with
  | engine => exact engineTurn_safe hslots
  | regRead addr bytes =>
    simp only [takeTurn, hostRegRead]
    split <;> exact trivial
  | regWrite addr bytes v =>
    simp only [takeTurn, hostRegWrite]
    split <;> exact trivial
  | memRead a => exact trivial
  | memWrite a v => exact trivial
  | hardReset => exact trivial

/-- Settles O20: a step is one turn, and the slots of the invariant are all `takeTurn_safe` asks for. -/
theorem noStepLeavesBufferMemory : Obligations.NoStepLeavesBufferMemory := by
  intro s hinv
  obtain ⟨hslots, _⟩ := hinv.afterTurn
  rw [step_eq]
  exact takeTurn_safe hslots _

/-! ### The allocator record (R84, R85, R292) -/

/-- All the engine's turn can do to the allocator record: what the command it executes does. -/
theorem engineTurn_log {s t : State} (h : engineTurn s = .next t) :
    t.allocLog = s.allocLog ∨ ∃ i, s.status.busy = true ∧ decode s.cmd = .ok i ∧ exec i s = .next t := by
  rcases engineTurn_cases h with ⟨_, hnext⟩ | ⟨hbusy, i, hdecode, hexec⟩ | ⟨_, _, _, hnext⟩
  · cases hnext; exact .inl rfl
  · exact .inr ⟨i, hbusy, hdecode, hexec⟩
  · cases hnext; exact .inl rfl

/-- All a reset can do to the allocator record: a pending CREATE may have been granted its request (R292). -/
theorem deviceReset_log (s : State) :
    s.deviceReset.allocLog = s.allocLog ∨
    ∃ a b n, s.status.busy = true ∧ decode s.cmd = .ok (.create a) ∧ requestsAlloc s a n ∧
      allocatorMayAnswer s b n ∧ s.deviceReset.allocLog = s.allocLog ++ [.alloc b n] := by
  rw [State.deviceReset_allocLog]
  cases hbusy : s.status.busy with
  | false => exact .inl (by rw [State.abandonPending_of_idle hbusy])
  | true =>
    rw [State.abandonPending_of_busy hbusy]
    refine (abandon_log s).imp_right ?_
    rintro ⟨a, b, n, hgranted⟩
    exact ⟨a, b, n, rfl, hgranted⟩

/-- Settles O26: `exec_log` for the engine's turn, `deviceReset_log` for a reset; no other turn touches the record. -/
theorem onlyDestroyFreesAndOnlyCreateAllocates : Obligations.OnlyDestroyFreesAndOnlyCreateAllocates := by
  intro s t hstep
  rcases step_cases hstep with ⟨hdue, hengine⟩ | ⟨hreset, rfl⟩ | ⟨_, _, hhost⟩
  · rcases engineTurn_log hengine with hlog | ⟨i, hbusy, hdecode, hexec⟩
    · exact .inl hlog
    · rcases exec_log hexec with hlog | ⟨a, rfl, hdestroy⟩ | ⟨a, b, n, rfl, hcreate⟩
      · exact .inl hlog
      · exact .inr (.inl ⟨a, ⟨hdue, hbusy, hdecode⟩, hdestroy⟩)
      · exact .inr (.inr ⟨a, b, n, .inl ⟨hdue, hbusy, hdecode⟩, hcreate⟩)
  · rcases deviceReset_log (afterTurn s) with hlog | ⟨a, b, n, hbusy, hdecode, hgranted⟩
    · exact .inl hlog
    · exact .inr (.inr ⟨a, b, n, .inr ⟨hreset, hbusy, hdecode⟩, hgranted⟩)
  · exact .inl hhost.log

/-! ### Races (R92) -/

/-- A draw touches the draws alone (log 3). -/
theorem Port.draw_eq (p : Port) : p.draw.2 = { p with draws := p.draw.2.draws, drawn := p.draw.2.drawn } := by
  unfold Port.draw
  split <;> rfl

/-- A draw the environment has fixed (log 3). -/
theorem Port.draw_of_draws {p : Port} {v : Byte} {more : List Byte} (h : p.draws = v :: more) :
    p.draw = (v, { p with draws := more }) := by
  simp only [Port.draw, h]

/-- The step of a host read of an in-flight byte: a draw. -/
theorem step_memRead_inFlight {s : State} {a : Word} {rest : List Turn} (h : s.agenda = .memRead a :: rest)
    (hin : s.inFlight a.toNat = true) : step s = .next { s with
      agenda := rest, port := s.port.draw.2, hostData := s.port.draw.1.setWidth 32 } := by
  rw [step_cons h]
  simp only [takeTurn, hostMemRead, inFlight_agenda, hin, if_true]

/-- The step of a host write of an in-flight byte: a write and a race. -/
theorem step_memWrite_inFlight {s : State} {a : Word} {v : Byte} {rest : List Turn}
    (h : s.agenda = .memWrite a v :: rest) (hin : s.inFlight a.toNat = true) :
    step s = .next { s with agenda := rest, port := (s.port.write a.toNat v).race a.toNat } := by
  rw [step_cons h]
  simp only [takeTurn, hostMemWrite, inFlight_agenda, hin, if_true]

/-- Settles O14: a host read of an in-flight byte is a draw, a host write of one a write and a race. -/
theorem hostRacesOnInFlightBytes : Obligations.HostRacesOnInFlightBytes := by
  intro s a rest hin
  refine ⟨fun h => ⟨⟨_, step_memRead_inFlight h hin, ?_⟩, fun v more hdraws => ?_⟩,
    fun v h => ⟨_, step_memWrite_inFlight h hin, rfl, ?_, fun b hb => ⟨?_, ?_⟩, ?_⟩⟩
  · simp only [← Port.draw_eq]
  · rw [step_memRead_inFlight h hin, Port.draw_of_draws hdraws]
  · exact Port.mem_race.2 (.inl rfl)
  · exact Memory.read_write_other _ v hb
  · exact Port.mem_race.trans (or_iff_right hb)
  · exact (inFlight_congr rfl rfl rfl rfl _).trans hin

/-! ### CREATE in ALLOC mode (R171, R174) -/

/-- `Alloc(n)` with a lawful answer fixed takes it, uses it up and records the grant (R84, logs 4 and 5). -/
theorem State.allocate_of_answer {s : State} {p : Word} {rest : List (Option Word)} {n : Nat}
    (h : s.allocAnswers = some p :: rest) (hlaw : allocatorMayAnswer s p n) :
    s.allocate n = (some p, { s with allocAnswers := rest, allocLog := s.allocLog ++ [.alloc p n] }) := by
  have hnext : s.nextAnswer = (some p, { s with allocAnswers := rest }) := by simp only [State.nextAnswer, h]
  simp only [State.allocate, hnext, answerLawful_iff.2 hlaw, if_true]

/-- CREATE that comes to the allocator with a lawful answer fixed makes an OwnedAllocation slot at it (R174). -/
theorem createAllocating_of_answer {s : State} {a : SlotNo} {d : Slot} {p : Word} {rest : List (Option Word)}
    (h : s.allocAnswers = some p :: rest) (hlaw : allocatorMayAnswer s p d.size) :
    createAllocating a d s = (((({ s with
      allocAnswers := rest
      allocLog := s.allocLog ++ [.alloc p d.size] } : State).fillFresh p d.size).setSlot a
        { d with own := .ownedAllocation, data := p, base := p }).complete 0) := by
  simp only [createAllocating, State.allocate_of_answer h hlaw, State.finish_eq]

/-- MODE 3 is legal and selects ALLOC: CREATE's checks come to the allocator (R107, R171). -/
theorem createPlan_of_mode_alloc {s : State} {a : SlotNo} {f : Format} (hfmt : decodeFmt (s.arg 0) true = .ok f)
    (haccepted : acceptedTuple f) (hfree : (s.slot a).valid = false) (hmode : s.arg 2 = 3) :
    createPlan a s = .ok (.allocate (newDescriptor f (s.arg 1))) := by
  have hlegal : modeLegal (s.arg 2) = true := by rw [hmode]; decide
  have hcase : modeCase (s.arg 2) = .alloc := by rw [hmode]; decide
  rw [createPlan_resolves hfmt haccepted hfree hlegal, hcase]
  rfl

/-- Settles O36: the plan is to allocate, and `createAllocating_of_answer` says what the answer fixed gives. -/
theorem createAllocates : Obligations.CreateAllocates := by
  intro s a f p rest hfmt haccepted hfree hmode hanswer hlaw
  have hexec : exec (.create a) s = .next (createAllocating a (newDescriptor f (s.arg 1)) s) := by
    change execCreate a s = _
    simp only [execCreate, createPlan_of_mode_alloc hfmt haccepted hfree hmode]
  rw [createAllocating_of_answer hanswer hlaw] at hexec
  have hgranted : CommandFrame s { s with
      allocAnswers := rest, allocLog := s.allocLog ++ [.alloc p (computedSize f (s.arg 1))] } :=
    ⟨rfl, rfl, rfl, rfl, rfl, rfl, rfl, id⟩
  refine ⟨_, hexec, State.complete_endedWith ((hgranted.fillFresh _ _).setSlot _ _) 0, ⟨?_, fun b hb => ?_⟩, rfl, rfl,
    rfl, State.complete_bytes (by simp) (fun k hk _ => ?_) 0⟩
  · rw [State.complete_slot, State.slot_setSlot_self]; rfl
  · rw [State.complete_slot, State.slot_setSlot_other _ _ _ _ hb.symm]; rfl
  · exact Port.scramble_read (by rwa [mem_rangeOf]) s.port

/-! ### DESTROY (R177) -/

/-- DESTROY of an owned buffer requests one `Free`, of its base (R85). -/
theorem State.release_log_of_owned (s : State) {d : Slot} (h : d.own = .ownedAllocation) :
    (s.release d).allocLog = s.allocLog ++ [.free d.base] := by
  simp only [State.release, h, State.free]

/-- DESTROY of a buffer the slot does not own requests nothing (R180). -/
theorem State.release_log_of_not_owned (s : State) {d : Slot} (h : d.own ≠ .ownedAllocation) :
    (s.release d).allocLog = s.allocLog := by
  unfold State.release
  split
  · next howned => exact absurd howned h
  · rfl
  · rfl

/-- Settles O39: DESTROY's effect is `release` and an invalid slot, and `release` touches the record alone. -/
theorem destroyReleasesTheSlot : Obligations.DestroyReleasesTheSlot := by
  intro s a hv
  have hexec : exec (.destroy a) s =
      .next (((s.release (s.slot a)).setSlot a { s.slot a with valid := false }).complete 0) := by
    change conclude s (destroyEffect a s) = _
    simp only [destroyEffect, State.validSlot_ok.2 ⟨rfl, hv⟩, conclude, State.finish_eq]
  have hframe := (CommandFrame.refl s).release (s.slot a)
  refine ⟨_, hexec, State.complete_endedWith (hframe.setSlot _ _) 0, by simp, fun b hb => ?_, by simp, by simp,
    s.release_log_of_owned, s.release_log_of_not_owned, complete_stores_nowhere (by simp) 0⟩
  rw [State.complete_slot, State.slot_setSlot_other _ _ _ _ hb.symm]
  exact State.slot_eq_of_slots_eq b (s.release_slots _)

end Sys2Proof.Machine

/-! PROOFS. The statements about the command word and the operand words (spec/30_encoding.md; R141, R158, R266),
with the facts they share. -/
namespace Sys2Proof.Machine

/-! ### The command word (R102, R103, R111) -/

/-- The fields of `w` are those of command `i`: bits 31:16 zero, and OP, SA and SB as its row of R111 has them. -/
def hasFieldsOf (i : Instr) (w : Word) : Prop :=
  wordReserved w = 0 ∧ wordOp w = i.opcode ∧ wordSA w = i.slotA ∧ wordSB w = i.slotB

/-- A word is its four fields, so a command's word is the only word with that command's fields (R102). -/
theorem encode_eq_iff {i : Instr} {w : Word} : encode i = w ↔ hasFieldsOf i w := by
  have hw := w.isLt
  have hop := i.opcode.isLt
  have hsa := i.slotA.isLt
  have hsb := i.slotB.isLt
  have hzero : (0 : BitVec 16).toNat = 0 := rfl
  simp only [hasFieldsOf, ← BitVec.toNat_inj, encode_toNat, wordReserved_toNat, wordOp_toNat, wordSA_toNat,
    wordSB_toNat, hzero]
  omega

section
variable {w : Word} {i : Instr} (hres : wordReserved w = 0)
include hres

/-- A row without slot fields accepts a word only if both slot fields are zero, as the command's are (R103). -/
theorem hasFieldsOf_of_decodePlain {j : Instr} (h : decodePlain w j = .ok i)
    (hop : (wordOp w).toNat = j.opcode.toNat) (hA : j.slotA = 0 := by rfl) (hB : j.slotB = 0 := by rfl) :
    hasFieldsOf i w := by
  obtain ⟨rfl, hsa, hsb⟩ := decodePlain_ok h
  exact ⟨hres, BitVec.eq_of_toNat_eq hop, hsa.trans hA.symm, hsb.trans hB.symm⟩

/-- A row with SA only accepts a word only if SB is zero, and its command names SA (R103). -/
theorem hasFieldsOf_of_decodeSA {mk : SlotNo → Instr} (h : decodeSA w mk = .ok i)
    (hop : (wordOp w).toNat = (mk (wordSA w)).opcode.toNat) (hA : (mk (wordSA w)).slotA = wordSA w := by rfl)
    (hB : (mk (wordSA w)).slotB = 0 := by rfl) : hasFieldsOf i w := by
  obtain ⟨rfl, hsb⟩ := decodeSA_ok h
  exact ⟨hres, BitVec.eq_of_toNat_eq hop, hA.symm, hsb.trans hB.symm⟩

end

/-- The decoder reads a command only from a word with its fields: one case for each row of R111. -/
theorem hasFieldsOf_of_decode {w : Word} {i : Instr} (h : decode w = .ok i) : hasFieldsOf i w := by
  unfold decode at h
  split at h
  · cases h
  next hne =>
  have hres : wordReserved w = 0 := not_not.1 hne
  split at h
  case h_1 hn | h_2 hn | h_3 hn | h_12 hn | h_13 hn => exact hasFieldsOf_of_decodePlain hres h hn
  case h_4 hn | h_5 hn | h_6 hn | h_7 hn | h_8 hn | h_9 hn | h_10 hn | h_11 hn =>
    exact hasFieldsOf_of_decodeSA hres h hn
  case h_14 hn => cases h; exact ⟨hres, BitVec.eq_of_toNat_eq hn, rfl, rfl⟩
  case h_15 => cases h

/-- From a word with a command's fields the decoder reads that command. -/
theorem decode_of_hasFieldsOf {w : Word} {i : Instr} (h : hasFieldsOf i w) : decode w = .ok i := by
  obtain ⟨hres, hop, hsa, hsb⟩ := h
  cases i <;>
    simp only [Instr.opcode, Instr.slotA, Instr.slotB] at hop hsa hsb <;>
    simp [decode, decodePlain, decodeSA, hres, hop, hsa, hsb]

/-- Settles O2: both sides say that the word has the command's fields. -/
theorem decodeReadsExactlyTheEncoding : Obligations.DecodeReadsExactlyTheEncoding := fun _ _ =>
  ⟨fun h => encode_eq_iff.2 (hasFieldsOf_of_decode h), fun h => decode_of_hasFieldsOf (encode_eq_iff.1 h)⟩

/-- Settles O1. -/
theorem specWordsDecode : Obligations.SpecWordsDecode := by
  unfold Obligations.SpecWordsDecode
  decide

/-! ### Well-formed words (R103) -/

/-- Every command's word is well formed: one lemma for each constructor. -/
theorem wellFormedWord_encode (i : Instr) : wellFormedWord (encode i) = true := by
  cases i with
  | nop => exact Laws.EncodesWellFormed.nop
  | validate => exact Laws.EncodesWellFormed.validate
  | geom => exact Laws.EncodesWellFormed.geom
  | create a => exact Laws.EncodesWellFormed.create a
  | annotate a => exact Laws.EncodesWellFormed.annotate a
  | destroy a => exact Laws.EncodesWellFormed.destroy a
  | setmask a => exact Laws.EncodesWellFormed.setmask a
  | query a => exact Laws.EncodesWellFormed.query a
  | getpixel a => exact Laws.EncodesWellFormed.getpixel a
  | putpixel a => exact Laws.EncodesWellFormed.putpixel a
  | pixaddr a => exact Laws.EncodesWellFormed.pixaddr a
  | permlookup => exact Laws.EncodesWellFormed.permlookup
  | bytexform => exact Laws.EncodesWellFormed.bytexform
  | convert a b => exact Laws.EncodesWellFormed.convert a b

/-- R103 over the fields of the word (R102). -/
theorem wellFormedWord_iff {w : Word} : wellFormedWord w = true ↔
    wordReserved w = 0 ∧ (wordOp w).toNat < 14 ∧ (wordSA w = 0 ∨ opUsesSA (wordOp w).toNat = true) ∧
      (wordSB w = 0 ∨ opUsesSB (wordOp w).toNat = true) := by
  have hzero : ∀ n, (0 : BitVec n).toNat = 0 := fun _ => BitVec.toNat_zero
  simp only [wellFormedWord, Bool.and_eq_true, Bool.or_eq_true, decide_eq_true_eq, beq_iff_eq, ← BitVec.toNat_inj,
    wordReserved_toNat, wordOp_toNat, wordSA_toNat, wordSB_toNat, hzero]
  tauto

/-- R111 has a row for each opcode below 14, whose command takes every slot number its row uses. -/
theorem exists_instr {op : Nat} {sa sb : SlotNo} (hop : op < 14) (hsa : sa = 0 ∨ opUsesSA op = true)
    (hsb : sb = 0 ∨ opUsesSB op = true) : ∃ i : Instr, i.opcode.toNat = op ∧ i.slotA = sa ∧ i.slotB = sb := by
  have unused : ∀ {s : SlotNo} {u : Bool}, u = false → s = 0 ∨ u = true → (0 : SlotNo) = s := by
    rintro s u rfl (rfl | h)
    · rfl
    · cases h
  interval_cases op
  · exact ⟨.nop, rfl, unused rfl hsa, unused rfl hsb⟩
  · exact ⟨.validate, rfl, unused rfl hsa, unused rfl hsb⟩
  · exact ⟨.geom, rfl, unused rfl hsa, unused rfl hsb⟩
  · exact ⟨.create sa, rfl, rfl, unused rfl hsb⟩
  · exact ⟨.annotate sa, rfl, rfl, unused rfl hsb⟩
  · exact ⟨.destroy sa, rfl, rfl, unused rfl hsb⟩
  · exact ⟨.setmask sa, rfl, rfl, unused rfl hsb⟩
  · exact ⟨.query sa, rfl, rfl, unused rfl hsb⟩
  · exact ⟨.getpixel sa, rfl, rfl, unused rfl hsb⟩
  · exact ⟨.putpixel sa, rfl, rfl, unused rfl hsb⟩
  · exact ⟨.pixaddr sa, rfl, rfl, unused rfl hsb⟩
  · exact ⟨.permlookup, rfl, unused rfl hsa, unused rfl hsb⟩
  · exact ⟨.bytexform, rfl, unused rfl hsa, unused rfl hsb⟩
  · exact ⟨.convert sa sb, rfl, rfl, rfl⟩

/-- The decoder accepts exactly R103's well-formed words. -/
theorem decodes_iff_wellFormed (w : Word) : (∃ i, decode w = .ok i) ↔ wellFormedWord w = true := by
  constructor
  · rintro ⟨i, h⟩
    rw [← encode_eq_iff.2 (hasFieldsOf_of_decode h)]
    exact wellFormedWord_encode i
  · intro h
    obtain ⟨hres, hop, hsa, hsb⟩ := wellFormedWord_iff.1 h
    obtain ⟨i, iop, iA, iB⟩ := exists_instr hop hsa hsb
    exact ⟨i, decode_of_hasFieldsOf ⟨hres, BitVec.eq_of_toNat_eq iop.symm, iA.symm, iB.symm⟩⟩

/-! ### The engine's turn (R141) -/

/-- With a command pending the engine runs it. -/
theorem engineTurn_of_decode {s : State} {i : Instr} (hb : s.status.busy = true) (hd : decode s.cmd = .ok i) :
    engineTurn s = exec i s := by
  simp only [engineTurn, hb, if_true, hd]

/-- With no command pending the engine has no enabled step. -/
theorem engineTurn_of_idle {s : State} (hb : s.status.busy = false) : engineTurn s = .next s := by
  simp [engineTurn, hb]

/-- A pending word that no command is decoded from is an illegal command (R103). -/
theorem engineTurn_of_illFormed {s : State} (hb : s.status.busy = true) (hw : wellFormedWord s.cmd = false) :
    engineTurn s = .next (s.raise .illegalCommand) := by
  cases hd : decode s.cmd with
  | ok i =>
    have hwell := (decodes_iff_wellFormed s.cmd).1 ⟨i, hd⟩
    rw [hw] at hwell
    cases hwell
  | error r => simp only [engineTurn, hb, if_true, hd]

/-- Settles O3: the engine's turn on an ill-formed word is `raise IllegalCommand`. -/
theorem onlyWellFormedWordsAreCommands : Obligations.OnlyWellFormedWordsAreCommands :=
  ⟨decodes_iff_wellFormed, fun s hdue hb hw =>
    ⟨(afterTurn s).raise .illegalCommand, (step_engine hdue).trans (engineTurn_of_illFormed hb hw),
      State.raise_endedInError _ _⟩⟩

/-- Settles O6. -/
theorem stepRunsTheDecodedCommand : Obligations.StepRunsTheDecodedCommand :=
  ⟨fun _ _ hdue hb hd => (step_engine hdue).trans (engineTurn_of_decode hb hd),
    fun _ hdue hb => (step_engine hdue).trans (engineTurn_of_idle hb)⟩

/-! ### The FMT word (R105, R153, R158) -/

/-- The reserved bits of an FMT word are 23:22 and 31:30 (R105). -/
theorem fmtReserved_iff {w : Word} :
    fmtReserved w = true ↔ w.extractLsb' 22 2 ≠ 0 ∨ w.extractLsb' 30 2 ≠ 0 := by
  simp only [fmtReserved, Bool.or_eq_true, bne_iff_ne]

section
variable {w : Word} {dflt : Bool}

/-- A reserved bit is found before anything else (R158). -/
theorem decodeFmt_of_reserved (h : fmtReserved w = true) : decodeFmt w dflt = .error .illegalCommand := by
  simp only [decodeFmt, h, if_true]

/-- FAMILY 2 and 3 name no family (R105, R158). -/
theorem decodeFmt_of_no_family (h : fmtReserved w = false) (hf : 2 ≤ (w.extractLsb' 14 2).toNat) :
    decodeFmt w dflt = .error .unsupportedFormat := by
  have hge : w.extractLsb' 14 2 ≥ 2 := BitVec.le_def.2 hf
  simp only [decodeFmt, h, hge, if_true, Bool.false_eq_true, if_false]

end

/-- The family FAMILY codes 0 and 1 stand for (R105). -/
def familyOfCode (c : BitVec 2) : Family := if c = 0 then .planar else .packed

/-- The tuple an accepted FMT word stands for (R105), its unit the default where it applies and UNIT is 0 (R153). -/
def fmtTuple (w : Word) (dflt : Bool) : Format where
  family := familyOfCode (w.extractLsb' 14 2)
  depth := w.extractLsb' 0 6
  bpp := w.extractLsb' 8 6
  unit := if dflt && w.extractLsb' 16 6 == 0 then
      BitVec.ofNat 6 (defaultUnit (familyOfCode (w.extractLsb' 14 2)) (w.extractLsb' 8 6).toNat)
    else w.extractLsb' 16 6
  pad := w.extractLsb' 24 6
  byteOrder := Order.ofBit (w.getLsbD 6)
  bitOrder := Order.ofBit (w.getLsbD 7)

/-- A word with no reserved bit and FAMILY 0 or 1 decodes (R158). -/
theorem decodeFmt_of_family {w : Word} {dflt : Bool} (h : fmtReserved w = false)
    (hf : (w.extractLsb' 14 2).toNat < 2) : decodeFmt w dflt = .ok (fmtTuple w dflt) := by
  have hlt : ¬ w.extractLsb' 14 2 ≥ 2 := fun hge => absurd (BitVec.le_def.1 hge) (Nat.not_le.2 hf)
  simp only [decodeFmt, h, hlt, Bool.false_eq_true, if_false]
  rfl

theorem familyOfCode_eq_planar {c : BitVec 2} : familyOfCode c = .planar ↔ c = 0 := by
  unfold familyOfCode; split <;> simp_all

theorem familyOfCode_eq_packed {c : BitVec 2} (hc : c.toNat < 2) : familyOfCode c = .packed ↔ c = 1 := by
  revert c; decide

theorem Order.ofBit_eq_msbFirst {b : Bool} : Order.ofBit b = .msbFirst ↔ b = true := by
  cases b <;> decide

/-- R153's default unit, by FAMILY and BPP; it fits the 6 bits of a unit. -/
theorem defaultUnit_toNat (c : BitVec 2) (bpp : BitVec 6) :
    (BitVec.ofNat 6 (defaultUnit (familyOfCode c) bpp.toNat)).toNat =
      if c = 0 then 32 else if bpp.toNat = 1 then 32 else if bpp.toNat < 8 then 8 else bpp.toNat := by
  unfold familyOfCode
  by_cases hc : c = 0
  · simp [hc, defaultUnit]
  · simp only [hc, if_false, defaultUnit]
    split
    · rfl
    · split
      · rfl
      · simp

/-- Settles O4: the three cases of `DecodeFMT` and the fields of the tuple in the last of them. -/
theorem fmtWordDecodes : Obligations.FmtWordDecodes := by
  intro w dflt
  refine ⟨fun hres => decodeFmt_of_reserved (fmtReserved_iff.2 hres), fun h22 h30 => ?_⟩
  have hlegal : fmtReserved w = false := by
    rw [Bool.eq_false_iff, ne_eq, fmtReserved_iff]
    exact fun h => h.elim (absurd h22) (absurd h30)
  refine ⟨decodeFmt_of_no_family hlegal, fun hfam => ⟨_, decodeFmt_of_family hlegal hfam, rfl, rfl, rfl, ?_,
    Order.ofBit_eq_msbFirst, Order.ofBit_eq_msbFirst, familyOfCode_eq_planar, familyOfCode_eq_packed hfam⟩⟩
  by_cases hdflt : dflt = true ∧ w.extractLsb' 16 6 = 0
  · simp only [fmtTuple, hdflt, Bool.true_and, beq_self_eq_true, if_true, and_self, defaultUnit_toNat]
  · simp only [fmtTuple, hdflt, if_false, Bool.and_eq_true, beq_iff_eq]

/-! ### The FMT word of a format (R105, R179) -/

/-- A field of the FMT word is read back as it was written. -/
theorem Format.word_extract {f : Format} {k n : Nat} {x : BitVec n}
    (h : ∀ i < n, f.word.getLsbD (k + i) = x.getLsbD i) : f.word.extractLsb' k n = x := by
  apply BitVec.eq_of_getLsbD_eq
  intro i hi
  simp only [BitVec.getLsbD_extractLsb', hi, decide_true, Bool.true_and, h i hi]

section
variable (f : Format)

theorem Format.word_depth : f.word.extractLsb' 0 6 = f.depth :=
  f.word_extract fun i hi => by rw [f.word_getLsbD]; grind

theorem Format.word_bpp : f.word.extractLsb' 8 6 = f.bpp :=
  f.word_extract fun i hi => by rw [f.word_getLsbD]; grind

theorem Format.word_family : f.word.extractLsb' 14 2 = f.family.code :=
  f.word_extract fun i hi => by rw [f.word_getLsbD]; grind

theorem Format.word_unit : f.word.extractLsb' 16 6 = f.unit :=
  f.word_extract fun i hi => by rw [f.word_getLsbD]; grind

theorem Format.word_pad : f.word.extractLsb' 24 6 = f.pad :=
  f.word_extract fun i hi => by rw [f.word_getLsbD]; grind

theorem Format.word_byteOrder : f.word.getLsbD 6 = f.byteOrder.bit := f.word_getLsbD 6

theorem Format.word_bitOrder : f.word.getLsbD 7 = f.bitOrder.bit := f.word_getLsbD 7

/-- The reserved bits are written as zero (R112). -/
theorem Format.word_not_reserved : fmtReserved f.word = false := by
  have h22 : f.word.extractLsb' 22 2 = 0 := f.word_extract fun i hi => by rw [f.word_getLsbD]; grind
  have h30 : f.word.extractLsb' 30 2 = 0 := f.word_extract fun i hi => by
    have hpad : f.pad.getLsbD (30 + i - 24) = false := f.pad.getLsbD_of_ge _ (by omega)
    rw [f.word_getLsbD]; grind
  simp [fmtReserved, h22, h30]

end

theorem Family.code_lt (x : Family) : x.code.toNat < 2 := by cases x <;> decide

@[simp] theorem familyOfCode_code (x : Family) : familyOfCode x.code = x := by cases x <;> rfl

@[simp] theorem Order.ofBit_bit (o : Order) : Order.ofBit o.bit = o := by cases o <;> rfl

/-- Settles O5: each field `fmtTuple` reads is the one `Format.word` wrote. -/
theorem fmtWordRoundTrip : Obligations.FmtWordRoundTrip := by
  intro f
  have hfam : (f.word.extractLsb' 14 2).toNat < 2 := by rw [f.word_family]; exact f.family.code_lt
  have htuple : fmtTuple f.word false = f := by
    simp only [fmtTuple, f.word_depth, f.word_bpp, f.word_family, f.word_unit, f.word_pad, f.word_byteOrder,
      f.word_bitOrder, Bool.false_and, Bool.false_eq_true, if_false, familyOfCode_code, Order.ofBit_bit]
  rw [decodeFmt_of_family f.word_not_reserved hfam, htuple]

/-! ### PERM and XF words (R108, R112) -/

/-- The bits from `k` up are zero exactly in the words below `2^k`. -/
theorem extract_high_eq_zero {w : Word} {k n : Nat} (hkn : k + n = 32) :
    w.extractLsb' k n = 0 ↔ w.toNat < 2 ^ k := by
  have hdiv : w.toNat / 2 ^ k < 2 ^ n :=
    Nat.div_lt_of_lt_mul (by rw [← Nat.pow_add, hkn]; exact w.isLt)
  rw [← BitVec.toNat_inj, BitVec.extractLsb'_toNat, Nat.shiftRight_eq_div_pow, Nat.mod_eq_of_lt hdiv]
  simp [Nat.div_eq_zero_iff]

theorem permReserved_iff {w : Word} : permReserved w = true ↔ 64 ≤ w.toNat := by
  rw [permReserved, bne_iff_ne, ne_eq, extract_high_eq_zero rfl, Nat.not_lt]
  rfl

theorem xfReserved_iff {w : Word} : xfReserved w = true ↔ 1024 ≤ w.toNat := by
  rw [xfReserved, bne_iff_ne, ne_eq, extract_high_eq_zero rfl, Nat.not_lt]
  rfl

/-- Class code 3 is no class (R108). -/
theorem classOfCode_of_three {c : BitVec 2} (h : c.toNat = 3) : classOfCode c = none := by
  simp only [classOfCode, h]

/-- PERMLOOKUP refuses a reserved bit, then class code 3 in either class (R212). -/
theorem permlookupEffect_of_illegal {s : State}
    (h : 64 ≤ (s.arg 0).toNat ∨ (s.arg 0).toNat % 4 = 3 ∨ (s.arg 0).toNat / 4 % 4 = 3) :
    permlookupEffect s = .error .illegalCommand := by
  unfold permlookupEffect
  dsimp only
  split
  · rfl
  next hres =>
  have hclass : classOfCode ((s.arg 0).extractLsb' 0 2) = none ∨ classOfCode ((s.arg 0).extractLsb' 2 2) = none := by
    refine (h.resolve_left (permReserved_iff.not.1 hres)).imp (fun hA => ?_) (fun hB => ?_) <;>
      apply classOfCode_of_three <;> simpa [Nat.shiftRight_eq_div_pow]
  split
  next hA hB => rw [hA, hB] at hclass; simp at hclass
  next => rfl

/-- BYTEXFORM refuses a reserved bit (R213). -/
theorem bytexformEffect_of_illegal {s : State} (h : 1024 ≤ (s.arg 0).toNat) :
    bytexformEffect s = .error .illegalCommand := by
  simp only [bytexformEffect, xfReserved_iff.2 h, if_true]

/-- Settles O52: both commands end in `raise IllegalCommand` at their operand check. -/
theorem illegalPermAndXfWords : Obligations.IllegalPermAndXfWords := by
  intro s
  have ends := s.raise_endedInError .illegalCommand
  refine ⟨fun h => ⟨_, ?_, ends⟩, fun h => ⟨_, ?_, ends⟩⟩
  · simp only [exec, execPermlookup, permlookupEffect_of_illegal h, conclude]
  · simp only [exec, execBytexform, bytexformEffect_of_illegal h, conclude]

/-! ### MODE words (R107) -/

/-- The legal MODE words: DEFER, BORROW, STORAGE, ALLOC, and STORAGE with OWN (R107). -/
theorem modeLegal_of_mem {w : Word} (h : w.toNat ∈ [0, 1, 2, 3, 6]) : modeLegal w = true := by
  obtain ⟨n, hn, rfl⟩ : ∃ n, n ∈ [0, 1, 2, 3, 6] ∧ w = BitVec.ofNat 32 n := ⟨_, h, by simp⟩
  revert n; decide

theorem modeCase_eq_storage {w : Word} : modeCase w = .storage ↔ w.extractLsb' 0 2 = 2 := by
  unfold modeCase
  generalize w.extractLsb' 0 2 = c
  revert c; decide

/-- A reserved bit, or OWN without STORAGE, is no legal MODE (R107, R112). -/
theorem modeLegal_of_illegal {w : Word} (h : 8 ≤ w.toNat ∨ (w.getLsbD 2 = true ∧ w.extractLsb' 0 2 ≠ 2)) :
    modeLegal w = false := by
  rw [Bool.eq_false_iff, ne_eq, modeLegal, Bool.and_eq_true, beq_iff_eq, extract_high_eq_zero rfl, Bool.or_eq_true,
    beq_iff_eq, modeCase_eq_storage, modeOwn, Bool.not_eq_true']
  rintro ⟨hlow, hown⟩
  rcases h with hhigh | ⟨hset, hcase⟩
  · exact absurd hlow (Nat.not_lt.2 hhigh)
  · exact hown.elim (fun hclear => Bool.false_ne_true (hclear.symm.trans hset)) hcase

/-! ### The checks of CREATE (R171, R266) -/

/-- CREATE whose checks raise an error ends in that error and changes nothing else (R144, R263). -/
theorem create_endedInError {s : State} {a : SlotNo} {e : Err} (h : createPlan a s = .error e) :
    ∃ t, exec (.create a) s = .next t ∧ EndedInError e s t := by
  refine ⟨s.raise e, ?_, s.raise_endedInError e⟩
  simp only [exec, execCreate, h]

section
variable {s : State} {a : SlotNo}

theorem createPlan_of_illegal_mode (hm : modeLegal (s.arg 2) = false) :
    createPlan a s = .error .illegalCommand := by
  simp [createPlan, hm]

variable (hm : modeLegal (s.arg 2) = true)
include hm

theorem createPlan_of_fmt_error {e : Err} (hfmt : decodeFmt (s.arg 0) true = .error e) :
    createPlan a s = .error e := by
  simp only [createPlan, hm, if_true, State.fmtArg, hfmt]

variable {f : Format} (hfmt : decodeFmt (s.arg 0) true = .ok f)
include hfmt

theorem createPlan_of_valid_slot (hv : (s.slot a).valid = true) : createPlan a s = .error .contractViolation := by
  simp only [createPlan, hm, if_true, State.fmtArg, hfmt, hv]

theorem createPlan_of_rejected (hv : (s.slot a).valid = false) (hf : ¬ acceptedTuple f) :
    createPlan a s = .error .invalidFormat := by
  have hrej : f.valid = false := by rwa [Bool.eq_false_iff, ne_eq, valid_iff_acceptedTuple]
  simp [createPlan, hm, State.fmtArg, hfmt, hv, hrej]

end

/-- When a buffer is too small: the declared size, or the range past the top of memory (R174). -/
theorem bufferFits_eq_false {declared addr size : Nat} :
    bufferFits declared addr size = false ↔ declared < size ∨ 2 ^ 32 < addr + size := by
  simp only [bufferFits, fitsMemory, Bool.and_eq_false_iff, decide_eq_false_iff_not, Nat.not_le]
  rfl

/-- STORAGE's declared size is too small only if BYTES is not 0 (R174). -/
theorem storageDeclared_lt {bytes : Word} {size : Nat} :
    storageDeclared bytes size < size ↔ bytes ≠ 0 ∧ bytes.toNat < size := by
  unfold storageDeclared
  split <;> simp_all

section
variable {d : Slot} {own : Bool} {data base bytes : Word}

theorem resolveBuffer_borrow_error (h : bytes.toNat < d.size ∨ 2 ^ 32 < data.toNat + d.size) :
    resolveBuffer d .borrow own data base bytes = .error .bufferTooSmall := by
  simp [resolveBuffer, bufferFits_eq_false.2 h]

theorem resolveBuffer_storage_error
    (h : (bytes ≠ 0 ∧ bytes.toNat < d.size) ∨ 2 ^ 32 < base.toNat + d.size) :
    resolveBuffer d .storage own data base bytes = .error .bufferTooSmall := by
  simp [resolveBuffer, bufferFits_eq_false.2 (h.imp_left storageDeclared_lt.2)]

end

/-- `Alloc(n)` with the answer `none` fixed uses it up and leaves no record (R84, logs 4 and 5). -/
theorem State.allocate_of_none {s : State} {rest : List (Option Word)} (h : s.allocAnswers = none :: rest) (n : Nat) :
    s.allocate n = (none, { s with allocAnswers := rest }) := by
  have hnext : s.nextAnswer = (none, { s with allocAnswers := rest }) := by simp only [State.nextAnswer, h]
  simp only [State.allocate, hnext]

/-- CREATE that comes to the allocator with `none` fixed fails and leaves only the answer used up (R84, R174). -/
theorem createAllocating_of_none {s : State} {a : SlotNo} {d : Slot} {rest : List (Option Word)}
    (h : s.allocAnswers = none :: rest) :
    createAllocating a d s = ({ s with allocAnswers := rest } : State).raise .allocationFailure := by
  simp only [createAllocating, State.allocate_of_none h]

section
variable {s : State} {a : SlotNo} {f : Format} (hfmt : decodeFmt (s.arg 0) true = .ok f) (hf : acceptedTuple f)
  (hfree : (s.slot a).valid = false)
include hfmt hf hfree

/-- BORROW and STORAGE with too small a buffer; STORAGE is MODE 2, or 6 with OWN (R107, R174). -/
theorem createPlan_of_too_small (hm : modeLegal (s.arg 2) = true)
    (hsmall : s.arg 2 = 1 ∧ ((s.arg 5).toNat < computedSize f (s.arg 1) ∨
        2 ^ 32 < (s.arg 3).toNat + computedSize f (s.arg 1)) ∨
      (s.arg 2 = 2 ∨ s.arg 2 = 6) ∧ ((s.arg 5 ≠ 0 ∧ (s.arg 5).toNat < computedSize f (s.arg 1)) ∨
        2 ^ 32 < (s.arg 4).toNat + computedSize f (s.arg 1))) :
    createPlan a s = .error .bufferTooSmall := by
  rw [createPlan_resolves hfmt hf hfree hm]
  rcases hsmall with ⟨hmode, hsize⟩ | ⟨hmode, hsize⟩
  · have hcase : modeCase (s.arg 2) = .borrow := by rw [hmode]; decide
    rw [hcase]
    exact resolveBuffer_borrow_error hsize
  · have hcase : modeCase (s.arg 2) = .storage := by rcases hmode with h | h <;> rw [h] <;> decide
    rw [hcase]
    exact resolveBuffer_storage_error hsize

/-- ALLOC with the answer `none` fixed: CREATE fails and, but for that answer, changes nothing (R84, R174). -/
theorem create_of_alloc_none {rest : List (Option Word)} (hmode : s.arg 2 = 3) (hnone : s.allocAnswers = none :: rest) :
    ∃ t, exec (.create a) s = .next t ∧ EndedWith Err.allocationFailure.code s t ∧ t.res = s.res ∧
      t.slots = s.slots ∧ t.allocLog = s.allocLog ∧ BytesKeptBut nowhere s t := by
  have hexec : exec (.create a) s = .next (({ s with allocAnswers := rest } : State).raise .allocationFailure) := by
    simp only [exec, execCreate, createPlan_of_mode_alloc hfmt hf hfree hmode, createAllocating_of_none hnone]
  have hframe : CommandFrame s { s with allocAnswers := rest } := ⟨rfl, rfl, rfl, rfl, rfl, rfl, rfl, id⟩
  exact ⟨_, hexec, State.complete_endedWith hframe _, rfl, rfl, rfl, complete_stores_nowhere rfl _⟩

end

/-- Settles O37: one clause for each check, in the order CREATE makes them. -/
theorem createReportsTheFirstFailingCheck : Obligations.CreateReportsTheFirstFailingCheck := by
  intro s a
  refine ⟨fun h => create_endedInError (createPlan_of_illegal_mode (modeLegal_of_illegal h)), fun hmem => ?_⟩
  have hm := modeLegal_of_mem hmem
  refine ⟨fun e he => create_endedInError (createPlan_of_fmt_error hm he), fun f hfmt =>
    ⟨fun hv => ?_, fun hfree => ?_⟩⟩
  · exact create_endedInError (createPlan_of_valid_slot hm hfmt hv)
  · refine ⟨fun hf => ?_, fun hf => ⟨fun hsmall => ?_, fun hmode ⟨rest, hnone⟩ => ?_⟩⟩
    · exact create_endedInError (createPlan_of_rejected hm hfmt hfree hf)
    · exact create_endedInError (createPlan_of_too_small hfmt hf hfree hm hsmall)
    · exact create_of_alloc_none hfmt hf hfree hmode hnone

end Sys2Proof.Machine

/-! PROOFS. The statements about the command cycle (spec/40_command_cycle.md R140 to R145; R33, R39, R262, R263),
with the facts they share. -/
namespace Sys2Proof.Machine

/-! ### Launch (R140) -/

/-- A CMD write while BUSY is 0 launches (R39, R140). -/
theorem writeReg_cmd_of_idle {s : State} (hidle : s.status.busy = false) (w : Word) :
    writeReg .cmd w s = s.launch w := by
  simp [writeReg, hidle]

/-- A CMD write while BUSY is 1 is dropped and noted in COLLISION (R39). -/
theorem writeReg_cmd_of_busy {s : State} (hbusy : s.status.busy = true) (w : Word) :
    writeReg .cmd w s = { s with status := s.status.collide } := by
  simp [writeReg, hbusy]

/-- Settles O7: offset 0x10 is CMD, and what `writeReg` does there depends on BUSY. -/
theorem cmdWriteLaunches : Obligations.CmdWriteLaunches := by
  intro s w rest h
  refine ⟨fun hidle => ?_, fun hbusy => ?_⟩
  · rw [step_regWrite h (r := .cmd) rfl, writeReg_cmd_of_idle (s := { s with agenda := rest }) hidle]; rfl
  · rw [step_regWrite h (r := .cmd) rfl, writeReg_cmd_of_busy (s := { s with agenda := rest }) hbusy]; rfl

/-! ### NOP (R145) -/

/-- Settles O29: NOP is the completion update of code 0 and nothing before it. -/
theorem nopOnlyCompletes : Obligations.NopOnlyCompletes := fun s =>
  ⟨s.complete 0, rfl, State.complete_endedWith (.refl s) 0, rfl, rfl, ⟨rfl, rfl⟩, complete_stores_nowhere rfl 0⟩

/-! ### Completion of the pending command (R141 to R143) -/

/-- Every command ends in the completion update of the code ERR then holds, and leaves the host's side alone
(R142). -/
theorem exec_endedWith {i : Instr} {s t : State} (h : exec i s = .next t) : EndedWith t.status.err s t := by
  obtain ⟨u, e, rfl, hframe, _⟩ := exec_next h
  exact State.complete_endedWith hframe e

/-- With slots as R41 to R43 say the engine's turn ends the pending command, well formed or not (R141, R143). -/
theorem engineTurn_completes {s : State} (hslots : ∀ a, (s.slot a).Ok) (hbusy : s.status.busy = true) :
    ∃ t, engineTurn s = .next t ∧ EndedWith t.status.err s t := by
  rcases engineTurn_cases (s := s) rfl with ⟨hidle, _⟩ | ⟨_, i, _, hexec⟩ | ⟨_, _, _, hillegal⟩
  · rw [hbusy] at hidle; cases hidle
  · obtain ⟨t, hnext⟩ := exec_answers hslots i
    exact ⟨t, hexec.symm.trans hnext, exec_endedWith hnext⟩
  · exact ⟨_, hillegal, State.complete_endedWith (.refl s) _⟩

/-- Settles O21: the completion update clears BUSY, sets DONE and puts the opcode in LASTOP. -/
theorem pendingCommandCompletes : Obligations.PendingCommandCompletes := by
  intro s hinv hdue hbusy
  obtain ⟨hslots, _⟩ := hinv.afterTurn
  obtain ⟨t, hturn, ⟨_, hlastOp, _, hdone, hnotBusy, _⟩, _⟩ := engineTurn_completes hslots hbusy
  exact ⟨t, (step_engine hdue).trans hturn, hnotBusy, hdone, hlastOp⟩

/-! ### Success or error (R144, R263) -/

/-- The ends of a command that began in `s`: a success from whatever state its effects made, an error raised
before any effect (R144, R263), or ALLOC's error, raised when the allocator has been asked in vain (R174). -/
inductive FinishedOrRaised (s : State) : State → Prop where
  | finished (u : State) : FinishedOrRaised s u.finish
  | raised (e : Err) : FinishedOrRaised s (s.raise e)
  | allocFailed : FinishedOrRaised s (s.nextAnswer.2.raise .allocationFailure)

theorem conclude_finishedOrRaised {s t : State} {r : Except Err State} (h : conclude s r = .next t) :
    FinishedOrRaised s t := by
  rcases conclude_cases h with ⟨e, _, rfl⟩ | ⟨u, _, rfl⟩
  · exact .raised e
  · exact .finished u

/-- CREATE raises before any effect, or at an Alloc that is answered `none` (R174). -/
theorem execCreate_finishedOrRaised {sa : SlotNo} {s t : State} (h : execCreate sa s = .next t) :
    FinishedOrRaised s t := by
  unfold execCreate at h
  split at h <;> cases h
  · exact .raised _
  · exact .finished _
  · next d _ =>
    rcases createAllocating_cases sa d s with ⟨_, _, _, ht⟩ | ⟨_, ht⟩ <;> rw [ht]
    · exact .finished _
    · exact .allocFailed

theorem execGetpixel_finishedOrRaised {sa : SlotNo} {s t : State} (h : execGetpixel sa s = .next t) :
    FinishedOrRaised s t := by
  unfold execGetpixel at h
  split at h
  · cases h; exact .raised _
  · dsimp only at h
    split at h <;> cases h
    exact .finished _

theorem execPutpixel_finishedOrRaised {sa : SlotNo} {s t : State} (h : execPutpixel sa s = .next t) :
    FinishedOrRaised s t := by
  unfold execPutpixel at h
  split at h
  · cases h; exact .raised _
  · dsimp only at h
    split at h <;> cases h
    exact .finished _

theorem execConvert_finishedOrRaised {sa sb : SlotNo} {s t : State} (h : execConvert sa sb s = .next t) :
    FinishedOrRaised s t := by
  unfold execConvert at h
  split at h
  · cases h; exact .raised _
  · split at h <;> cases h
    exact .finished _

/-- Every command succeeds, or raises its error before it has any effect (R144). -/
theorem exec_finishedOrRaised {i : Instr} {s t : State} (h : exec i s = .next t) : FinishedOrRaised s t := by
  cases i with
  | create sa => exact execCreate_finishedOrRaised h
  | getpixel sa => exact execGetpixel_finishedOrRaised h
  | putpixel sa => exact execPutpixel_finishedOrRaised h
  | convert sa sb => exact execConvert_finishedOrRaised h
  | nop => exact conclude_finishedOrRaised (r := .ok s) h
  | validate => exact conclude_finishedOrRaised (r := validateEffect s) h
  | geom => exact conclude_finishedOrRaised (r := geomEffect s) h
  | annotate sa => exact conclude_finishedOrRaised (r := annotateEffect sa s) h
  | destroy sa => exact conclude_finishedOrRaised (r := destroyEffect sa s) h
  | setmask sa => exact conclude_finishedOrRaised (r := setmaskEffect sa s) h
  | query sa => exact conclude_finishedOrRaised (r := queryEffect sa s) h
  | pixaddr sa => exact conclude_finishedOrRaised (r := pixaddrEffect sa s) h
  | permlookup => exact conclude_finishedOrRaised (r := permlookupEffect s) h
  | bytexform => exact conclude_finishedOrRaised (r := bytexformEffect s) h

/-- Settles O23: only a success has effects, and asking the allocator for an answer is none of those named. -/
theorem errorsAreAllOrNothing : Obligations.ErrorsAreAllOrNothing := by
  intro i s t hexec herr
  cases exec_finishedOrRaised hexec with
  | finished u => exact absurd rfl herr
  | raised e => exact ⟨rfl, rfl, rfl, complete_stores_nowhere rfl e.code⟩
  | allocFailed =>
    exact ⟨s.nextAnswer_slots, s.nextAnswer_res, s.nextAnswer_allocLog,
      State.complete_bytes s.nextAnswer_frame.raced (fun _ _ _ => by rw [s.nextAnswer_mem]) _⟩

/-- Settles O22: the completion update by `exec_endedWith`; that RES stays on an error is part of O23. -/
theorem everyCommandEndsInTheCompletionUpdate : Obligations.EveryCommandEndsInTheCompletionUpdate := by
  intro i s t hexec
  refine ⟨exec_endedWith hexec, fun herr => ?_⟩
  obtain ⟨_, hres, _⟩ := errorsAreAllOrNothing i s t hexec herr
  exact hres

end Sys2Proof.Machine

/-! PROOFS. The statements about the format validator and the scanline-stride reindexer (spec/41_validator.md) and
about QUERY (spec/42_descriptor.md R179), with the facts they share. -/
namespace Sys2Proof.Machine

/-! ### Commands that write RES and nothing else -/

/-- The command succeeded and wrote no part of the state but RES. -/
structure WroteOnlyRes (s t : State) : Prop where
  ended : EndedWith 0 s t
  slots : t.slots = s.slots
  allocator : AllocatorKept s t
  bytes : BytesKeptBut nowhere s t

theorem State.complete_wroteOnlyRes (s : State) (r : Vector Word 3) :
    WroteOnlyRes s (({ s with res := r } : State).complete 0) :=
  ⟨State.complete_endedWith ⟨rfl, rfl, rfl, rfl, rfl, rfl, rfl, id⟩ 0, rfl, ⟨rfl, rfl⟩, complete_stores_nowhere rfl 0⟩

/-- `RES[0] <- r0; RES[1] <- r1; RES[2] <- r2`, as GEOM and QUERY have it (R160, R179). -/
def State.putRes (s : State) (r0 r1 r2 : Word) : State := ((s.setRes 0 r0).setRes 1 r1).setRes 2 r2

section
variable (s : State) (r0 r1 r2 : Word)

@[simp] theorem State.putRes_res0 : (s.putRes r0 r1 r2).res[0] = r0 := by simp [State.putRes]

@[simp] theorem State.putRes_res1 : (s.putRes r0 r1 r2).res[1] = r1 := by simp [State.putRes]

@[simp] theorem State.putRes_res2 : (s.putRes r0 r1 r2).res[2] = r2 := by simp [State.putRes]

theorem State.putRes_wroteOnlyRes : WroteOnlyRes s ((s.putRes r0 r1 r2).complete 0) := s.complete_wroteOnlyRes _

end

/-! ### VALIDATE (R159) -/

/-- A word that does not decode ends VALIDATE in its error (R158). -/
theorem validateEffect_of_fmt_error {s : State} {e : Err} (h : decodeFmt (s.arg 0) false = .error e) :
    validateEffect s = .error e := by
  simp only [validateEffect, h]

/-- VALIDATE of a tuple, accepted or not, is a success (R151, R159). -/
theorem validateEffect_of_fmt {s : State} {f : Format} (h : decodeFmt (s.arg 0) false = .ok f) :
    validateEffect s = .ok (s.setRes 0 (if f.valid then 1 else 0)) := by
  simp only [validateEffect, h]

/-- Settles O30: the word VALIDATE puts in RES0 tells `Format.valid`, which is R152's list. -/
theorem validateReportsAcceptedTuples : Obligations.ValidateReportsAcceptedTuples := by
  intro s
  cases hfmt : decodeFmt (s.arg 0) false with
  | error e =>
    refine ⟨s.raise e, ?_, s.raise_endedInError e⟩
    simp only [exec, execValidate, validateEffect_of_fmt_error hfmt, conclude]
  | ok f =>
    have hexec : exec .validate s = .next ((s.setRes 0 (if f.valid then 1 else 0)).complete 0) := by
      simp only [exec, execValidate, validateEffect_of_fmt hfmt, conclude, State.finish_eq]
    obtain ⟨hended, hslots, hallocator, hbytes⟩ := s.complete_wroteOnlyRes (s.res.set 0 (if f.valid then 1 else 0))
    refine ⟨_, hexec, hended, fun hf => ?_, fun hf => ?_, by simp, by simp, hslots, hallocator, hbytes⟩
    · simp [(valid_iff_acceptedTuple f).2 hf]
    · simp [mt (valid_iff_acceptedTuple f).1 hf]

/-! ### Bounds of stride and size (R156) -/

/-- R156's bound on the stride of a family. -/
def maxStride : Family → Nat
  | .planar => 8192
  | .packed => 262140

/-- R156's bound on the number of scanlines of a family. -/
def maxScanlines : Family → Nat
  | .planar => 65535 * 32
  | .packed => 65535

/-- The stride is no more than any multiple of 4 bytes that holds a scanline: every pad divides 32 bits (R154). -/
theorem isStride_le {f : Format} (hf : f.valid = true) {width stride bound : Nat} (h : isStride f width stride)
    (hbound : scanlineBits f width ≤ bound * 8) (hmultiple : bound % 4 = 0) : stride ≤ bound := by
  obtain ⟨hmod, _, hlt⟩ := h
  rcases valid_pad hf with hp | hp | hp <;> rw [hp] at hmod hlt <;> omega

/-- The size is the number of scanlines times the stride (R155). -/
theorem annotate_size (f : Format) (w ht : Nat) :
    (annotate f w ht).size = scanlines f ht * (annotate f w ht).stride := by
  unfold annotate scanlines
  cases f.family with
  | planar => exact Nat.mul_right_comm _ _ _
  | packed => rfl

section
variable {f : Format} (hf : f.valid = true) (width height : BitVec 16)
include hf

/-- The longest scanline of a family fills its longest stride, but for one bit if Planar (R156). -/
theorem scanlineBits_le : scanlineBits f width.toNat ≤ maxStride f.family * 8 := by
  have hwidth : width.toNat ≤ 65535 := Nat.le_of_lt_succ width.isLt
  cases hfam : f.family with
  | planar => simp only [scanlineBits, maxStride, hfam]; omega
  | packed =>
    have hbpp : f.bpp.toNat ≤ 32 := by have := valid_packed hf hfam; omega
    simpa only [scanlineBits, maxStride, hfam] using Nat.mul_le_mul hwidth hbpp

theorem annotate_stride_le : (annotate f width.toNat height.toNat).stride ≤ maxStride f.family :=
  isStride_le hf (annotate_isStride hf _ _) (scanlineBits_le hf width) (by cases f.family <;> rfl)

theorem scanlines_le : scanlines f height.toNat ≤ maxScanlines f.family := by
  have hheight : height.toNat ≤ 65535 := Nat.le_of_lt_succ height.isLt
  cases hfam : f.family with
  | planar => simpa only [scanlines, maxScanlines, hfam] using Nat.mul_le_mul hheight (valid_depth hf)
  | packed => simpa only [scanlines, maxScanlines, hfam] using hheight

theorem annotate_size_le :
    (annotate f width.toNat height.toNat).size ≤ maxScanlines f.family * maxStride f.family := by
  rw [annotate_size]
  exact Nat.mul_le_mul (scanlines_le hf height) (annotate_stride_le hf width height)

theorem annotate_stride_lt : (annotate f width.toNat height.toNat).stride < 2 ^ 32 :=
  Nat.lt_of_le_of_lt (annotate_stride_le hf width height) (by cases f.family <;> decide)

theorem annotate_size_lt : (annotate f width.toNat height.toNat).size < 2 ^ 34 :=
  Nat.lt_of_le_of_lt (annotate_size_le hf width height) (by cases f.family <;> decide)

/-- The stride is read back exactly (R156). -/
theorem annotate_stride_word :
    (BitVec.ofNat 32 (annotate f width.toNat height.toNat).stride).toNat =
      (annotate f width.toNat height.toNat).stride :=
  (BitVec.toNat_ofNat _ _).trans (Nat.mod_eq_of_lt (annotate_stride_lt hf width height))

/-- The size is read back exactly in its two words (R156). -/
theorem annotate_size_words :
    (sizeLow (annotate f width.toNat height.toNat).size).toNat +
      2 ^ 32 * (sizeHigh (annotate f width.toNat height.toNat).size).toNat =
        (annotate f width.toNat height.toNat).size :=
  sizeLow_sizeHigh (annotate_size_lt hf width height)

end

/-- Settles O32: the bounds of `maxStride` and `maxScanlines`, family by family. -/
theorem strideAndSizeBounds : Obligations.StrideAndSizeBounds := by
  intro f width height hf
  have hstride := annotate_stride_le hf width height
  have hsize := annotate_size_le hf width height
  refine ⟨fun hplanar => ?_, fun hpacked => ?_, annotate_stride_lt hf width height, annotate_size_lt hf width height,
    annotate_stride_word hf width height, annotate_size_words hf width height⟩
  · rw [hplanar] at hstride hsize; exact ⟨hstride, hsize⟩
  · rw [hpacked] at hstride hsize; exact ⟨hstride, hsize⟩

/-! ### GEOM (R160) -/

section
variable {s : State}

/-- A word that does not decode ends GEOM in its error (R158). -/
theorem geomEffect_of_fmt_error {e : Err} (h : decodeFmt (s.arg 0) true = .error e) : geomEffect s = .error e := by
  simp only [geomEffect, State.fmtArg, h]

variable {f : Format} (hfmt : decodeFmt (s.arg 0) true = .ok f)
include hfmt

theorem geomEffect_of_rejected (hf : ¬ acceptedTuple f) : geomEffect s = .error .invalidFormat := by
  simp [geomEffect, State.fmtArg, hfmt, mt (valid_iff_acceptedTuple f).1 hf]

/-- GEOM of an accepted tuple puts what `Annotate` computes in RES (R160). -/
theorem geomEffect_of_accepted (hf : acceptedTuple f) {n : Annotation}
    (hn : annotate f ((s.arg 1).extractLsb' 0 16).toNat ((s.arg 1).extractLsb' 16 16).toNat = n) :
    geomEffect s = .ok (s.putRes (BitVec.ofNat 32 n.stride) (sizeLow n.size) (sizeHigh n.size)) := by
  simp only [geomEffect, State.fmtArg, hfmt, (valid_iff_acceptedTuple f).2 hf, if_true, whWidth, whHeight, hn,
    State.putRes]

end

/-- The words GEOM makes of an accepted tuple are the stride R154 describes and the exact size (R155, R156). -/
theorem geom_words_exact {f : Format} (hf : f.valid = true) (width height : BitVec 16) {n : Annotation}
    (hn : annotate f width.toNat height.toNat = n) :
    isStride f width.toNat (BitVec.ofNat 32 n.stride).toNat ∧
      (sizeLow n.size).toNat + 2 ^ 32 * (sizeHigh n.size).toNat =
        scanlines f height.toNat * (BitVec.ofNat 32 n.stride).toNat := by
  subst hn
  rw [annotate_stride_word hf, annotate_size_words hf]
  exact ⟨annotate_isStride hf _ _, annotate_size f _ _⟩

/-- Settles O31: an accepted tuple's words are those of `geom_words_exact`; every other word ends in its error. -/
theorem geomReportsStrideAndExactSize : Obligations.GeomReportsStrideAndExactSize := by
  intro s
  cases hfmt : decodeFmt (s.arg 0) true with
  | error e =>
    refine ⟨s.raise e, ?_, s.raise_endedInError e⟩
    simp only [exec, execGeom, geomEffect_of_fmt_error hfmt, conclude]
  | ok f =>
    by_cases hf : acceptedTuple f
    · obtain ⟨n, hn⟩ : ∃ n, annotate f ((s.arg 1).extractLsb' 0 16).toNat ((s.arg 1).extractLsb' 16 16).toNat = n :=
        ⟨_, rfl⟩
      have hexec : exec .geom s = .next
          ((s.putRes (BitVec.ofNat 32 n.stride) (sizeLow n.size) (sizeHigh n.size)).complete 0) := by
        simp only [exec, execGeom, geomEffect_of_accepted hfmt hf hn, conclude, State.finish_eq]
      obtain ⟨hended, hslots, hallocator, hbytes⟩ := s.putRes_wroteOnlyRes _ _ _
      refine ⟨_, hexec, absurd hf, fun _ => ⟨hended, hslots, hallocator, hbytes, ?_⟩⟩
      simp only [State.complete_res, State.putRes_res0, State.putRes_res1, State.putRes_res2]
      exact geom_words_exact ((valid_iff_acceptedTuple f).2 hf) _ _ hn
    · refine ⟨s.raise .invalidFormat, ?_, fun _ => s.raise_endedInError .invalidFormat, fun h => absurd h hf⟩
      simp only [exec, execGeom, geomEffect_of_rejected hfmt hf, conclude]

/-! ### QUERY (R179) -/

section
variable (d : Slot)

theorem queryWords_zero : queryWords d 0 = some (BitVec.ofNat 32 d.stride, sizeLow d.size, sizeHigh d.size) := rfl

theorem queryWords_one : queryWords d 1 = some (d.planeMask, d.own.code, 0) := rfl

theorem queryWords_two : queryWords d 2 = some (d.data, d.base, 0) := rfl

theorem queryWords_three : queryWords d 3 = some (d.fmt.word, d.height ++ d.width, 0) := rfl

variable {sel : Word}

/-- A selector up to 3 is one of the four. -/
theorem selector_cases (h : sel.toNat ≤ 3) : sel = 0 ∨ sel = 1 ∨ sel = 2 ∨ sel = 3 := by
  simp only [← BitVec.toNat_inj]
  have : sel.toNat = 0 ∨ sel.toNat = 1 ∨ sel.toNat = 2 ∨ sel.toNat = 3 := by omega
  exact this

theorem queryWords_of_le (h : sel.toNat ≤ 3) : ∃ r0 r1 r2, queryWords d sel = some (r0, r1, r2) := by
  rcases selector_cases h with rfl | rfl | rfl | rfl
  · exact ⟨_, _, _, queryWords_zero d⟩
  · exact ⟨_, _, _, queryWords_one d⟩
  · exact ⟨_, _, _, queryWords_two d⟩
  · exact ⟨_, _, _, queryWords_three d⟩

theorem queryWords_of_gt (h : 3 < sel.toNat) : queryWords d sel = none := by
  unfold queryWords
  split
  · omega
  · omega
  · omega
  · omega
  · rfl

end

/-- QUERY finds a selector above 3 before it looks at the slot (R179, R266). -/
theorem queryEffect_of_illegal_selector {s : State} {a : SlotNo} (h : 3 < (s.arg 0).toNat) :
    queryEffect a s = .error .illegalCommand := by
  simp only [queryEffect, queryWords_of_gt _ h]

/-- QUERY of a valid slot puts the selector's words in RES (R179). -/
theorem queryEffect_of_words {s : State} {a : SlotNo} {r0 r1 r2 : Word} (hv : (s.slot a).valid = true)
    (hwords : queryWords (s.slot a) (s.arg 0) = some (r0, r1, r2)) :
    queryEffect a s = .ok (s.putRes r0 r1 r2) := by
  simp only [queryEffect, hwords, State.validSlot_ok.2 ⟨rfl, hv⟩, State.putRes]

/-- A valid slot's stride and size are read back exactly (R41, R156). -/
theorem ok_stride_size_words {d : Slot} (hok : d.Ok) (hv : d.valid = true) :
    (BitVec.ofNat 32 d.stride).toNat = d.stride ∧
      (sizeLow d.size).toNat + 2 ^ 32 * (sizeHigh d.size).toNat = d.size := by
  obtain ⟨hf, hstride, hsize, _⟩ := hok hv
  rw [hstride, hsize]
  exact ⟨annotate_stride_word hf d.width d.height, annotate_size_words hf d.width d.height⟩

/-- Settles O41: the words of each selector, and what they are read back as. -/
theorem queryReadsTheSlot : Obligations.QueryReadsTheSlot := by
  intro s a
  refine ⟨fun hsel => ⟨s.raise .illegalCommand, ?_, s.raise_endedInError .illegalCommand⟩, fun hsel hv hok => ?_⟩
  · simp only [exec, execQuery, queryEffect_of_illegal_selector hsel, conclude]
  obtain ⟨r0, r1, r2, hwords⟩ := queryWords_of_le (s.slot a) hsel
  have hexec : exec (.query a) s = .next ((s.putRes r0 r1 r2).complete 0) := by
    simp only [exec, execQuery, queryEffect_of_words hv hwords, conclude, State.finish_eq]
  obtain ⟨hended, hslots, hallocator, hbytes⟩ := s.putRes_wroteOnlyRes r0 r1 r2
  refine ⟨_, hexec, hended, hslots, hallocator, hbytes, ?_⟩
  simp only [State.complete_res, State.putRes_res0, State.putRes_res1, State.putRes_res2]
  refine ⟨fun h0 => ?_, fun h1 => ?_, fun h2 => ?_, fun h3 => ?_⟩
  · rw [h0, queryWords_zero] at hwords
    cases hwords
    exact ok_stride_size_words hok hv
  · rw [h1, queryWords_one] at hwords
    cases hwords
    exact ⟨rfl, rfl, fun h => by rw [h]; rfl, fun h => by rw [h]; rfl, fun h => by rw [h]; rfl⟩
  · rw [h2, queryWords_two] at hwords
    cases hwords
    exact ⟨rfl, rfl, rfl⟩
  · rw [h3, queryWords_three] at hwords
    cases hwords
    exact ⟨fmtWordRoundTrip (s.slot a).fmt, BitVec.extractLsb'_append_eq_right, BitVec.extractLsb'_append_eq_left, rfl⟩

end Sys2Proof.Machine

/-! PROOFS. The statements about the descriptor lifecycle (spec/42_descriptor.md R170 to R174, R178), with the facts
they share. -/
namespace Sys2Proof.Machine

/-! ### What a step does to one slot (R170) -/

/-- What the step from `s` to `t` did to slot `a`: nothing, or what a reset or one of the four commands that write a
descriptor does to it. -/
inductive SlotStep (s t : State) (a : SlotNo) : Prop where
  | kept (h : t.slot a = s.slot a)
  | reset (hdue : resetDue s) (h : t.slot a = { s.slot a with valid := false })
  | created (hexec : executes s (.create a)) (hfree : (s.slot a).valid = false) (hvalid : (t.slot a).valid = true)
  | annotated (hexec : executes s (.annotate a)) (h : t.slot a = (s.slot a).annotated)
  | destroyed (hexec : executes s (.destroy a)) (h : t.slot a = { s.slot a with valid := false })
  | masked (hexec : executes s (.setmask a)) (h : t.slot a = (s.slot a).withMask (s.arg 0))

/-- A change of the whole slot file, slot by slot. -/
theorem slot_of_slots_map {s t : State} {g : Slot → Slot} (h : t.slots = s.slots.map g) (a : SlotNo) :
    t.slot a = g (s.slot a) := by
  simp only [State.slot, h, Vector.getElem_map]

/-- Every step does one of these to a slot: a command changes the slot it names and no other. -/
theorem step_slotStep {s t : State} (h : step s = .next t) (a : SlotNo) : SlotStep s t a := by
  rcases step_slot_change h with hsame | ⟨hdue, hmap⟩ | ⟨i, b, d, hexec, hslots, hchange⟩
  · exact .kept (State.slot_eq_of_slots_eq a hsame)
  · exact .reset hdue (slot_of_slots_map hmap a)
  have hslot : t.slot a = (s.setSlot b d).slot a := State.slot_eq_of_slots_eq a hslots
  by_cases hba : b = a
  · subst hba
    rw [State.slot_setSlot_self] at hslot
    rcases hchange with ⟨rfl, hfree, hvalid⟩ | ⟨rfl, _, rfl⟩ | ⟨rfl, _, rfl⟩ | ⟨rfl, _, rfl⟩
    · exact .created hexec hfree (by rw [hslot]; exact hvalid)
    · exact .annotated hexec hslot
    · exact .destroyed hexec hslot
    · exact .masked hexec hslot
  · exact .kept (hslot.trans (State.slot_setSlot_other _ _ _ _ hba))

/-- Settles O25: `SlotStep` lists the commands R170 allows a change of the slot, and `annotated` and `withMask`
write no field but those R170 leaves to ANNOTATE and SETMASK. -/
theorem onlyCreateAndDestroyChangeDescriptors : Obligations.OnlyCreateAndDestroyChangeDescriptors := by
  intro s t a hstep
  cases step_slotStep hstep a with
  | kept h => simp +contextual [h]
  | reset hdue h => simp [h, hdue]
  | created hexec hfree hvalid => simp [hexec, hfree, hvalid]
  | annotated hexec h => simp +contextual [h, hexec, Slot.annotated]
  | destroyed hexec h => simp [h, hexec]
  | masked hexec h =>
    obtain ⟨mask, hmask⟩ := withMask_fields (s.slot a) (s.arg 0)
    simp +contextual [h, hmask, hexec]

/-! ### Commands that write one slot and nothing else -/

/-- The command succeeded, put `d` in slot `a`, and wrote no other part of the state. -/
abbrev WroteOnlySlot (s t : State) (a : SlotNo) (d : Slot) : Prop :=
  EndedWith 0 s t ∧ OnlySlot s t a d ∧ t.res = s.res ∧ AllocatorKept s t ∧ BytesKeptBut nowhere s t

theorem State.setSlot_wroteOnlySlot (s : State) (a : SlotNo) (d : Slot) :
    WroteOnlySlot s ((s.setSlot a d).complete 0) a d :=
  ⟨State.complete_endedWith ((CommandFrame.refl s).setSlot a d) 0,
    ⟨s.slot_setSlot_self a d, fun b hb => s.slot_setSlot_other a b d hb.symm⟩, rfl, ⟨rfl, rfl⟩,
    complete_stores_nowhere rfl 0⟩

/-! ### CREATE with a buffer the host names, or none (R171 to R174) -/

section
variable {s : State} {a : SlotNo} {f : Format}

/-- CREATE whose checks answer a finished descriptor stores it and completes (R171). -/
theorem create_of_ready {d : Slot} (hplan : createPlan a s = .ok (.ready d)) :
    ∃ t, exec (.create a) s = .next t ∧ WroteOnlySlot s t a d := by
  refine ⟨(s.setSlot a d).complete 0, ?_, s.setSlot_wroteOnlySlot a d⟩
  change execCreate a s = _
  simp only [execCreate, hplan, State.finish_eq]

/-- A declared size that holds the computed one, and a range inside buffer memory, pass R174's checks. -/
theorem bufferFits_of_le {declared addr size : Nat} (hdeclared : size ≤ declared) (hrange : addr + size ≤ 2 ^ 32) :
    bufferFits declared addr size = true := by
  simp only [bufferFits, fitsMemory, Bool.and_eq_true, decide_eq_true_eq]
  exact ⟨hdeclared, hrange⟩

/-- STORAGE's declared size holds the computed one, BYTES being 0 or large enough (R174). -/
theorem le_storageDeclared {bytes : Word} {size : Nat} (h : bytes = 0 ∨ size ≤ bytes.toNat) :
    size ≤ storageDeclared bytes size := by
  unfold storageDeclared
  split
  · exact le_rfl
  · next hne => exact h.resolve_left hne

variable (hfmt : decodeFmt (s.arg 0) true = .ok f) (hf : acceptedTuple f) (hfree : (s.slot a).valid = false)
include hfmt hf hfree

/-- MODE 0 takes no buffer (R107, R174). -/
theorem createPlan_of_mode_defer (hmode : s.arg 2 = 0) :
    createPlan a s = .ok (.ready (createdSlot f (s.arg 1) .unallocated 0 0)) := by
  rw [createPlan_resolves hfmt hf hfree (by rw [hmode]; decide), hmode]
  rfl

/-- MODE 1 borrows the buffer at DATA (R107, R174). -/
theorem createPlan_of_mode_borrow (hmode : s.arg 2 = 1)
    (hfits : bufferFits (s.arg 5).toNat (s.arg 3).toNat (computedSize f (s.arg 1)) = true) :
    createPlan a s = .ok (.ready (createdSlot f (s.arg 1) .borrowedView (s.arg 3) 0)) := by
  rw [createPlan_resolves hfmt hf hfree (by rw [hmode]; decide), hmode]
  exact if_pos hfits

section
variable (hfits : bufferFits (storageDeclared (s.arg 5) (computedSize f (s.arg 1))) (s.arg 4).toNat
  (computedSize f (s.arg 1)) = true)
include hfits

/-- MODE 2 borrows the buffer at BASE (R107, R174). -/
theorem createPlan_of_mode_storage (hmode : s.arg 2 = 2) :
    createPlan a s = .ok (.ready (createdSlot f (s.arg 1) .borrowedView (s.arg 4) 0)) := by
  rw [createPlan_resolves hfmt hf hfree (by rw [hmode]; decide), hmode]
  exact if_pos hfits

/-- MODE 6 takes the buffer at BASE over (R107, R174, R86). -/
theorem createPlan_of_mode_storage_own (hmode : s.arg 2 = 6) :
    createPlan a s = .ok (.ready (createdSlot f (s.arg 1) .ownedAllocation (s.arg 4) (s.arg 4))) := by
  rw [createPlan_resolves hfmt hf hfree (by rw [hmode]; decide), hmode]
  exact if_pos hfits

end

end

/-- Settles O33: MODE 0 resolves to no buffer. -/
theorem createDefersTheBuffer : Obligations.CreateDefersTheBuffer :=
  fun _ _ _ hfmt hf hfree hmode => create_of_ready (createPlan_of_mode_defer hfmt hf hfree hmode)

/-- Settles O34: the two bounds are R174's checks for MODE 1. -/
theorem createBorrowsTheBuffer : Obligations.CreateBorrowsTheBuffer :=
  fun _ _ _ hfmt hf hfree hmode hdeclared hrange =>
    create_of_ready (createPlan_of_mode_borrow hfmt hf hfree hmode (bufferFits_of_le hdeclared hrange))

/-- Settles O35: MODE 2 and MODE 6 share R174's checks and differ in the ownership alone. -/
theorem createTakesStorage : Obligations.CreateTakesStorage := by
  intro s a f hfmt hf hfree hbytes hrange
  have hfits := bufferFits_of_le (le_storageDeclared hbytes) hrange
  exact ⟨fun hmode => create_of_ready (createPlan_of_mode_storage hfmt hf hfree hfits hmode),
    fun hmode => create_of_ready (createPlan_of_mode_storage_own hfmt hf hfree hfits hmode)⟩

/-! ### SETMASK (R178) -/

/-- A word cut to its bits below `n`. -/
theorem getLsbD_and_lowBits (w : Word) (n j : Nat) :
    (w &&& BitVec.ofNat 32 (2 ^ n - 1)).getLsbD j = (decide (j < n) && w.getLsbD j) := by
  rw [BitVec.getLsbD_and, BitVec.getLsbD_ofNat, Nat.testBit_two_pow_sub_one]
  by_cases hj : j < 32
  · simp [hj, Bool.and_comm]
  · simp [BitVec.getLsbD_of_ge w j (by omega)]

theorem withMask_planar {d : Slot} (h : d.fmt.family = .planar) (mask : Word) :
    d.withMask mask = { d with planeMask := mask &&& BitVec.ofNat 32 (2 ^ d.fmt.depth.toNat - 1) } := by
  simp only [Slot.withMask, h]

theorem withMask_packed {d : Slot} (h : d.fmt.family = .packed) (mask : Word) : d.withMask mask = d := by
  simp only [Slot.withMask, h]

/-- SETMASK of a valid slot stores it with the narrowed mask and completes. -/
theorem setmask_of_valid {s : State} {a : SlotNo} (hv : (s.slot a).valid = true) :
    ∃ t, exec (.setmask a) s = .next t ∧ WroteOnlySlot s t a ((s.slot a).withMask (s.arg 0)) := by
  refine ⟨_, ?_, s.setSlot_wroteOnlySlot a _⟩
  change conclude s (setmaskEffect a s) = _
  simp only [setmaskEffect, State.validSlot_ok.2 ⟨rfl, hv⟩, conclude, State.finish_eq]

/-- Settles O40: what `withMask` does in each family; it cuts a word to any depth, so the bound of 32 is not needed. -/
theorem setmaskNarrowsThePlaneMask : Obligations.SetmaskNarrowsThePlaneMask := by
  intro s a hv _
  obtain ⟨t, hexec, hended, ⟨hslot, hothers⟩, hframe⟩ := setmask_of_valid hv
  refine ⟨t, hexec, hended, hothers, ?_, fun hplanar j => ?_, fun hpacked => ?_, hframe⟩
  · obtain ⟨mask, hmask⟩ := withMask_fields (s.slot a) (s.arg 0)
    rw [hslot, hmask]
  · rw [hslot, withMask_planar hplanar]
    exact getLsbD_and_lowBits _ _ j
  · rw [hslot, withMask_packed hpacked]

end Sys2Proof.Machine

/-! PROOFS. The statements about the pixel accessor (spec/43_pixel_accessor.md) and about the fallback strategy of
CONVERT (spec/45_conversion.md R236, R237), with the facts they share. -/
namespace Sys2Proof.Machine

/-! ### GETPIXEL and PUTPIXEL once their checks are done (R189, R195, R196) -/

theorem accessible_piecesInside {d : Slot} {x y : Nat} (hok : d.Ok) (hacc : accessible d x y) :
    piecesInside d x y = true := by
  obtain ⟨_, _, _, hinside⟩ := (accessible_iff hok).1 hacc
  exact hinside

/-- The state PUTPIXEL completes from: the pixel deposited, the rest as it was (R196). -/
abbrev State.deposited (s : State) (d : Slot) (x y : Nat) (v : Word) : State :=
  { s with port := deposit d x y v s.port }

section
variable {s : State} {a : SlotNo} (hok : (s.slot a).Ok)
  (hacc : accessible (s.slot a) (s.arg 0).toNat (s.arg 1).toNat)
include hok hacc

/-- PUTPIXEL of an accessible pixel deposits ARG2 and completes (R196). -/
theorem exec_putpixel : exec (.putpixel a) s =
    .next ((s.deposited (s.slot a) (s.arg 0).toNat (s.arg 1).toNat (s.arg 2)).complete 0) := by
  obtain ⟨htarget, hexists⟩ := accessible_target hok hacc
  simp only [exec, execPutpixel, htarget, hexists, if_true, State.finish_eq]

/-- GETPIXEL of an accessible pixel nobody raced on puts its value in RES0 and completes (R195). -/
theorem exec_getpixel (hu : unraced s (s.slot a)) : exec (.getpixel a) s = .next
    ((s.setRes 0 (pixelIn s (s.slot a) (s.arg 0).toNat (s.arg 1).toNat)).complete 0) := by
  obtain ⟨htarget, hexists⟩ := accessible_target hok hacc
  have hr := unraced_pieces hu (accessible_piecesInside hok hacc)
  have hextract : extract (s.slot a) (s.arg 0).toNat (s.arg 1).toNat s.port =
      (pixelIn s (s.slot a) (s.arg 0).toNat (s.arg 1).toNat, s.port) := by
    rw [pixelIn_eq hr]
    exact extractPieces_of_not_raced hr
  simp only [exec, execGetpixel, htarget, hexists, if_true, hextract, State.finish_eq]

/-- What GETPIXEL leaves behind: the value in RES0, and nothing else written. -/
theorem getpixel_value (hu : unraced s (s.slot a)) : ∃ t, exec (.getpixel a) s = .next t ∧ WroteOnlyRes s t ∧
    t.res[1] = s.res[1] ∧ t.res[2] = s.res[2] ∧
    t.res[0] = piecesValue (s.slot a).data.toNat s.port.mem
      (locate (s.slot a) (s.arg 0).toNat (s.arg 1).toNat) := by
  refine ⟨_, exec_getpixel hok hacc hu, s.complete_wroteOnlyRes _, by simp, by simp, ?_⟩
  rw [← pixelIn_eq (unraced_pieces hu (accessible_piecesInside hok hacc))]
  simp

end

/-- A PUTPIXEL that passed its checks ends in success (R142, R196). -/
theorem put_endedWith (s : State) (d : Slot) (x y : Nat) (v : Word) :
    EndedWith 0 s ((s.deposited d x y v).complete 0) :=
  State.complete_endedWith (.ofKeeps (deposit_keeps d x y v s.port)) 0

/-- A deposit in the byte of one piece: the field's bits become the value's, the others stay (R192). -/
theorem deposit_piece_getLsbD {d : Slot} {p : Port} {x y : Nat} (v : Word) (hok : d.Ok) (hacc : accessible d x y)
    {q : Piece} (hq : q ∈ locate d x y) (hr : d.data.toNat + q.off ∉ p.raced) {b : Nat} (hb : b < 8) :
    ((deposit d x y v p).mem.read (d.data.toNat + q.off)).getLsbD b =
      if q.occupies b then v.getLsbD (q.bit + (b - q.shift))
      else (p.mem.read (d.data.toNat + q.off)).getLsbD b := by
  have ⟨hv, _, hx, hy, _⟩ := hacc
  have hdistinct : ((locate d x y).map Piece.off).Nodup :=
    List.pairwise_map.2 (locate_pairwise (fun hf => stride_pos hok hv hf hx hy) x y)
  have hunique : ∀ r ∈ locate d x y, d.data.toNat + q.off = d.data.toNat + r.off → r = q := fun r hrm h =>
    List.inj_on_of_nodup_map hdistinct hrm hq (by omega)
  rw [accessible_deposit_getLsbD v hok hacc _ b hr hb]
  split
  · next r hfind =>
    have hmatch := List.find?_some hfind
    simp only [Bool.and_eq_true, decide_eq_true_eq] at hmatch
    obtain rfl := hunique r (List.mem_of_find?_eq_some hfind) hmatch.1
    rw [if_pos hmatch.2]
  · next hnone =>
    have hmiss := List.find?_eq_none.1 hnone q hq
    rw [if_neg (by simpa using hmiss)]

/-! ### Planar pixels (R187 to R192) -/

/-- The bit of a plane block in the value of a Planar pixel (R190, R191). -/
theorem planar_value_planeBit {d : Slot} (hok : d.Ok) (hv : d.valid = true) (hf : d.fmt.family = .planar) (m : Memory)
    (x y : Nat) {k : Nat} (hk : k < d.fmt.depth.toNat) :
    (piecesValue d.data.toNat m (locate d x y)).getLsbD (planeBit d k) =
      (d.planeMask.getLsbD (planeBit d k) &&
        (m.read (d.data.toNat + planarOffset d k x y)).getLsbD (bitPos d x)) := by
  have hlt := planeBit_lt hk
  have hdepth := valid_depth (hok hv).1
  rw [Bool.eq_iff_iff, Bool.and_eq_true, planar_value_bit m hf x y _ (by omega)]
  constructor
  · rintro ⟨l, hl, heq, hbit⟩
    obtain rfl := planeBit_inj hl.1 hk heq
    exact ⟨hl.2, hbit⟩
  · rintro ⟨hmask, hbit⟩
    exact ⟨k, ⟨hk, hmask⟩, rfl, hbit⟩

/-- A Planar pixel has no bit from `depth` on (R191). -/
theorem planar_value_high {d : Slot} (hf : d.fmt.family = .planar) (m : Memory) (x y : Nat) {j : Nat}
    (hj : d.fmt.depth.toNat ≤ j) : (piecesValue d.data.toNat m (locate d x y)).getLsbD j = false := by
  by_cases hj32 : j < 32
  · rw [Bool.eq_false_iff, Ne, planar_value_bit m hf x y j hj32]
    rintro ⟨k, ⟨hk, _⟩, rfl, _⟩
    exact absurd (planeBit_lt hk) (by omega)
  · exact BitVec.getLsbD_of_ge _ j (by omega)

/-- Settles O43: the value is gathered plane block by plane block. -/
theorem getpixelGathersAPlanarPixel : Obligations.GetpixelGathersAPlanarPixel := by
  intro s a hok hplanar hacc hu
  obtain ⟨t, hexec, ⟨hended, hslots, hallocator, hbytes⟩, hres1, hres2, hres0⟩ := getpixel_value hok hacc hu
  refine ⟨t, hexec, hended, hslots, hallocator, hbytes, hres1, hres2, fun k hk => ?_, fun j hj => ?_⟩
  · rw [hres0]; exact planar_value_planeBit hok hacc.1 hplanar _ _ _ hk
  · rw [hres0]; exact planar_value_high hplanar _ _ _ hj

/-- Settles O45: a plane block's piece occupies the one bit at `bitPos`. -/
theorem putpixelScattersAPlanarPixel : Obligations.PutpixelScattersAPlanarPixel := by
  intro s a hok hplanar hacc
  refine ⟨_, exec_putpixel hok hacc, put_endedWith s _ _ _ _, rfl, rfl, ⟨rfl, rfl⟩,
    put_bytes.mono fun b hb => ?_, ?_⟩
  · simpa only [isPixelByte, hplanar] using mem_pixelBytes_iff.1 hb
  · rintro k b j ⟨hk, hmask⟩ rfl hr hj
    have hpiece : (⟨planarOffset (s.slot a) k (s.arg 0).toNat (s.arg 1).toNat, bitPos (s.slot a) (s.arg 0).toNat, 1,
        planeBit (s.slot a) k⟩ : Piece) ∈ locate (s.slot a) (s.arg 0).toNat (s.arg 1).toNat := by
      rw [locate_planar hplanar]
      exact mem_locatePlanar.2 ⟨k, hk, hmask, rfl⟩
    rw [put_read hr, deposit_piece_getLsbD (s.arg 2) hok hacc hpiece hr hj]
    by_cases hbit : j = bitPos (s.slot a) (s.arg 0).toNat
    · simp [hbit, Piece.occupies]
    · rw [if_neg hbit, if_neg]
      simp only [Piece.occupies, Bool.and_eq_true, decide_eq_true_eq]
      omega

/-! ### Packed pixels against R194's table -/

/-- The high nibble is the one of R194's rows for 4 bits. -/
theorem nibbleHigh_iff {d : Slot} {x : Nat} : nibbleHigh d x = true ↔ (x % 2 = 0 ↔ d.fmt.byteOrder = .msbFirst) := by
  simp [nibbleHigh, Nat.and_one_is_mod]

theorem ne_four_of_bytes {n : BitVec 6} (h : n = 8 ∨ n = 16 ∨ n = 24 ∨ n = 32) : n ≠ 4 := by
  rcases h with rfl | rfl | rfl | rfl <;> decide

section
variable {d : Slot} (x : Nat)

/-- R194's "put" for 4 bits: the pixel's nibble from the value, the other as it was. -/
theorem packedPut_four (h4 : d.fmt.bpp = 4) (v : Word) (old : Byte) (i : Nat) : packedPut d x v old i =
    if nibbleHigh d x then v.extractLsb' 0 4 ++ old.extractLsb' 0 4 else old.extractLsb' 4 4 ++ v.extractLsb' 0 4 := by
  have hbpp : d.fmt.bpp.toNat = 4 := by rw [h4]; rfl
  cases horder : d.fmt.byteOrder <;> by_cases hx : x % 2 = 0 <;> simp [packedPut, hbpp, horder, hx, nibbleHigh_iff]

/-- R194's "put" for whole bytes: the eight bits of the value from `packedBit` on. -/
theorem packedPut_bytes (hbytes : d.fmt.bpp = 8 ∨ d.fmt.bpp = 16 ∨ d.fmt.bpp = 24 ∨ d.fmt.bpp = 32) (v : Word)
    (old : Byte) {i : Nat} (hi : i < d.fmt.bpp.toNat / 8) :
    packedPut d x v old i = v.extractLsb' (packedBit d (d.fmt.bpp.toNat / 8) i) 8 := by
  rcases hbytes with h8 | h
  · obtain rfl : i = 0 := by rw [h8] at hi; exact Nat.lt_one_iff.1 hi
    cases horder : d.fmt.byteOrder <;> simp [packedPut, packedBit, h8, horder]
  · rcases h with h | h | h <;> cases horder : d.fmt.byteOrder <;> simp [packedPut, packedBit, h, horder]

/-- R194's "get" for 4 bits. -/
theorem packedGet_four (h4 : d.fmt.bpp = 4) (b : Nat → Byte) : packedGet d x b =
    (if nibbleHigh d x then (b 0).extractLsb' 4 4 else (b 0).extractLsb' 0 4).setWidth 32 := by
  have hbpp : d.fmt.bpp.toNat = 4 := by rw [h4]; rfl
  cases horder : d.fmt.byteOrder <;> by_cases hx : x % 2 = 0 <;> simp [packedGet, hbpp, horder, hx, nibbleHigh_iff]

end

/-- A word put together from bytes, one by one. -/
theorem setWidth_append_byte {n : Nat} (hi : BitVec n) (lo : Byte) :
    (hi ++ lo).setWidth 32 = hi.setWidth 32 <<< 8 ||| lo.setWidth 32 := by
  ext j hj
  by_cases h8 : j < 8
  · simp [BitVec.getLsbD_append, h8]
  · simp [BitVec.getLsbD_append, h8, BitVec.getLsbD_of_ge lo j (by omega)]

/-- The bits a piece takes out of its byte (R191). -/
theorem shift_and_lowMask (b : Byte) (k n : Nat) :
    ((b >>> k) &&& lowMask n).setWidth 32 = (b.extractLsb' k n).setWidth 32 := by
  apply BitVec.eq_of_getLsbD_eq
  intro j hj
  simp only [BitVec.getLsbD_setWidth, BitVec.getLsbD_and, BitVec.getLsbD_ushiftRight, lowMask_getLsbD,
    BitVec.getLsbD_extractLsb']
  by_cases h8 : k + j < 8
  · simp [show j < 8 by omega, Bool.and_comm]
  · simp [BitVec.getLsbD_of_ge b (k + j) (by omega)]

/-- The word that holds byte `b i` from bit `packedBit d n i` on, for `n` bytes (R193). -/
def wordOfBytes (d : Slot) (n : Nat) (b : Nat → Byte) : Word :=
  (List.range n).foldr (fun i w => (b i).setWidth 32 <<< packedBit d n i ||| w) 0#32

/-- Pieces that are whole bytes (R191). -/
theorem piecesValue_bytes (data : Nat) (m : Memory) (l : List Nat) (off bit : Nat → Nat) :
    piecesValue data m (l.map fun i => ⟨off i, 0, 8, bit i⟩) =
      l.foldr (fun i w => (m.read (data + off i)).setWidth 32 <<< bit i ||| w) 0#32 := by
  induction l with
  | nil => rfl
  | cons i l ih =>
    simp only [List.map_cons, piecesValue, shift_and_lowMask, BitVec.extractLsb'_eq_self, ih, List.foldr_cons]

/-- R194's "get" for whole bytes. -/
theorem packedGet_bytes {d : Slot} (x : Nat)
    (hbytes : d.fmt.bpp = 8 ∨ d.fmt.bpp = 16 ∨ d.fmt.bpp = 24 ∨ d.fmt.bpp = 32) (b : Nat → Byte) :
    packedGet d x b = wordOfBytes d (d.fmt.bpp.toNat / 8) b := by
  rw [← BitVec.setWidth_eq (packedGet d x b)]
  rcases hbytes with h | h | h | h <;> cases horder : d.fmt.byteOrder <;>
    simp only [packedGet, h, horder, BitVec.reduceToNat, setWidth_append_byte]
  all_goals
    simp only [wordOfBytes, packedBit, horder, List.range_succ, List.range_zero, List.nil_append, List.cons_append,
      List.foldr_cons, List.foldr_nil, BitVec.setWidth_eq, BitVec.shiftLeft_or_distrib, ← BitVec.shiftLeft_add,
      BitVec.or_zero, BitVec.shiftLeft_zero, Nat.reduceAdd, Nat.reduceSub, Nat.reduceMul, Nat.reduceDiv]
  all_goals simp only [BitVec.or_comm, ← BitVec.or_assoc]

/-- The value of a Packed pixel is R194's "get" of its bytes. -/
theorem packed_value {d : Slot} (hok : d.Ok) (hv : d.valid = true) (hf : d.fmt.family = .packed) (m : Memory)
    (x y : Nat) : piecesValue d.data.toNat m (locate d x y) =
      packedGet d x fun i => m.read (packedByteAddr d x y i) := by
  rw [locate_packed hf]
  rcases packed_cases hok hv hf with h4 | hbytes
  · rw [locatePacked_four h4, packedGet_four x h4]
    simp only [piecesValue, shift_and_lowMask, packedByteAddr, h4, if_true, Nat.shiftRight_eq_div_pow, Nat.add_assoc]
    cases nibbleHigh d x <;> simp
  · have h4 := ne_four_of_bytes hbytes
    rw [locatePacked_bytes h4, piecesValue_bytes, packedGet_bytes x hbytes]
    simp only [wordOfBytes, packedByteAddr, if_neg h4, Nat.add_assoc]

/-- Settles O42: RES0 is the value of the pixel's pieces, which is R194's. -/
theorem getpixelReadsAPackedPixel : Obligations.GetpixelReadsAPackedPixel := by
  intro s a hok hpacked hacc hu
  obtain ⟨t, hexec, ⟨hended, hslots, hallocator, hbytes⟩, hres1, hres2, hres0⟩ := getpixel_value hok hacc hu
  exact ⟨t, hexec, hended, hslots, hallocator, hbytes, hres1, hres2,
    hres0.trans (packed_value hok hacc.1 hpacked _ _ _)⟩

/-- The bits of a byte given by its nibbles. -/
theorem nibbles_getLsbD (hi lo : BitVec 4) (b : Nat) :
    (hi ++ lo : Byte).getLsbD b = if b < 4 then lo.getLsbD b else hi.getLsbD (b - 4) := BitVec.getLsbD_append

/-- What the piece of a 4-bit pixel leaves in its byte, bit by bit (R192, R194). -/
theorem packedPut_four_getLsbD {d : Slot} {x : Nat} (h4 : d.fmt.bpp = 4) (v : Word) (old : Byte) (off i : Nat) {b : Nat}
    (hb : b < 8) : (packedPut d x v old i).getLsbD b =
      if (⟨off, if nibbleHigh d x then 4 else 0, 4, 0⟩ : Piece).occupies b then
        v.getLsbD (0 + (b - if nibbleHigh d x then 4 else 0))
      else old.getLsbD b := by
  rw [packedPut_four x h4]
  rcases Nat.lt_or_ge b 4 with hlow | hhigh
  · cases nibbleHigh d x <;> simp [Piece.occupies, nibbles_getLsbD, hlow]
  · have hsub : b - 4 < 4 := by omega
    have hadd : 4 + (b - 4) = b := by omega
    cases nibbleHigh d x
    · simp [Piece.occupies, nibbles_getLsbD, hsub, hadd, hhigh.not_gt]
    · simp [Piece.occupies, nibbles_getLsbD, hhigh, hsub, hhigh.not_gt]
      omega

section
variable {d : Slot} {p : Port} {x y : Nat} (v : Word) (hok : d.Ok) (hacc : accessible d x y)
  (hf : d.fmt.family = .packed)
include hok hacc hf

/-- A deposit of a 4-bit pixel leaves R194's "put" in its byte. -/
theorem packed_deposit_read_four (h4 : d.fmt.bpp = 4) (hr : packedByteAddr d x y 0 ∉ p.raced) :
    (deposit d x y v p).mem.read (packedByteAddr d x y 0) =
      packedPut d x v (p.mem.read (packedByteAddr d x y 0)) 0 := by
  have haddr : packedByteAddr d x y 0 = d.data.toNat + (y * d.stride + x >>> 1) := by
    simp only [packedByteAddr, if_pos h4, Nat.shiftRight_eq_div_pow, Nat.pow_one, Nat.add_zero, Nat.add_assoc]
  have hpiece : (⟨y * d.stride + x >>> 1, if nibbleHigh d x then 4 else 0, 4, 0⟩ : Piece) ∈ locate d x y := by
    rw [locate_packed hf, locatePacked_four h4]
    exact List.mem_singleton_self _
  rw [haddr] at hr ⊢
  refine BitVec.eq_of_getLsbD_eq fun b hb => ?_
  rw [deposit_piece_getLsbD v hok hacc hpiece hr hb, packedPut_four_getLsbD h4 v _ _ _ hb]

/-- A deposit of a pixel of whole bytes leaves R194's "put" in each of them. -/
theorem packed_deposit_read_bytes (hbytes : d.fmt.bpp = 8 ∨ d.fmt.bpp = 16 ∨ d.fmt.bpp = 24 ∨ d.fmt.bpp = 32)
    {i : Nat} (hi : i < d.fmt.bpp.toNat / 8) (hr : packedByteAddr d x y i ∉ p.raced) :
    (deposit d x y v p).mem.read (packedByteAddr d x y i) =
      packedPut d x v (p.mem.read (packedByteAddr d x y i)) i := by
  have h4 := ne_four_of_bytes hbytes
  have haddr : packedByteAddr d x y i = d.data.toNat + (y * d.stride + d.fmt.bpp.toNat / 8 * x + i) := by
    simp only [packedByteAddr, if_neg h4, Nat.add_assoc]
  have hpiece : (⟨y * d.stride + d.fmt.bpp.toNat / 8 * x + i, 0, 8, packedBit d (d.fmt.bpp.toNat / 8) i⟩ : Piece) ∈
      locate d x y := by
    rw [locate_packed hf, locatePacked_bytes h4]
    exact List.mem_map.2 ⟨i, List.mem_range.2 hi, rfl⟩
  rw [haddr] at hr ⊢
  refine BitVec.eq_of_getLsbD_eq fun b hb => ?_
  rw [deposit_piece_getLsbD v hok hacc hpiece hr hb, packedPut_bytes x hbytes v _ hi]
  simp [Piece.occupies, hb]

/-- A deposit of a Packed pixel leaves R194's "put" in each of the bytes R194 lists. -/
theorem packed_deposit_read {i : Nat} (hi : i < packedByteCount d) (hr : packedByteAddr d x y i ∉ p.raced) :
    (deposit d x y v p).mem.read (packedByteAddr d x y i) =
      packedPut d x v (p.mem.read (packedByteAddr d x y i)) i := by
  rcases packed_cases hok hacc.1 hf with h4 | hbytes
  · obtain rfl : i = 0 := by rw [packedByteCount, if_pos h4] at hi; omega
    exact packed_deposit_read_four v hok hacc hf h4 hr
  · rw [packedByteCount, if_neg (ne_four_of_bytes hbytes)] at hi
    exact packed_deposit_read_bytes v hok hacc hf hbytes hi hr

end

/-- Settles O44: the bytes the deposit may write are the pixel's, and in each it leaves R194's "put". -/
theorem putpixelWritesAPackedPixel : Obligations.PutpixelWritesAPackedPixel := by
  intro s a hok hpacked hacc
  refine ⟨_, exec_putpixel hok hacc, put_endedWith s _ _ _ _, rfl, rfl, ⟨rfl, rfl⟩,
    put_bytes.mono fun k hk => (packed_pixelBytes hpacked _ _ k).1 hk, ?_⟩
  rintro i k hi rfl hr
  rw [put_read hr]
  exact packed_deposit_read _ hok hacc hpacked hi hr

/-! ### Put, then get (R198, R199) -/

/-- The value of a pixel nobody raced on, after PUTPIXEL of any pixel, is what the deposit left. -/
theorem put_pixelIn {s : State} {d : Slot} {x y x' y' : Nat} {v : Word}
    (hr : ∀ q ∈ locate d x' y', d.data.toNat + q.off ∉ s.port.raced) :
    pixelIn ((s.deposited d x y v).complete 0) d x' y' =
      piecesValue d.data.toNat (deposit d x y v s.port).mem (locate d x' y') := by
  rw [pixelIn_eq (by simp)]
  exact piecesValue_congr fun q hq => put_read (hr q hq)

/-- Settles O46: the deposit stores the part of ARG2 that the pixel's pieces carry. -/
theorem putThenGetRoundTrip : Obligations.PutThenGetRoundTrip := by
  intro s a hok hacc hu
  have hr := unraced_pieces hu (accessible_piecesInside hok hacc)
  obtain ⟨u, hget, hwrote, _, _, hvalue⟩ := getpixel_value
    (s := (s.deposited (s.slot a) (s.arg 0).toNat (s.arg 1).toNat (s.arg 2)).complete 0) hok hacc
    (fun _ _ _ h => nomatch h)
  obtain ⟨⟨⟨herr, _⟩, _⟩, _⟩ := hwrote
  refine ⟨_, u, exec_putpixel hok hacc, hget, herr, hvalue.trans ?_⟩
  exact (piecesValue_congr fun q hq => put_read (hr q hq)).trans (storedPart_value (s.arg 2) hok hacc hr)

/-- Settles O47: the pieces of two pixels share no bit where R199 says so. -/
theorem putpixelLeavesOtherPixels : Obligations.PutpixelLeavesOtherPixels := by
  intro s t a hok hn hacc hu hexec x y hacc' hne
  obtain rfl := Host.Outcome.next.inj ((exec_putpixel hok hacc).symm.trans hexec)
  have hr := unraced_pieces hu (accessible_piecesInside hok hacc')
  obtain ⟨_, _, hx, hy, _⟩ := hacc'
  rw [put_pixelIn hr, pixelIn_eq hr]
  exact deposit_other_pixel _ hok hn hacc hx hy hne hr

/-! ### Pixels that cannot be reached (R186, R189, R266) -/

theorem inBounds_iff {d : Slot} {x y : Nat} : inBounds d x y = true ↔ x < d.width.toNat ∧ y < d.height.toNat := by
  simp only [inBounds, Bool.and_eq_true, decide_eq_true_eq]

/-- The shared checks refuse a pixel that is not accessible. -/
theorem pixelTarget_of_inaccessible {s : State} {a : SlotNo} (hok : (s.slot a).Ok)
    (h : ¬ accessible (s.slot a) (s.arg 0).toNat (s.arg 1).toNat) :
    pixelTarget a s = .error .contractViolation := by
  cases htarget : pixelTarget a s with
  | error e => rw [pixelTarget_error htarget]
  | ok d =>
    obtain ⟨rfl, hchecks⟩ := pixelTarget_ok.1 htarget
    exact absurd ((accessible_iff hok).2 hchecks) h

section
variable {s : State} {a : SlotNo} (hv : (s.slot a).valid = true)
include hv

theorem pixaddrEffect_of_out_of_bounds
    (h : (s.slot a).width.toNat ≤ (s.arg 0).toNat ∨ (s.slot a).height.toNat ≤ (s.arg 1).toNat) :
    pixaddrEffect a s = .error .contractViolation := by
  have hb : ¬ inBounds (s.slot a) (s.arg 0).toNat (s.arg 1).toNat = true := by rw [inBounds_iff]; omega
  simp only [pixaddrEffect, State.validSlot_ok.2 ⟨rfl, hv⟩, if_neg hb]

/-- PIXADDR of a pixel in bounds ends in what `pixaddrWords` answers (R197). -/
theorem pixaddrEffect_of_in_bounds (hx : (s.arg 0).toNat < (s.slot a).width.toNat)
    (hy : (s.arg 1).toNat < (s.slot a).height.toNat) : pixaddrEffect a s =
    (pixaddrWords (s.slot a) (s.arg 0).toNat (s.arg 1).toNat (s.arg 2).toNat).map
      fun (r0, r1, r2) => s.putRes r0 r1 r2 := by
  simp only [pixaddrEffect, State.validSlot_ok.2 ⟨rfl, hv⟩, if_pos (inBounds_iff.2 ⟨hx, hy⟩)]
  cases pixaddrWords (s.slot a) (s.arg 0).toNat (s.arg 1).toNat (s.arg 2).toNat <;> rfl

end

theorem pixaddr_endedInError {s : State} {a : SlotNo} {e : Err} (h : pixaddrEffect a s = .error e) :
    ∃ t, exec (.pixaddr a) s = .next t ∧ EndedInError e s t :=
  ⟨s.raise e, by simp only [exec, execPixaddr, h, conclude], s.raise_endedInError e⟩

/-- Settles O48: the one error of the shared checks, and PIXADDR's bounds check. -/
theorem inaccessiblePixelIsAContractViolation : Obligations.InaccessiblePixelIsAContractViolation := by
  refine ⟨fun s a hok _ h => ?_, fun s a hv h => pixaddr_endedInError (pixaddrEffect_of_out_of_bounds hv h)⟩
  have htarget := pixelTarget_of_inaccessible hok h
  have hraise := s.raise_endedInError .contractViolation
  exact ⟨⟨_, by simp only [exec, execGetpixel, htarget], hraise⟩,
    ⟨_, by simp only [exec, execPutpixel, htarget], hraise⟩⟩

/-! ### PIXADDR (R197) -/

/-- PIXADDR whose words are `r0`, `r1`, `r2` puts them in RES and completes. -/
theorem pixaddr_of_words {s : State} {a : SlotNo} {r0 r1 r2 : Word} (hv : (s.slot a).valid = true)
    (hx : (s.arg 0).toNat < (s.slot a).width.toNat) (hy : (s.arg 1).toNat < (s.slot a).height.toNat)
    (hwords : pixaddrWords (s.slot a) (s.arg 0).toNat (s.arg 1).toNat (s.arg 2).toNat = .ok (r0, r1, r2)) :
    ∃ t, exec (.pixaddr a) s = .next t ∧ WroteOnlyRes s t ∧ t.res[0] = r0 ∧ t.res[1] = r1 ∧ t.res[2] = r2 := by
  refine ⟨_, ?_, s.putRes_wroteOnlyRes r0 r1 r2, s.putRes_res0 r0 r1 r2, s.putRes_res1 r0 r1 r2,
    s.putRes_res2 r0 r1 r2⟩
  simp only [exec, execPixaddr, pixaddrEffect_of_in_bounds hv hx hy, hwords, Except.map, conclude, State.finish_eq]

section
variable {d : Slot} (x y k : Nat)

theorem pixaddrWords_planar (hf : d.fmt.family = .planar) : pixaddrWords d x y k =
    if k < d.fmt.depth.toNat then
      .ok (BitVec.ofNat 32 (planarOffset d k x y), countShift 1 (bitPos d x), BitVec.ofNat 32 (planeBit d k))
    else .error .contractViolation := by
  simp only [pixaddrWords, hf]

/-- `BitPos` in numbers (R188). -/
theorem bitPos_eq : bitPos d x = match d.fmt.bitOrder with
    | .msbFirst => 7 - x % 8
    | .lsbFirst => x % 8 := by
  have h : x &&& 7 = x % 8 := Nat.and_two_pow_sub_one_eq_mod x 3
  unfold bitPos
  cases d.fmt.bitOrder <;> simp only [h]

/-- `PlanarOffset` in numbers, for an accepted tuple (R187, R201). -/
theorem planarOffset_eq (hf : d.fmt.family = .planar) (hv : d.fmt.valid = true) :
    planarOffset d k x y = k * d.stride * d.height.toNat + y * d.stride + (x / 8 ^^^ classFlip d) := by
  rw [planarOffset, planar_flip hv hf, Nat.shiftRight_eq_div_pow]

end

/-- RES1 of PIXADDR is read back as it was put together. -/
theorem countShift_toNat {count shift : Nat} (hc : count < 256) (hs : shift < 256) :
    (countShift count shift).toNat = 256 * count + shift := by
  rw [countShift, BitVec.toNat_ofNat, Nat.mod_eq_of_lt (by omega)]
  omega

/-- Settles O49: the plane check, and the formulas of R187 and R188 in numbers. -/
theorem pixaddrLocatesAPlanarPixel : Obligations.PixaddrLocatesAPlanarPixel := by
  intro s a hv hplanar hx hy haccepted
  have hwords := pixaddrWords_planar (s.arg 0).toNat (s.arg 1).toNat (s.arg 2).toNat hplanar
  refine ⟨fun hk => pixaddr_endedInError ?_, fun hk => ?_⟩
  · rw [pixaddrEffect_of_in_bounds hv hx hy, hwords, if_neg (by omega)]
    rfl
  · rw [if_pos hk] at hwords
    obtain ⟨t, hexec, ⟨hended, hslots, hallocator, hbytes⟩, hres0, hres1, hres2⟩ := pixaddr_of_words hv hx hy hwords
    have hbit := bitPos_lt (s.slot a) (s.arg 0).toNat
    have hplane := planeBit_lt hk
    refine ⟨t, hexec, hended, hslots, hallocator, hbytes, ?_, ?_, ?_⟩
    · rw [hres0, planarOffset_eq _ _ _ hplanar ((valid_iff_acceptedTuple _).2 haccepted)]
      rfl
    · rw [hres1, countShift_toNat (by omega) (by omega)]
      exact congrArg (256 + ·) (bitPos_eq _)
    · rw [hres2, BitVec.toNat_ofNat, Nat.mod_eq_of_lt (by omega)]
      rfl

/-- The words of a Packed pixel (R197). -/
theorem pixaddrWords_packed {d : Slot} (x y k : Nat) (hf : d.fmt.family = .packed) : pixaddrWords d x y k =
    .ok (BitVec.ofNat 32 (leastPiece (locatePacked d x y)).off,
      countShift (if d.fmt.bpp = 4 then 1 else d.fmt.bpp.toNat / 8) (leastPiece (locatePacked d x y)).shift, 0) := by
  simp only [pixaddrWords, hf]

/-- The least piece of a pixel is one of its pieces (R197). -/
theorem leastPiece_mem (q : Piece) (l : List Piece) : leastPiece (q :: l) ∈ q :: l := by
  induction l generalizing q with
  | nil => exact List.mem_singleton_self q
  | cons r l ih =>
    rw [leastPiece]
    split
    · exact List.mem_cons_self
    · exact List.mem_cons_of_mem _ (ih r)
    · exact List.cons_ne_nil r l

/-- A first piece below all others is the least (R197). -/
theorem leastPiece_cons {q : Piece} {l : List Piece} (h : ∀ r ∈ l, q.off ≤ r.off) : leastPiece (q :: l) = q := by
  cases l with
  | nil => rfl
  | cons r l =>
    rw [leastPiece, if_pos (h _ (leastPiece_mem r l))]
    exact List.cons_ne_nil r l

/-- The least piece of a Packed pixel is the one R194 lists first (R193). -/
theorem leastPiece_bytes {d : Slot} (h4 : d.fmt.bpp ≠ 4) (hpos : 0 < d.fmt.bpp.toNat / 8) (x y : Nat) :
    leastPiece (locatePacked d x y) =
      ⟨y * d.stride + d.fmt.bpp.toNat / 8 * x, 0, 8, packedBit d (d.fmt.bpp.toNat / 8) 0⟩ := by
  obtain ⟨n, hn⟩ := Nat.exists_eq_add_of_lt hpos
  rw [locatePacked_bytes h4, hn, Nat.zero_add, List.range_succ_eq_map, List.map_cons]
  refine leastPiece_cons fun r hr => ?_
  obtain ⟨i, _, rfl⟩ := List.mem_map.1 hr
  exact Nat.le_add_right _ _

/-- Settles O50: the least piece of a 4-bit pixel is its only one, of a wider pixel the first R194 lists. -/
theorem pixaddrLocatesAPackedPixel : Obligations.PixaddrLocatesAPackedPixel := by
  intro s a hv hok hpacked hx hy
  obtain ⟨t, hexec, ⟨hended, hslots, hallocator, hbytes⟩, hres0, hres1, hres2⟩ :=
    pixaddr_of_words hv hx hy (pixaddrWords_packed _ _ _ hpacked)
  refine ⟨t, hexec, hended, hslots, hallocator, hbytes, hres2, fun h4 => ?_, fun h4 => ?_⟩
  · rw [hres0, hres1, locatePacked_four h4, if_pos h4]
    refine ⟨by rw [Nat.shiftRight_eq_div_pow]; rfl, ?_⟩
    rw [countShift_toNat (by omega) (by simp only [leastPiece]; split <;> omega)]
    simp only [leastPiece, nibbleHigh_iff]
  · have hcount : 0 < (s.slot a).fmt.bpp.toNat / 8 := by
      rcases packed_cases hok hv hpacked with h | h | h | h | h <;> simp [h] at h4 ⊢
    have hlt := (s.slot a).fmt.bpp.isLt
    rw [hres0, hres1, leastPiece_bytes h4 hcount, if_neg h4]
    exact ⟨rfl, countShift_toNat (by omega) (Nat.zero_lt_succ _)⟩

/-! ### The fallback of CONVERT (R236, R237) -/

section
variable {S D : Slot} {p0 : Port}

/-- The whole fallback, bit by bit, into any destination (R236). -/
theorem FallbackReady.bits (r : FallbackReady S D p0) :
    FallbackBits S D p0 (fallback S D p0) fun x y => x < S.width.toNat ∧ y < S.height.toNat :=
  fallback_induct ⟨⟨rfl, fun _ _ _ _ => rfl⟩, fun _ _ _ _ _ => rfl, fun _ _ _ _ _ _ _ h => h.elim⟩
    fun _ _ _ hx hy h => h.pixel r hx hy fun _ _ ⟨_, _, hlater⟩ => hlater

/-- The whole fallback, pixel by pixel, into a destination whose pixels share no bit (R199, R237). -/
theorem FallbackReady.pixels (r : FallbackReady S D p0) (hn : neverAliases D) :
    FallbackDone S D p0 (fallback S D p0) fun x y => x < S.width.toNat ∧ y < S.height.toNat :=
  fallback_induct ⟨⟨rfl, fun _ _ _ _ => rfl⟩, fun _ _ h => h.elim⟩
    fun _ _ _ hx hy h => h.pixel r hn hx hy

end

/-- Strategy 4 has no parameters (R230). -/
theorem select_of_four {S D : Slot} (h : (select S D).number = 4) : select S D = ⟨4, 0, false, false⟩ := by
  unfold select at h ⊢
  split at h
  · cases h
  · split at h
    · cases h
    · split at h
      · cases h
      · rw [if_neg ‹_›, if_neg ‹_›, if_neg ‹_›]

theorem fallbackInside_of_piecesInside {S D : Slot}
    (h : ∀ x y, x < S.width.toNat → y < S.height.toNat → piecesInside S x y = true ∧ piecesInside D x y = true) :
    fallbackInside S D = true := by
  simp only [fallbackInside, List.all_eq_true, List.mem_range, Bool.and_eq_true]
  exact fun y hy x hx => h x y hx hy

/-- What a CONVERT that passes its checks leaves behind (R225, R231): the strategy's memory, its number and parameters
in RES0 and RES1, and nothing else written. -/
theorem convert_completes {s : State} {a b : SlotNo} (oa : (s.slot a).Ok) (ob : (s.slot b).Ok)
    (hc : convertible (s.slot b) (s.slot a))
    (hf : (select (s.slot b) (s.slot a)).number = 4 → fallbackInside (s.slot b) (s.slot a) = true) {k : Strategy}
    (hk : select (s.slot b) (s.slot a) = k) :
    ∃ t, exec (.convert a b) s = .next t ∧ EndedWith 0 s t ∧ t.slots = s.slots ∧ AllocatorKept s t ∧
      t.res[0] = BitVec.ofNat 32 k.number ∧ t.res[1] = k.word ∧ t.res[2] = s.res[2] ∧
      BytesKeptBut (fun c => (s.slot a).covers c = true) s t ∧
      ∀ c, c ∉ s.port.raced → t.port.mem.read c = (runStrategy (s.slot b) (s.slot a) k s.port).mem.read c := by
  subst hk
  have hport := CommandFrame.ofKeeps (runStrategy_keeps (s.slot b) (s.slot a) (select (s.slot b) (s.slot a)) s.port)
  exact ⟨_, exec_convert oa ob hc hf, State.complete_endedWith ((hport.setRes 0 _).setRes 1 _) 0, rfl, ⟨rfl, rfl⟩,
    by simp, by simp, by simp, convert_bytes.mono (writes_covered oa ob hc hf), fun _ => convert_read⟩

/-- Settles O59: the loop's invariants `FallbackBits` and `FallbackDone`, read off the completed state. -/
theorem convertFallbackKeepsPixels : Obligations.ConvertFallbackKeepsPixels := by
  intro s a b oa ob hc uS uD hfour hinside
  have r : FallbackReady (s.slot b) (s.slot a) s.port := ⟨oa, hc, hinside, uS, uD⟩
  obtain ⟨t, hexec, hended, hslots, hallocator, hres0, hres1, hres2, hbytes, hread⟩ :=
    convert_completes oa ob hc (fun _ => fallbackInside_of_piecesInside hinside) (select_of_four hfour)
  obtain ⟨_, huntouched, hlast⟩ := r.bits
  have hsource : ∀ x y, x < (s.slot b).width.toNat → y < (s.slot b).height.toNat →
      pixelIn s (s.slot b) x y = sourceValue (s.slot b) s.port x y := fun x y hx hy =>
    pixelIn_eq (unraced_pieces uS (hinside x y hx hy).1)
  refine ⟨t, hexec, hended, hslots, hallocator, hres0, hres1, hres2, hbytes, fun c j hj hc hn => ?_,
    fun x y i c j hx hy hs hn => ?_, fun hn x y hx hy => ?_⟩
  · rw [hread c hc]
    exact huntouched c j hj hc fun x y i hxy => hn x y i hxy.1 hxy.2
  · obtain ⟨q, hq, rfl, _, _⟩ := storesBit_iff.1 hs
    rw [hread _ (r.dest_unraced rfl hx hy q hq), hsource x y hx hy]
    exact hlast x y i _ j hx hy ⟨hx, hy⟩ hs fun x' y' i' hxy => hn x' y' i' hxy.1 hxy.2
  · rw [pixelIn_eq (by simp [hbytes.1]), hsource x y hx hy]
    exact (piecesValue_congr fun q hq => hread _ (r.dest_unraced rfl hx hy q hq)).trans
      ((r.pixels hn).dst x y ⟨hx, hy⟩ hx hy)

end Sys2Proof.Machine

/-! PROOFS. The statements about the permutation tables, the byte transforms and the bulk copy
(spec/44_permutation.md) and about the strategy that selects them (spec/45_conversion.md R228 to R235), with the facts
they share. -/
namespace Sys2Proof.Machine

/-! ### The permutation tables (R200 to R204) -/

/-- Settles O53: a table XORs its index with a mask that does not depend on the order of the classes. -/
theorem permTablesAreSelfInverse : Obligations.PermTablesAreSelfInverse := by
  intro a b i
  refine ⟨xor_xor_cancel i _, ?_, ?_⟩
  · rw [perm, perm, permMask_comm]
  · rw [perm, permMask_self, Nat.xor_zero]

/-- The class code of a unit class in a PERM word (R108). -/
def UnitClass.code : UnitClass → Nat
  | .c8 => 0
  | .c16 => 1
  | .c32 => 2

theorem UnitClass.code_lt (c : UnitClass) : c.code < 3 := by cases c <;> decide

theorem classOfCode_code (c : UnitClass) : classOfCode (BitVec.ofNat 2 c.code) = some c := by cases c <;> rfl

theorem UnitClass.exists_code {n : Nat} (h : n < 3) : ∃ c : UnitClass, c.code = n := by
  match n, h with
  | 0, _ => exact ⟨.c8, rfl⟩
  | 1, _ => exact ⟨.c16, rfl⟩
  | 2, _ => exact ⟨.c32, rfl⟩

/-- The nine tables as R202 prints them, by source class, destination class and byte index. -/
def printedTables : List (List (List Nat)) :=
  [[[0, 1, 2, 3], [1, 0, 3, 2], [3, 2, 1, 0]],
    [[1, 0, 3, 2], [0, 1, 2, 3], [2, 3, 0, 1]],
    [[3, 2, 1, 0], [2, 3, 0, 1], [0, 1, 2, 3]]]

/-- The XOR rule gives the printed entries (R202). -/
theorem perm_printed (a b : UnitClass) {i : Nat} (hi : i < 4) :
    some (perm a b i) = (printedTables[a.code]?.bind (·[b.code]?)).bind (·[i]?) := by
  revert i
  cases a <;> cases b <;> decide

theorem perm_lt (a b : UnitClass) {i : Nat} (hi : i < 4) : perm a b i < 4 :=
  Nat.xor_lt_two_pow (n := 2) hi (Nat.lt_succ_of_le (permMask_le a b))

/-! ### Commands that write RES0 and nothing else -/

/-- `RES[0] <- v` and `finish`, as PERMLOOKUP and BYTEXFORM have it (R212, R213). -/
theorem conclude_setRes_zero (s : State) (v : Word) :
    ∃ t, conclude s (.ok (s.setRes 0 v)) = .next t ∧ WroteOnlyRes s t ∧ t.res[0] = v ∧ t.res[1] = s.res[1] ∧
      t.res[2] = s.res[2] :=
  ⟨_, rfl, s.complete_wroteOnlyRes (s.res.set 0 v), by simp, by simp, by simp⟩

/-! ### PERMLOOKUP (R212) -/

section
variable {a b i : Nat} (ha : a < 4) (hb : b < 4) (hi : i < 4)
include ha hb hi

theorem permWord_toNat : (BitVec.ofNat 32 (a + 4 * b + 16 * i)).toNat = a + 4 * b + 16 * i := by
  rw [BitVec.toNat_ofNat, Nat.mod_eq_of_lt (by omega)]

/-- The fields of a PERM word (R108). -/
theorem permWord_field {k n : Nat} (hn : (a + 4 * b + 16 * i) / 2 ^ k % 4 = n) :
    (BitVec.ofNat 32 (a + 4 * b + 16 * i)).extractLsb' k 2 = BitVec.ofNat 2 n := by
  apply BitVec.eq_of_toNat_eq
  rw [BitVec.extractLsb'_toNat, permWord_toNat ha hb hi, Nat.shiftRight_eq_div_pow, BitVec.toNat_ofNat, ← hn]
  exact (Nat.mod_mod _ _).symm

end

/-- PERMLOOKUP of a legal PERM word (R212). -/
theorem permlookupEffect_of_legal {s : State} {a b : UnitClass} {i : Nat} (hi : i < 4)
    (hw : s.arg 0 = BitVec.ofNat 32 (a.code + 4 * b.code + 16 * i)) :
    permlookupEffect s = .ok (s.setRes 0 (BitVec.ofNat 32 (perm a b i))) := by
  have ha := a.code_lt
  have hb := b.code_lt
  have hreserved : permReserved (s.arg 0) = false := by
    rw [← Bool.not_eq_true, permReserved_iff, hw, permWord_toNat (by omega) (by omega) hi]
    omega
  have hfield := @permWord_field a.code b.code i (by omega) (by omega) hi
  rw [permlookupEffect, hreserved, hw, hfield (k := 0) (n := a.code) (by omega),
    hfield (k := 2) (n := b.code) (by omega), hfield (k := 4) (n := i) (by omega), classOfCode_code,
    classOfCode_code, BitVec.toNat_ofNat, Nat.mod_eq_of_lt hi]
  rfl

/-- Settles O51: the class codes name two unit classes, whose XOR rule gives the printed entry. -/
theorem permlookupReadsTheNineTables : Obligations.PermlookupReadsTheNineTables := by
  intro s a b i ha hb hi hw
  obtain ⟨a, rfl⟩ := UnitClass.exists_code ha
  obtain ⟨b, rfl⟩ := UnitClass.exists_code hb
  obtain ⟨t, hexec, ⟨hended, hslots, hallocator, hbytes⟩, hres0, hres1, hres2⟩ :=
    conclude_setRes_zero s (BitVec.ofNat 32 (perm a b i))
  have hentry : t.res[0].toNat = perm a b i := by
    have := perm_lt a b hi
    rw [hres0, BitVec.toNat_ofNat, Nat.mod_eq_of_lt (by omega)]
  refine ⟨t, ?_, hended, hslots, hallocator, hbytes, hres1, hres2, ?_⟩
  · rw [← hexec, ← permlookupEffect_of_legal hi hw]
    rfl
  · rw [hentry]
    exact perm_printed a b hi

/-! ### BYTEXFORM (R205 to R207, R213) -/

theorem xor_seven {i : Nat} (h : i < 8) : i ^^^ 7 = 7 - i := by
  revert i
  decide

theorem xor_four {i : Nat} (h : i < 8) : i ^^^ 4 = if i < 4 then i + 4 else i - 4 := by
  revert i
  decide

/-- The transform moves bits by XOR of their positions (R207). -/
theorem xf_getLsbD (b : Byte) (bs ns : Bool) {i : Nat} (h : i < 8) :
    (xf b bs ns).getLsbD i = b.getLsbD (i ^^^ (if bs then 7 else 0) ^^^ (if ns then 4 else 0)) := by
  have hrev : ∀ j, j < 8 → (if bs then bitrev8 b else b).getLsbD j = b.getLsbD (j ^^^ if bs then 7 else 0) := by
    intro j hj
    cases bs with
    | false => rw [if_neg (by decide), if_neg (by decide), Nat.xor_zero]
    | true => exact (bitrev8_getLsbD b j hj).trans (congrArg _ (xor_seven hj).symm)
  cases ns with
  | false => exact (hrev i h).trans (congrArg _ (Nat.xor_zero _).symm)
  | true =>
    calc (nibswap (if bs then bitrev8 b else b)).getLsbD i
        = (if bs then bitrev8 b else b).getLsbD (i ^^^ 4) := by rw [nibswap_getLsbD _ i h, xor_four h]
      _ = b.getLsbD (i ^^^ 4 ^^^ if bs then 7 else 0) := hrev _ (Nat.xor_lt_two_pow (n := 3) h (by decide))
      _ = b.getLsbD (i ^^^ (if bs then 7 else 0) ^^^ 4) := by rw [Nat.xor_right_comm]

/-- The bits a legal XF word selects stay in its byte field (R108). -/
theorem xf_position_lt {i : Nat} (h : i < 8) (bs ns : Bool) :
    i ^^^ (if bs then 7 else 0) ^^^ (if ns then 4 else 0) < 8 := by
  refine Nat.xor_lt_two_pow (n := 3) (Nat.xor_lt_two_pow (n := 3) h ?_) ?_
  · cases bs <;> decide
  · cases ns <;> decide

theorem bytexformEffect_of_legal {s : State} (h : (s.arg 0).toNat < 1024) : bytexformEffect s =
    .ok (s.setRes 0 ((xf ((s.arg 0).extractLsb' 0 8) ((s.arg 0).getLsbD 8) ((s.arg 0).getLsbD 9)).setWidth 32)) := by
  have hreserved : xfReserved (s.arg 0) = false := by
    rw [← Bool.not_eq_true, xfReserved_iff]
    omega
  rw [bytexformEffect, hreserved]
  rfl

/-- Settles O54: RES0 is the transformed byte, read bit by bit. -/
theorem bytexformMovesTheBits : Obligations.BytexformMovesTheBits := by
  intro s hlegal
  obtain ⟨t, hexec, ⟨hended, hslots, hallocator, hbytes⟩, hres0, hres1, hres2⟩ := conclude_setRes_zero s
    ((xf ((s.arg 0).extractLsb' 0 8) ((s.arg 0).getLsbD 8) ((s.arg 0).getLsbD 9)).setWidth 32)
  refine ⟨t, ?_, hended, hslots, hallocator, hbytes, hres1, hres2, fun i hi => ?_, fun i hi => ?_⟩
  · rw [← hexec, ← bytexformEffect_of_legal hlegal]
    rfl
  · have hposition := xf_position_lt hi ((s.arg 0).getLsbD 8) ((s.arg 0).getLsbD 9)
    rw [hres0, BitVec.getLsbD_setWidth, xf_getLsbD _ _ _ hi, BitVec.getLsbD_extractLsb', Nat.zero_add,
      decide_eq_true hposition, Bool.true_and, decide_eq_true (by omega : i < 32), Bool.true_and]
  · rw [hres0, BitVec.getLsbD_setWidth, BitVec.getLsbD_of_ge _ i hi, Bool.and_false]

/-! ### The selected strategy (R228, R230) -/

section
variable {S D : Slot}

theorem bothBitmaps_iff : bothBitmaps S D = true ↔ bitmapPair S D := by
  simp [bothBitmaps, bitmapPair, and_assoc]

theorem orderOnly_iff_orderPair : orderOnly S D = true ↔ orderPair S D := orderOnly_iff

/-- The same layout differs in no order at all (R228). -/
theorem identicalLayout.orderPair (h : identicalLayout S D) : orderPair S D := by
  obtain ⟨hfamily, hbpp, hunit, hpad, hbyte, _⟩ := h
  exact ⟨hfamily, hbpp, hunit, hpad, fun ⟨_, _, hne⟩ => hne hbyte⟩

theorem select_of_identicalLayout (h : identicalLayout S D) : select S D = ⟨1, 0, false, false⟩ := by
  rw [select, if_pos (sameLayout_iff.2 h)]

theorem select_of_bitmapPair (hl : ¬ identicalLayout S D) (h : bitmapPair S D) :
    select S D = ⟨2, pairMask S D, decide (S.fmt.bitOrder ≠ D.fmt.bitOrder), false⟩ := by
  rw [select, if_neg (sameLayout_iff.not.2 hl), if_pos (bothBitmaps_iff.2 h)]
  simp [bne, beq_eq_decide]

theorem select_of_orderPair (hl : ¬ identicalLayout S D) (hb : ¬ bitmapPair S D) (h : orderPair S D) :
    select S D = ⟨3, if S.fmt.family = .packed ∧ S.fmt.bpp = 24 then 0 else pairMask S D,
      decide (S.fmt.family = .planar ∧ S.fmt.bitOrder ≠ D.fmt.bitOrder),
      decide (S.fmt.family = .packed ∧ S.fmt.bpp = 4 ∧ S.fmt.byteOrder ≠ D.fmt.byteOrder)⟩ := by
  rw [select, if_neg (sameLayout_iff.not.2 hl), if_neg (bothBitmaps_iff.not.2 hb), if_pos (orderOnly_iff_orderPair.2 h)]
  simp [bne, beq_eq_decide, Bool.and_assoc]

theorem select_of_neither (hb : ¬ bitmapPair S D) (ho : ¬ orderPair S D) : select S D = ⟨4, 0, false, false⟩ := by
  rw [select, if_neg (sameLayout_iff.not.2 (mt identicalLayout.orderPair ho)), if_neg (bothBitmaps_iff.not.2 hb),
    if_neg (orderOnly_iff_orderPair.not.2 ho)]

theorem select_number_of_neither (hb : ¬ bitmapPair S D) (ho : ¬ orderPair S D) : (select S D).number = 4 := by
  rw [select_of_neither hb ho]

/-- `F(EC(d))` of an accepted tuple whose storage unit has a class (R201). -/
theorem flip_of_accepted {d : Slot} (h : acceptedTuple d.fmt) (hclass : d.fmt.family = .planar ∨ d.fmt.bpp ≠ 24) :
    d.fmt.effectiveClass.flip = classFlip d := by
  have hv := (valid_iff_acceptedTuple _).2 h
  cases hf : d.fmt.family with
  | planar => exact planar_flip hv hf
  | packed => exact packed_flip hv hf (hclass.resolve_left (by simp [hf]))

theorem pairMask_of_accepted (hS : acceptedTuple S.fmt) (hD : acceptedTuple D.fmt)
    (cS : S.fmt.family = .planar ∨ S.fmt.bpp ≠ 24) (cD : D.fmt.family = .planar ∨ D.fmt.bpp ≠ 24) :
    pairMask S D = classFlip S ^^^ classFlip D := by
  rw [pairMask, permMask, flip_of_accepted hS cS, flip_of_accepted hD cD]

end

/-- Settles O57: the four cases of R230; each pair of R235 and R244 is neither a bitmap pair nor an order pair. -/
theorem selectTakesTheCheapestStrategy : Obligations.SelectTakesTheCheapestStrategy := by
  intro S D
  refine ⟨select_of_identicalLayout, fun hl hb => ?_, fun hl hb ho => ?_, fun _ => select_of_neither, fun hfamily => ?_,
    fun hS hD hbpp => ?_, fun hS _ hbpp _ hbyte => ?_, fun _ _ hdepth hdiffer => ?_⟩
  · exact ⟨_, select_of_bitmapPair hl hb, fun hS hD => pairMask_of_accepted hS hD (.inl hb.1) (.inl hb.2.1)⟩
  · refine ⟨_, select_of_orderPair hl hb ho, fun hf h24 => if_pos ⟨hf, h24⟩, fun hclass hS hD => ?_⟩
    obtain ⟨hfamily, hbpp, -, -, -⟩ := ho
    have h24 : ¬ (S.fmt.family = .packed ∧ S.fmt.bpp = 24) := by
      rintro ⟨hf, h24⟩
      simp [hf, h24] at hclass
    rw [if_neg h24]
    exact pairMask_of_accepted hS hD hclass (by rwa [← hfamily, ← hbpp])
  · refine select_number_of_neither ?_ fun ⟨hsame, _⟩ => hfamily hsame
    rintro ⟨hS, hD, _⟩
    exact hfamily (hS.trans hD.symm)
  · refine select_number_of_neither ?_ fun ⟨_, hsame, _⟩ => hbpp hsame
    rintro ⟨hplanar, _⟩
    simp [hS] at hplanar
  · refine select_number_of_neither ?_ fun ⟨_, _, _, _, h24⟩ => h24 ⟨hS, hbpp, hbyte⟩
    rintro ⟨hplanar, _⟩
    simp [hS] at hplanar
  · refine select_number_of_neither ?_ ?_
    · rintro ⟨_, _, hone, _⟩
      simp [hone] at hdepth
    · rintro ⟨_, hbpp, hunit, hpad, _⟩
      simp [hbpp, hunit, hpad] at hdiffer

/-! ### The bulk copy of CONVERT (R208, R209, R233, R234) -/

section
variable {S D : Slot}

/-- The mask a strategy carries is one of the tables' (R231). -/
theorem select_mask_le (S D : Slot) : (select S D).mask ≤ 3 := by
  have hpair : pairMask S D ≤ 3 := permMask_le _ _
  unfold select
  split
  · exact Nat.zero_le 3
  · split
    · exact hpair
    · split
      · dsimp only
        split
        · exact Nat.zero_le 3
        · exact hpair
      · exact Nat.zero_le 3

theorem Strategy.word_toNat {k : Strategy} (h : k.mask ≤ 3) :
    k.word.toNat = (if k.nibswap then 512 else 0) + (if k.bitswap then 256 else 0) + k.mask := by
  rw [Strategy.word, BitVec.toNat_ofNat, Nat.mod_eq_of_lt]
  cases k.nibswap <;> cases k.bitswap <;> simp <;> omega

theorem runStrategy_bulk {k : Strategy} (h : k.number = 2 ∨ k.number = 3) (p : Port) :
    runStrategy S D k p = bulkCopy S D (rowsOf S) k p := by
  rcases h with h | h <;> simp only [runStrategy, h]

/-- A bulk copy spans both buffers of a pair it is selected for, whole (R209). -/
theorem bulk_sizes (hS : S.Ok) (hD : D.Ok) (hc : convertible S D) (hbulk : (select S D).number ≠ 4) :
    S.size = rowsOf S * S.stride ∧ D.size = rowsOf S * D.stride := by
  obtain ⟨vS, _, vD, _, hdepth, hwidth, hheight, _⟩ := hc
  refine ⟨ok_size hS vS, ?_⟩
  rw [ok_size hD vD, rowsOf_eq (sameGeometry_iff.2 ⟨hdepth, hwidth, hheight⟩) (select_family hbulk)]

/-- What a selected bulk copy puts in the destination's scanlines, where nobody raced (R208, R211). -/
theorem bulkCopy_read_of_convertible {p : Port} {k : Strategy} (hS : S.Ok) (hD : D.Ok) (hc : convertible S D)
    (hbulk : (select S D).number ≠ 4) (uS : ∀ c, S.data.toNat ≤ c → c < S.data.toNat + S.size → c ∉ p.raced)
    {r j : Nat} (hr : r < rowsOf S) (hj : j < D.stride) :
    (bulkCopy S D (rowsOf S) k p).mem.read (D.data.toNat + r * D.stride + j) =
      if j ^^^ k.mask < S.stride then
        xf (p.mem.read (S.data.toNat + r * S.stride + (j ^^^ k.mask))) k.bitswap k.nibswap
      else p.mem.read (D.data.toNat + r * D.stride + j) := by
  obtain ⟨sizeS, sizeD⟩ := bulk_sizes hS hD hc hbulk
  obtain ⟨_, _, vD, oD, _, _, _, hdisjoint⟩ := hc
  obtain ⟨_, _, _, _, _, _, _, _, hfits⟩ := hD vD
  refine bulkCopy_read (fun r' i hr' hi => uS _ (by omega) ?_) (sizeD ▸ hfits oD) (fun c h1 h2 hd => ?_) hr hj
  · have := row_in_buffer (stride := S.stride) hr'
    omega
  · exact hdisjoint c ⟨⟨h1, sizeS ▸ h2⟩, sizeD ▸ hd⟩

end

/-- Settles O56: CONVERT completes with the bulk copy's memory, whose bytes `bulkCopy_read_of_convertible` names. -/
theorem convertBulkCopiesThroughTheMask : Obligations.ConvertBulkCopiesThroughTheMask := by
  intro s a b k oa ob hc uS uD hk hbulk
  have hfour : (select (s.slot b) (s.slot a)).number ≠ 4 := by
    rw [← hk]
    omega
  obtain ⟨t, hexec, hended, hslots, hallocator, hres0, hres1, hres2, hbytes, hread⟩ :=
    convert_completes oa ob hc (absurd · hfour) hk.symm
  refine ⟨t, hexec, hended, hslots, hallocator, ?_, hres2, ?_, hbytes, fun r j hr hj => ?_⟩
  · rw [hres0, BitVec.toNat_ofNat, Nat.mod_eq_of_lt (by omega)]
  · rw [hres1, Strategy.word_toNat (hk ▸ select_mask_le _ _)]
  · have hrow := row_in_buffer (stride := (s.slot a).stride) hr
    have hsize := (bulk_sizes ob oa hc hfour).2
    rw [hread _ (uD _ (by omega) (by omega)), runStrategy_bulk hbulk]
    exact bulkCopy_read_of_convertible ob oa hc hfour uS hr hj

end Sys2Proof.Machine

/-! PROOFS. The statements about CONVERT's checks (spec/45_conversion.md R226 to R229, R236), its whole copy (R232,
R242) and the pixel values after its bulk copies (R233, R234, R237, R239), with the facts they share. -/
namespace Sys2Proof.Machine

/-! ### Strategy 1 (R232, R242) -/

/-- Settles O55: strategy 1 is selected, and what the whole copy leaves in the destination is the source. -/
theorem convertCopiesIdenticalLayouts : Obligations.ConvertCopiesIdenticalLayouts := by
  intro s a b oa ob hc uS uD hl
  have hselect := select_of_identicalLayout hl
  obtain ⟨t, hexec, hended, hslots, hallocator, hres0, hres1, hres2, hbytes, hread⟩ :=
    convert_completes oa ob hc (fun h => by simp [hselect] at h) hselect
  obtain ⟨vS, _, vD, oD, hdepth, hwidth, hheight, hdisjoint⟩ := hc
  have hsize : (s.slot b).size = (s.slot a).size :=
    size_eq ob oa vS vD (sameGeometry_iff.2 ⟨hdepth, hwidth, hheight⟩) (sameLayout_iff.2 hl)
  obtain ⟨_, _, _, _, _, _, _, _, hfits⟩ := oa vD
  refine ⟨t, hexec, hended, hslots, hallocator, hres0, hres1, hres2, hbytes, hsize.symm, fun i hi => ?_⟩
  rw [hread _ (uD _ (by omega) (by omega))]
  exact wholeCopy_read (fun j hj => uS _ (by omega) (by omega)) (hsize ▸ hfits oD)
    (fun c h1 h2 hd => hdisjoint c ⟨⟨h1, h2⟩, hsize ▸ hd⟩) hi

/-! ### The checks of CONVERT in R266's order -/

theorem convert_endedInError {s : State} {a b : SlotNo} {e : Err} (h : convertPlan a b s = .error e) :
    ∃ t, exec (.convert a b) s = .next t ∧ EndedInError e s t :=
  ⟨s.raise e, by simp only [exec, execConvert, h], s.raise_endedInError e⟩

/-- A slot that is invalid or Unallocated fails CONVERT's first check (R226). -/
theorem allocatedSlot_of_no_buffer {s : State} {a : SlotNo}
    (h : (s.slot a).valid = false ∨ (s.slot a).own = .unallocated) :
    s.allocatedSlot a = .error .contractViolation := by
  cases hslot : s.allocatedSlot a with
  | error e => rw [State.allocatedSlot_error hslot]
  | ok d =>
    obtain ⟨_, hvalid, hown⟩ := State.allocatedSlot_ok.1 hslot
    simp [hvalid, hown] at h

theorem convertPlan_of_no_buffer {s : State} {a b : SlotNo}
    (h : s.allocatedSlot a = .error .contractViolation ∨ s.allocatedSlot b = .error .contractViolation) :
    convertPlan a b s = .error .contractViolation := by
  cases hb : s.allocatedSlot b with
  | error e => simp only [convertPlan, hb, State.allocatedSlot_error hb]
  | ok S =>
    have ha : s.allocatedSlot a = .error .contractViolation := h.resolve_right (by simp [hb])
    simp only [convertPlan, hb, ha]

section
variable {s : State} {a b : SlotNo} (va : (s.slot a).valid = true) (vb : (s.slot b).valid = true)
  (wa : (s.slot a).own ≠ .unallocated) (wb : (s.slot b).own ≠ .unallocated)
include va vb wa wb

/-- CONVERT's checks after that of its slots (R227, R229, R236). -/
theorem convertPlan_of_buffers : convertPlan a b s =
    if sameGeometry (s.slot b) (s.slot a) then
      if buffersOverlap (s.slot b) (s.slot a) then .error .contractViolation
      else if (select (s.slot b) (s.slot a)).number = 4 ∧ fallbackInside (s.slot b) (s.slot a) = false then
        .error .contractViolation
      else .ok (s.slot b, s.slot a, select (s.slot b) (s.slot a))
    else .error .incompatibleGeometry := by
  simp only [convertPlan, State.allocatedSlot_ok.2 ⟨rfl, va, wa⟩, State.allocatedSlot_ok.2 ⟨rfl, vb, wb⟩]

theorem convertPlan_of_unlike_geometry (h : ¬ sameGeometry (s.slot b) (s.slot a) = true) :
    convertPlan a b s = .error .incompatibleGeometry := by
  rw [convertPlan_of_buffers va vb wa wb, if_neg h]

theorem convertPlan_of_overlap (hg : sameGeometry (s.slot b) (s.slot a) = true)
    (h : ¬ buffersDisjoint (s.slot b) (s.slot a)) : convertPlan a b s = .error .contractViolation := by
  rw [convertPlan_of_buffers va vb wa wb, if_pos hg, if_pos (by simpa using buffersOverlap_iff.not.2 h)]

theorem convertPlan_of_outside (hg : sameGeometry (s.slot b) (s.slot a) = true)
    (hdisjoint : buffersDisjoint (s.slot b) (s.slot a)) (hfour : (select (s.slot b) (s.slot a)).number = 4)
    (h : fallbackInside (s.slot b) (s.slot a) = false) : convertPlan a b s = .error .contractViolation := by
  rw [convertPlan_of_buffers va vb wa wb, if_pos hg, if_neg (by simp [buffersOverlap_iff.2 hdisjoint]),
    if_pos ⟨hfour, h⟩]

end

/-- A pixel with a piece outside a buffer fails the check of strategy 4 (R236). -/
theorem fallbackInside_of_outside {S D : Slot} {x y : Nat} (hx : x < S.width.toNat) (hy : y < S.height.toNat)
    (h : piecesInside S x y = false ∨ piecesInside D x y = false) : fallbackInside S D = false := by
  by_contra hinside
  simp only [Bool.not_eq_false, fallbackInside, List.all_eq_true, List.mem_range, Bool.and_eq_true] at hinside
  obtain ⟨hS, hD⟩ := hinside y hy x hx
  simp [hS, hD] at h

/-- Settles O60: each clause is one branch of `convertPlan`, in its order. -/
theorem convertReportsTheFirstFailingCheck : Obligations.ConvertReportsTheFirstFailingCheck := by
  intro s a b
  refine ⟨fun h => convert_endedInError (convertPlan_of_no_buffer ?_),
    fun va vb wa wb => ⟨fun h => ?_, fun hd hw hh => ?_⟩⟩
  · rcases h with h | h | h | h
    · exact .inl (allocatedSlot_of_no_buffer (.inl h))
    · exact .inr (allocatedSlot_of_no_buffer (.inl h))
    · exact .inl (allocatedSlot_of_no_buffer (.inr h))
    · exact .inr (allocatedSlot_of_no_buffer (.inr h))
  · refine convert_endedInError (convertPlan_of_unlike_geometry va vb wa wb fun hg => ?_)
    obtain ⟨hd, hw, hh⟩ := sameGeometry_iff.1 hg
    simp [hd, hw, hh] at h
  · have hg := sameGeometry_iff.2 ⟨hd, hw, hh⟩
    refine ⟨fun h => convert_endedInError (convertPlan_of_overlap va vb wa wb hg h), fun hdisjoint hfour h => ?_⟩
    obtain ⟨x, y, hx, hy, hpieces⟩ := h
    exact convert_endedInError
      (convertPlan_of_outside va vb wa wb hg hdisjoint hfour (fallbackInside_of_outside hx hy hpieces))

/-! ### What a bulk copy leaves behind (R208, R233, R234) -/

/-- The pairs that take a bulk copy, with its parameters (R230). -/
theorem select_of_bulk {S D : Slot} (h : (select S D).number = 2 ∨ (select S D).number = 3) :
    (bitmapPair S D ∧ select S D = ⟨2, pairMask S D, decide (S.fmt.bitOrder ≠ D.fmt.bitOrder), false⟩) ∨
    (orderPair S D ∧ select S D = ⟨3, if S.fmt.family = .packed ∧ S.fmt.bpp = 24 then 0 else pairMask S D,
      decide (S.fmt.family = .planar ∧ S.fmt.bitOrder ≠ D.fmt.bitOrder),
      decide (S.fmt.family = .packed ∧ S.fmt.bpp = 4 ∧ S.fmt.byteOrder ≠ D.fmt.byteOrder)⟩) := by
  have hl : ¬ identicalLayout S D := fun hl => by simp [select_of_identicalLayout hl] at h
  by_cases hb : bitmapPair S D
  · exact .inl ⟨hb, select_of_bitmapPair hl hb⟩
  · have ho : orderPair S D := by
      by_contra ho
      simp [select_number_of_neither hb ho] at h
    exact .inr ⟨ho, select_of_orderPair hl hb ho⟩

/-- `t` is what a CONVERT by strategy 2 or 3 from `S` to `D` leaves of `s`: each byte of a destination scanline that
the source scanline has a byte for is that byte, transformed (R208). -/
structure BulkCopied (s t : State) (S D : Slot) : Prop where
  sourceOk : S.Ok
  destOk : D.Ok
  pair : convertible S D
  sourceUnraced : unraced s S
  bulk : (select S D).number = 2 ∨ (select S D).number = 3
  settled : t.port.raced = []
  read : ∀ r j, r < rowsOf S → j < D.stride → j ^^^ (select S D).mask < S.stride →
    t.port.mem.read (D.data.toNat + r * D.stride + j) =
      xf (s.port.mem.read (S.data.toNat + r * S.stride + (j ^^^ (select S D).mask))) (select S D).bitswap
        (select S D).nibswap

/-- A CONVERT by strategy 2 or 3 is a bulk copy, as O56 says. -/
theorem bulkCopied_of_exec {s t : State} {a b : SlotNo} (oa : (s.slot a).Ok) (ob : (s.slot b).Ok)
    (hc : convertible (s.slot b) (s.slot a)) (uS : unraced s (s.slot b)) (uD : unraced s (s.slot a))
    (hbulk : (select (s.slot b) (s.slot a)).number = 2 ∨ (select (s.slot b) (s.slot a)).number = 3)
    (hexec : exec (.convert a b) s = .next t) : BulkCopied s t (s.slot b) (s.slot a) := by
  obtain ⟨u, hexec', _, _, _, _, _, _, ⟨hsettled, _⟩, hread⟩ :=
    convertBulkCopiesThroughTheMask s a b _ oa ob hc uS uD rfl hbulk
  obtain rfl := Host.Outcome.next.inj (hexec'.symm.trans hexec)
  exact ⟨ob, oa, hc, uS, hbulk, hsettled, fun r j hr hj hin => by rw [hread r j hr hj, if_pos hin]⟩

section
variable {s t : State} {S D : Slot} {x y : Nat} (h : BulkCopied s t S D)
include h

theorem BulkCopied.pixelIn_source (hn : neverAliases S) (hx : x < S.width.toNat) (hy : y < S.height.toNat) :
    pixelIn s S x y = piecesValue S.data.toNat s.port.mem (locate S x y) := by
  obtain ⟨vS, _⟩ := h.pair
  exact pixelIn_eq (unraced_pieces h.sourceUnraced (inside_of_neverAliases h.sourceOk vS hn hx hy))

theorem BulkCopied.pixelIn_dest : pixelIn t D x y = piecesValue D.data.toNat t.port.mem (locate D x y) :=
  pixelIn_eq (by simp [h.settled])

end

/-! ### Packed pixels after a bulk copy (R234, R237) -/

/-- Where the bytes of a Packed pixel begin in its scanline (R194). -/
def firstByte (d : Slot) (x : Nat) : Nat := packedByteCount d * if d.fmt.bpp = 4 then x / 2 else x

theorem packedByteAddr_eq (d : Slot) (x y i : Nat) :
    packedByteAddr d x y i = d.data.toNat + y * d.stride + (firstByte d x + i) := by
  unfold packedByteAddr firstByte packedByteCount
  split <;> omega

/-- The sizes of a Packed pixel in bytes (R152, R194). -/
theorem packedByteCount_cases {d : Slot} (hok : d.Ok) (hv : d.valid = true) (hf : d.fmt.family = .packed) :
    packedByteCount d = 1 ∨ packedByteCount d = 2 ∨ packedByteCount d = 4 ∨
      (d.fmt.bpp = 24 ∧ packedByteCount d = 3) := by
  rcases packed_cases hok hv hf with h | h | h | h | h <;> simp [packedByteCount, h]

/-- The bytes of a Packed pixel in bounds lie in its scanline (R193, R199). -/
theorem firstByte_add_lt {d : Slot} (hok : d.Ok) (hv : d.valid = true) (hf : d.fmt.family = .packed) {x i : Nat}
    (hx : x < d.width.toNat) (hi : i < packedByteCount d) : firstByte d x + i < d.stride := by
  have hmem : packedByteAddr d x 0 i ∈ pixelBytes d x 0 := (packed_pixelBytes hf x 0 _).2 ⟨i, hi, rfl⟩
  obtain ⟨q, hq, haddr⟩ := mem_pixelBytes.1 hmem
  have hoffset := (packed_offsets hok hv hf hx (locate_packed hf x 0 ▸ hq)).2
  rw [packedByteAddr_eq] at haddr
  omega

/-- XOR with the last index of a group of 1, 2 or 4 bytes reverses the group. -/
theorem mul_add_xor_pred {n i : Nat} (hn : n = 1 ∨ n = 2 ∨ n = 4) (hi : i < n) (q : Nat) :
    (n * q + i) ^^^ (n - 1) = n * q + (n - 1 - i) := by
  obtain ⟨w, hw⟩ : ∃ w, n = 2 ^ w := by
    rcases hn with rfl | rfl | rfl
    exacts [⟨0, rfl⟩, ⟨1, rfl⟩, ⟨2, rfl⟩]
  have hgroup : i ^^^ (n - 1) = n - 1 - i := by
    clear hw
    rcases hn with rfl | rfl | rfl <;> revert i <;> decide
  have hdiv : ((n * q + i) ^^^ (n - 1)) / n = q := by
    conv_lhs => rw [hw, Nat.xor_div_two_pow, ← hw, Nat.mul_add_div (by omega), Nat.div_eq_of_lt hi,
      Nat.div_eq_of_lt (by omega : n - 1 < n), Nat.add_zero, Nat.xor_zero]
  have hmod : ((n * q + i) ^^^ (n - 1)) % n = n - 1 - i := by
    conv_lhs => rw [hw, Nat.xor_mod_two_pow, ← hw, Nat.mul_add_mod, Nat.mod_eq_of_lt hi,
      Nat.mod_eq_of_lt (by omega : n - 1 < n), hgroup]
  rw [← Nat.div_add_mod ((n * q + i) ^^^ (n - 1)) n, hdiv, hmod]

/-- `F(EC(d))` of a Packed pixel: its byte count less 1 for MSBFirst (R152, R201). -/
theorem classFlip_packed {d : Slot} (hok : d.Ok) (hv : d.valid = true) (hf : d.fmt.family = .packed) :
    classFlip d = if d.fmt.byteOrder = .msbFirst then packedByteCount d - 1 else 0 := by
  have hunit : d.fmt.unit.toNat / 8 = packedByteCount d := by
    rcases unit_of_packed hok hv hf with h | h | h | h | h <;> simp [packedByteCount, h]
  unfold classFlip
  rw [hunit]
  cases d.fmt.byteOrder <;> simp

section
variable {S D : Slot} (horders : orderPair S D)
include horders

theorem orderPair.packedByteCount_eq : packedByteCount S = packedByteCount D := by
  obtain ⟨_, hbpp, _⟩ := horders
  simp only [packedByteCount, hbpp]

/-- The mask of a Packed pair: none for like byte orders, else the one that reverses the bytes of a pixel (R234). -/
theorem orderPair.mask_packed (hS : S.Ok) (hD : D.Ok) (hc : convertible S D) (hf : S.fmt.family = .packed) :
    (if S.fmt.family = .packed ∧ S.fmt.bpp = 24 then 0 else pairMask S D) =
      if S.fmt.byteOrder = D.fmt.byteOrder then 0 else packedByteCount D - 1 := by
  have hcount := horders.packedByteCount_eq
  obtain ⟨hfamily, hbpp, _, _, h24⟩ := horders
  obtain ⟨vS, _, vD, _⟩ := hc
  split
  · next h => rw [if_pos (by_contra fun hne => h24 ⟨h.1, h.2, hne⟩)]
  · next h =>
    have cS : S.fmt.bpp ≠ 24 := fun h' => h ⟨hf, h'⟩
    rw [pairMask_of_accepted ((valid_iff_acceptedTuple _).1 (hS vS).1) ((valid_iff_acceptedTuple _).1 (hD vD).1)
      (.inr cS) (.inr (hbpp ▸ cS)), classFlip_packed hS vS hf, classFlip_packed hD vD (hfamily ▸ hf), hcount]
    cases S.fmt.byteOrder <;> cases D.fmt.byteOrder <;> simp

end

/-- R194's "get" depends on the bytes of the pixel alone. -/
theorem packedGet_congr {d : Slot} (hok : d.Ok) (hv : d.valid = true) (hf : d.fmt.family = .packed) (x : Nat)
    {b b' : Nat → Byte} (h : ∀ i, i < packedByteCount d → b i = b' i) : packedGet d x b = packedGet d x b' := by
  rcases packed_cases hok hv hf with h4 | hbytes
  · rw [packedGet_four x h4, packedGet_four x h4, h 0 (by simp [packedByteCount, h4])]
  · rw [packedGet_bytes x hbytes, packedGet_bytes x hbytes]
    refine List.foldr_ext _ _ _ fun i hi _ => ?_
    rw [h i (by rwa [packedByteCount, if_neg (ne_four_of_bytes hbytes), ← List.mem_range])]

/-- A 4-bit pixel of the other byte order is the same nibble of the byte with its nibbles swapped (R193, R206). -/
theorem packedGet_nibswap {S D : Slot} (x : Nat) (hS : S.fmt.bpp = 4) (hbpp : S.fmt.bpp = D.fmt.bpp)
    (hne : S.fmt.byteOrder ≠ D.fmt.byteOrder) (b : Nat → Byte) :
    packedGet D x (fun i => nibswap (b (packedByteCount D - 1 - i))) = packedGet S x b := by
  have hD : D.fmt.bpp = 4 := hbpp ▸ hS
  have hfirst : packedByteCount D - 1 - 0 = 0 := by simp [packedByteCount, hD]
  have hlow : ∀ c : Byte, (nibswap c).extractLsb' 0 4 = c.extractLsb' 4 4 := by decide
  have hhigh : ∀ c : Byte, (nibswap c).extractLsb' 4 4 = c.extractLsb' 0 4 := by decide
  have hother : nibbleHigh D x = !nibbleHigh S x := by
    rw [Bool.eq_iff_iff, Bool.not_eq_true', ← Bool.not_eq_true, nibbleHigh_iff, nibbleHigh_iff]
    cases hoS : S.fmt.byteOrder <;> cases hoD : D.fmt.byteOrder <;> simp [hoS, hoD] at hne ⊢
  rw [packedGet_four x hD, packedGet_four x hS, hfirst, hother, hlow, hhigh]
  cases nibbleHigh S x <;> rfl

/-- A pixel of whole bytes of the other byte order is read from the bytes in reverse (R193, R194). -/
theorem packedGet_reverse {S D : Slot} (x : Nat)
    (hbytes : S.fmt.bpp = 8 ∨ S.fmt.bpp = 16 ∨ S.fmt.bpp = 24 ∨ S.fmt.bpp = 32) (hbpp : S.fmt.bpp = D.fmt.bpp)
    (hne : S.fmt.byteOrder ≠ D.fmt.byteOrder) (b : Nat → Byte) :
    packedGet D x (fun i => b (packedByteCount D - 1 - i)) = packedGet S x b := by
  unfold packedGet packedByteCount
  rw [← hbpp]
  rcases hbytes with h | h | h | h <;> rw [h] <;>
    cases hoS : S.fmt.byteOrder <;> cases hoD : D.fmt.byteOrder <;> simp [hoS, hoD] at hne ⊢

/-- Strategy 3's transform of the bytes of a Packed pixel undoes the change of byte order (R234). -/
theorem orderPair.packedGet_xf {S D : Slot} (horders : orderPair S D) (hS : S.Ok) (vS : S.valid = true)
    (hf : S.fmt.family = .packed) (x : Nat) (b : Nat → Byte) :
    packedGet D x (fun i => xf (b (if S.fmt.byteOrder = D.fmt.byteOrder then i else packedByteCount D - 1 - i)) false
      (decide (S.fmt.family = .packed ∧ S.fmt.bpp = 4 ∧ S.fmt.byteOrder ≠ D.fmt.byteOrder))) = packedGet S x b := by
  obtain ⟨_, hbpp, _⟩ := horders
  by_cases hsame : S.fmt.byteOrder = D.fmt.byteOrder
  · have hxf : ∀ c : Byte, xf c false false = c := fun _ => rfl
    simp only [hsame, ne_eq, not_true, and_false, decide_false, if_true, hxf, packedGet, hbpp]
  · rcases packed_cases hS vS hf with h4 | hbytes
    · simp only [hf, hsame, h4, true_and, ne_eq, not_false_iff, decide_true, if_false]
      exact packedGet_nibswap x h4 hbpp hsame b
    · have h4 := ne_four_of_bytes hbytes
      simp only [hsame, h4, false_and, and_false, decide_false, if_false]
      exact packedGet_reverse x hbytes hbpp hsame b

/-- After a bulk copy byte `i` of a Packed pixel is the source pixel's byte `i`, or the one as far from its end where
the byte orders differ, transformed (R234). -/
theorem BulkCopied.packed_read {s t : State} {S D : Slot} (h : BulkCopied s t S D) (horders : orderPair S D)
    (hf : S.fmt.family = .packed) {x y i : Nat} (hx : x < S.width.toNat) (hy : y < S.height.toNat)
    (hmask : (select S D).mask = if S.fmt.byteOrder = D.fmt.byteOrder then 0 else packedByteCount D - 1)
    (hi : i < packedByteCount D) :
    t.port.mem.read (packedByteAddr D x y i) =
      xf (s.port.mem.read (packedByteAddr S x y
        (if S.fmt.byteOrder = D.fmt.byteOrder then i else packedByteCount D - 1 - i))) (select S D).bitswap
        (select S D).nibswap := by
  have hcount := horders.packedByteCount_eq
  obtain ⟨vS, _, vD, _, _, hwidth, _⟩ := h.pair
  obtain ⟨hfamily, hbpp, _, _, h24⟩ := horders
  have hfirst : firstByte D x = firstByte S x := by simp only [firstByte, hcount, hbpp]
  have hposition : (firstByte D x + i) ^^^ (select S D).mask =
      firstByte S x + if S.fmt.byteOrder = D.fmt.byteOrder then i else packedByteCount D - 1 - i := by
    rw [hmask, hfirst]
    split
    · exact Nat.xor_zero _
    · next hne =>
      have hgroup : packedByteCount D = 1 ∨ packedByteCount D = 2 ∨ packedByteCount D = 4 := by
        rcases packedByteCount_cases h.destOk vD (hfamily ▸ hf) with h1 | h2 | h4 | ⟨hb, _⟩
        exacts [.inl h1, .inr (.inl h2), .inr (.inr h4), absurd ⟨hf, hbpp.trans hb, hne⟩ h24]
      rw [firstByte, hcount]
      exact mul_add_xor_pred hgroup hi _
  rw [packedByteAddr_eq, packedByteAddr_eq, ← hposition]
  refine h.read y _ ?_ (firstByte_add_lt h.destOk vD (hfamily ▸ hf) (hwidth ▸ hx) hi) ?_
  · simpa only [rowsOf, hf] using hy
  · rw [hposition]
    refine firstByte_add_lt h.sourceOk vS hf hx ?_
    split <;> omega

/-- Between Packed slots a bulk copy keeps every pixel's value (R237). -/
theorem BulkCopied.packed_value_kept {s t : State} {S D : Slot} (h : BulkCopied s t S D)
    (hf : S.fmt.family = .packed) {x y : Nat} (hx : x < S.width.toNat) (hy : y < S.height.toNat) :
    pixelIn t D x y = pixelIn s S x y := by
  obtain ⟨vS, _, vD, _⟩ := h.pair
  rcases select_of_bulk h.bulk with ⟨⟨hplanar, _⟩, _⟩ | ⟨horders, hselect⟩
  · simp [hf] at hplanar
  · have hfD : D.fmt.family = .packed := horders.1 ▸ hf
    have hmask := horders.mask_packed h.sourceOk h.destOk h.pair hf
    rw [h.pixelIn_dest, h.pixelIn_source (.inl hf) hx hy, packed_value h.destOk vD hfD, packed_value h.sourceOk vS hf,
      ← horders.packedGet_xf h.sourceOk vS hf]
    refine packedGet_congr h.destOk vD hfD x fun i hi => ?_
    rw [h.packed_read horders hf hx hy (by rw [hselect]; exact hmask) hi, hselect]
    simp [hf]

/-! ### Planar pixels after a bulk copy (R233, R234, R237, R239) -/

/-- The parameters of a bulk copy between Planar slots (R230). -/
theorem select_of_bulk_planar {S D : Slot} (h : (select S D).number = 2 ∨ (select S D).number = 3)
    (hf : S.fmt.family = .planar) : (select S D).mask = pairMask S D ∧
      (select S D).bitswap = decide (S.fmt.bitOrder ≠ D.fmt.bitOrder) ∧ (select S D).nibswap = false := by
  rcases select_of_bulk h with ⟨_, hselect⟩ | ⟨_, hselect⟩
  · simp [hselect]
  · simp [hselect, hf]

/-- The byte of a plane block that a pixel's bit is in, by its scanline and its place there (R187). -/
theorem planarOffset_scanline (d : Slot) (k x y : Nat) : planarOffset d k x y =
    (k * d.height.toNat + y) * d.stride + (x >>> 3 ^^^ d.fmt.effectiveClass.flip) := by
  unfold planarOffset
  ring

/-- With the other bit order a pixel's bit stands as far from the other end of its byte (R188). -/
theorem bitPos_xor_seven {S D : Slot} (h : S.fmt.bitOrder ≠ D.fmt.bitOrder) (x : Nat) :
    bitPos D x ^^^ 7 = bitPos S x := by
  rw [xor_seven (bitPos_lt D x), bitPos_eq, bitPos_eq]
  cases hS : S.fmt.bitOrder <;> cases hD : D.fmt.bitOrder <;> simp [hS, hD] at h ⊢
  omega

/-- A Planar pixel has no bit from `depth` on, in the source and in the destination (R191). -/
theorem BulkCopied.planar_high {s t : State} {S D : Slot} {x y j : Nat} (h : BulkCopied s t S D)
    (hfS : S.fmt.family = .planar) (hfD : D.fmt.family = .planar) (nS : neverAliases S) (hx : x < S.width.toNat)
    (hy : y < S.height.toNat) (hj : S.fmt.depth.toNat ≤ j) :
    (pixelIn t D x y).getLsbD j = false ∧ (pixelIn s S x y).getLsbD j = false := by
  obtain ⟨_, _, _, _, hdepth, _⟩ := h.pair
  rw [h.pixelIn_dest, h.pixelIn_source nS hx hy]
  exact ⟨planar_value_high hfD _ _ _ (hdepth ▸ hj), planar_value_high hfS _ _ _ hj⟩

/-- The one plane block of a bitmap carries bit 0 in either bit order (R188). -/
theorem planeBit_bitmap {d : Slot} (hd : d.fmt.depth = 1) : planeBit d 0 = 0 := by
  unfold planeBit
  cases d.fmt.bitOrder <;> simp [hd]

/-- With the other bit order a plane block carries the bit as far from the other end of the pixel (R188, R239). -/
theorem planeBit_reverse {S D : Slot} {k : Nat} (hdepth : S.fmt.depth = D.fmt.depth)
    (hne : S.fmt.bitOrder ≠ D.fmt.bitOrder) (hk : k < S.fmt.depth.toNat) :
    planeBit S k = S.fmt.depth.toNat - 1 - planeBit D k := by
  unfold planeBit
  rw [← hdepth]
  cases hS : S.fmt.bitOrder <;> cases hD : D.fmt.bitOrder <;> simp [hS, hD] at hne ⊢
  omega

section
variable {s t : State} {S D : Slot} {x y k : Nat} (h : BulkCopied s t S D) (hfS : S.fmt.family = .planar)
  (hfD : D.fmt.family = .planar) (nS : neverAliases S) (nD : neverAliases D) (hx : x < S.width.toNat)
  (hy : y < S.height.toNat)
include h hfS hfD nS nD hx hy

/-- After a bulk copy a plane block's byte of a pixel is the source's, transformed (R233, R234). -/
theorem BulkCopied.planar_read (hk : k < S.fmt.depth.toNat) :
    t.port.mem.read (D.data.toNat + planarOffset D k x y) =
      xf (s.port.mem.read (S.data.toNat + planarOffset S k x y)) (decide (S.fmt.bitOrder ≠ D.fmt.bitOrder)) false := by
  obtain ⟨vS, _, vD, _, _, hwidth, hheight, _⟩ := h.pair
  obtain ⟨hmask, hbitswap, hnibswap⟩ := select_of_bulk_planar h.bulk hfS
  have hposition : x >>> 3 ^^^ D.fmt.effectiveClass.flip ^^^ (select S D).mask =
      x >>> 3 ^^^ S.fmt.effectiveClass.flip := by
    rw [hmask, pairMask, permMask, Nat.xor_comm S.fmt.effectiveClass.flip, ← Nat.xor_assoc, xor_xor_cancel]
  have hrow : k * S.height.toNat + y < rowsOf S := by
    have := row_in_buffer (stride := S.height.toNat) hk
    simp only [rowsOf, hfS, Nat.mul_comm S.height.toNat]
    omega
  rw [planarOffset_scanline, planarOffset_scanline, ← hheight, ← hposition, ← Nat.add_assoc, ← Nat.add_assoc,
    ← hbitswap, ← hnibswap]
  refine h.read _ _ hrow (planar_byte_inside h.destOk vD hfD nD (hwidth ▸ hx)) ?_
  rw [hposition]
  exact planar_byte_inside h.sourceOk vS hfS nS hx

/-- After a bulk copy plane block `k` carries of each pixel the bit it carried in the source (R239). -/
theorem BulkCopied.plane_kept (mS : fullMask S) (mD : fullMask D) (hk : k < S.fmt.depth.toNat) :
    (pixelIn t D x y).getLsbD (planeBit D k) = (pixelIn s S x y).getLsbD (planeBit S k) := by
  obtain ⟨vS, _, vD, _, hdepth, _⟩ := h.pair
  have hkD : k < D.fmt.depth.toNat := hdepth ▸ hk
  have hkeptS := ((planeKept_of_fullMask h.sourceOk vS mS k).2 hk).2
  have hkeptD := ((planeKept_of_fullMask h.destOk vD mD k).2 hkD).2
  rw [h.pixelIn_dest, h.pixelIn_source nS hx hy, planar_value_planeBit h.destOk vD hfD _ _ _ hkD,
    planar_value_planeBit h.sourceOk vS hfS _ _ _ hk, hkeptS, hkeptD, h.planar_read hfS hfD nS nD hx hy hk,
    xf_getLsbD _ _ _ (bitPos_lt D x)]
  by_cases hsame : S.fmt.bitOrder = D.fmt.bitOrder
  · simp [hsame, bitPos]
  · simp [hsame, bitPos_xor_seven hsame]

/-- Where both slots give each plane block the same bit, a pixel keeps its value (R237). -/
theorem BulkCopied.planar_value_kept (mS : fullMask S) (mD : fullMask D)
    (hplane : ∀ k, k < S.fmt.depth.toNat → planeBit D k = planeBit S k) : pixelIn t D x y = pixelIn s S x y := by
  refine BitVec.eq_of_getLsbD_eq fun j _ => ?_
  rcases Nat.lt_or_ge j S.fmt.depth.toNat with hj | hj
  · obtain ⟨k, hk, rfl⟩ := planeBit_surj hj
    rw [← hplane k hk, h.plane_kept hfS hfD nS nD hx hy mS mD hk, hplane k hk]
  · obtain ⟨hdest, hsource⟩ := h.planar_high hfS hfD nS hx hy hj
    rw [hdest, hsource]

/-- With different bit orders a pixel arrives reversed over `depth` bits (R239). -/
theorem BulkCopied.planar_reversed (mS : fullMask S) (mD : fullMask D) (hne : S.fmt.bitOrder ≠ D.fmt.bitOrder) :
    isPlaneReversal S.fmt.depth.toNat (pixelIn s S x y) (pixelIn t D x y) := by
  intro j
  obtain ⟨_, _, _, _, hdepth, _⟩ := h.pair
  rcases Nat.lt_or_ge j S.fmt.depth.toNat with hj | hj
  · obtain ⟨k, hk, rfl⟩ := planeBit_surj (hdepth ▸ hj : j < D.fmt.depth.toNat)
    have hkS : k < S.fmt.depth.toNat := hdepth ▸ hk
    rw [h.plane_kept hfS hfD nS nD hx hy mS mD hkS, planeBit_reverse hdepth hne hkS, decide_eq_true hj, Bool.true_and]
  · rw [(h.planar_high hfS hfD nS hx hy hj).1, decide_eq_false (by omega), Bool.false_and]

end

/-- Settles O58: a bulk copy keeps the bytes of a Packed pixel up to their order, and the bit of each plane block of a
Planar one. -/
theorem convertBulkCopyPixelValues : Obligations.ConvertBulkCopyPixelValues := by
  intro s t a b k oa ob hc uS uD hk hbulk hexec x y hx hy
  subst hk
  have h := bulkCopied_of_exec oa ob hc uS uD hbulk hexec
  obtain ⟨_, _, _, _, hdepth, _⟩ := hc
  refine ⟨fun hf => h.packed_value_kept hf hx hy, fun hfS nS nD mS mD => ?_⟩
  have hfD : (s.slot a).fmt.family = .planar := (select_family (by omega)).symm.trans hfS
  refine ⟨fun hkind => h.planar_value_kept hfS hfD nS nD hx hy mS mD fun k hk => ?_,
    fun _ hne => h.planar_reversed hfS hfD nS nD hx hy mS mD hne⟩
  rcases select_of_bulk hbulk with ⟨⟨_, _, hS, hD⟩, _⟩ | ⟨_, hselect⟩
  · obtain rfl : k = 0 := by simpa [hS] using hk
    rw [planeBit_bitmap hS, planeBit_bitmap hD]
  · have hsame : (s.slot b).fmt.bitOrder = (s.slot a).fmt.bitOrder := hkind.resolve_left (by simp [hselect])
    simp only [planeBit, hsame, hdepth]

end Sys2Proof.Machine

/-! PROOFS. The statements about FAULT and the IRQ output (spec/60_exceptions.md R265, R270), with the facts they
share. -/
namespace Sys2Proof.Machine

/-! ### FAULT (R265) -/

/-- The completion update keeps a FAULT that was set (R142). -/
theorem Completed.fault_kept {e : BitVec 4} {s t : State} (h : Completed e s t) (hf : s.status.fault = true) :
    t.status.fault = true := by
  obtain ⟨_, _, hfault, _⟩ := h
  rw [hfault, hf, Bool.true_or]

/-- The engine's turn keeps a FAULT that was set, with a command pending, an ill-formed word, or none. -/
theorem engineTurn_fault_kept {s t : State} (h : engineTurn s = .next t) (hf : s.status.fault = true) :
    t.status.fault = true := by
  rcases engineTurn_cases h with ⟨_, hnext⟩ | ⟨_, i, _, hexec⟩ | ⟨_, _, _, hnext⟩
  · cases hnext; exact hf
  · obtain ⟨hcompleted, _⟩ := exec_endedWith hexec
    exact hcompleted.fault_kept hf
  · cases hnext
    exact (State.complete_completed (.refl s) Err.illegalCommand.code).fault_kept hf

/-- Settles O24: by the kinds of turn; the engine's keeps a set FAULT, a host turn that is no reset leaves FAULT
alone. -/
theorem faultIsSticky : Obligations.FaultIsSticky := by
  intro s t hstep hf hreset
  rcases step_cases hstep with ⟨_, hengine⟩ | ⟨hdue, _⟩ | ⟨_, _, hhost⟩
  · exact engineTurn_fault_kept hengine hf
  · exact absurd hdue hreset
  · rw [hhost.fault]; exact hf

/-! ### The IRQ output (R270) -/

/-- IRQ is deasserted while DONE is 0. -/
theorem State.irq_of_not_done {s : State} (h : s.status.done = false) : s.irq = false := by
  rw [State.irq, h, Bool.and_false]

/-- A command ends with DONE set and IRQ_EN as it was, so that IRQ is then IRQ_EN. -/
theorem EndedWith.irq_eq {e : BitVec 4} {s t : State} (h : EndedWith e s t) : t.irq = s.irqEn := by
  obtain ⟨⟨_, _, _, hdone, _⟩, hirqEn, _⟩ := h
  rw [State.irq, hdone, hirqEn, Bool.and_true]

/-- A launch clears DONE (R140). -/
theorem State.launch_irq (s : State) (w : Word) : (s.launch w).irq = false := State.irq_of_not_done rfl

/-- A STATUS write with bit 1 set clears DONE (R38). -/
theorem Status.hostWrite_done {v : Word} (h : v.getLsbD 1 = true) (st : Status) : (st.hostWrite v).done = false := by
  simp [Status.hostWrite, h]

theorem writeReg_status_irq {v : Word} (h : v.getLsbD 1 = true) (s : State) : (writeReg .status v s).irq = false :=
  State.irq_of_not_done (Status.hostWrite_done h s.status)

/-- A CTRL write without SOFT_RESET puts its bit 0 in IRQ_EN (R37). -/
theorem writeReg_ctrl_of_no_reset {v : Word} (h : v.getLsbD 1 = false) (s : State) :
    writeReg .ctrl v s = { s with irqEn := v.getLsbD 0 } :=
  if_neg (h ▸ Bool.false_ne_true)

/-- A reset clears DONE and IRQ_EN (R290). -/
theorem State.deviceReset_irq (s : State) : s.deviceReset.irq = false := State.irq_of_not_done rfl

/-- Settles O15: event by event, from what each does to DONE and IRQ_EN. -/
theorem irqFollowsEnableAndDone : Obligations.IrqFollowsEnableAndDone := by
  refine ⟨fun i s t hexec => ?_, fun s t v rest h hidle hstep => ?_, fun s t v rest h hv hstep => ?_,
    fun s t v rest h hv hstep => ?_, fun s t hreset hstep => ?_⟩
  · exact (exec_endedWith hexec).irq_eq
  · rw [step_regWrite h (r := .cmd) rfl, writeReg_cmd_of_idle (s := { s with agenda := rest }) hidle] at hstep
    cases hstep; exact State.launch_irq _ v
  · rw [step_regWrite h (r := .status) rfl] at hstep
    cases hstep; exact writeReg_status_irq hv _
  · rw [step_regWrite h (r := .ctrl) rfl, writeReg_ctrl_of_no_reset hv] at hstep
    cases hstep; rfl
  · rw [step_reset hreset] at hstep
    cases hstep; exact State.deviceReset_irq _

end Sys2Proof.Machine
